-- ==== Sys2Proof/Word.lean ====
section
/-! DEFINITION. The two bit-vector types of the block: a 32-bit REG word and an 8-bit MEM byte
(spec/00_scope.md R8), and the rounding of a bit length up to bytes (R12). -/

namespace Sys2Proof

/-- A REG-space register or transaction word (R8). -/
abbrev Word := BitVec 32

/-- A MEM byte (R42). -/
abbrev Byte := BitVec 8

/-- `bytes_needed(n) = ceil(n/8)` (R12), over naturals (R14). -/
def bytesNeeded (n : Nat) : Nat := (n + 7) / 8

end Sys2Proof
end

