-- ==== Sys2Proof/Syntax.lean ====
section
/-! DEFINITION. The instructions: one constructor for each row of spec/opcode_table.json. Nine rows are
values of the 32-bit command word the host writes to CTRL (spec/30_encoding.md R80, R81); thirteen are
values of the one-byte block header of a sparse stream (R84), which SC_DECODE reads from MEM. -/

namespace Sys2Proof

/-- The fields of a command word that a CTRL write stores besides OP (R25, R80). Every command word
carries all of them, the ones its command ignores too, because CTRL keeps them all. -/
structure CtrlBits where
  /-- [8] interrupt enable -/
  ie : Bool
  /-- [7:6] HUF_DECODE symbol width code -/
  symw : BitVec 2
  /-- [5] VL_DECODE output endianness, 1 = big -/
  dend : Bool
  /-- [4] POPCOUNT and HUF_DECODE source endianness, 1 = big -/
  send : Bool
deriving DecidableEq, Repr

/-- The two encodings of the opcode table. -/
inductive Format where
  | commandWord
  | blockHeader
deriving DecidableEq, Repr

inductive Instr where
  /-- SC_DECODE, OP = 1 (R160) -/
  | scDecode (f : CtrlBits)
  /-- VL_DECODE, OP = 2 (R220) -/
  | vlDecode (f : CtrlBits)
  /-- HUF_DECODE, OP = 3 (R190) -/
  | hufDecode (f : CtrlBits)
  /-- POPCOUNT, OP = 4 (R140) -/
  | popcount (f : CtrlBits)
  /-- BITREV, OP = 5 (R145) -/
  | bitrev (f : CtrlBits)
  /-- RESERVED_OP_0, OP = 0 (R122) -/
  | reservedOp0 (f : CtrlBits)
  /-- RESERVED_OP_6_7, OP = 6 + `lo` (R122) -/
  | reservedOp67 (lo : BitVec 1) (f : CtrlBits)
  /-- RESERVED_OP_8_F, OP = 8 + `lo` (R122) -/
  | reservedOp8F (lo : BitVec 3) (f : CtrlBits)
  /-- CTRL_STORE, START = 0 with any OP (R25) -/
  | ctrlStore (op : BitVec 4) (f : CtrlBits)
  /-- SC_TERM, header 0x00 (R163) -/
  | scTerm
  /-- SC_RAW, headers 0x01..0x7F (R164); `h` = 0 would be SC_TERM's byte -/
  | scRawLow (h : BitVec 7)
  /-- SC_RAW, headers 0x80..0x9F = 0x80 + `h` (R164) -/
  | scRawHigh (h : BitVec 5)
  /-- SC_SPARSE1, headers 0xA0..0xBF = 0xA0 + `c`, `c` one-byte indices (R166) -/
  | scSparse1 (c : BitVec 5)
  /-- SC_SPARSE2, header 0xC2; the count byte follows (R165) -/
  | scSparse2
  /-- SC_SPARSE3, header 0xC3 (R165) -/
  | scSparse3
  /-- SC_SPARSE4, header 0xC4 (R165) -/
  | scSparse4
  /-- SC_RESERVED, headers 0xC0, 0xC1 (R168) -/
  | scReservedC0 (lo : BitVec 1)
  /-- SC_RESERVED, header 0xC5 (R168) -/
  | scReservedC5
  /-- SC_RESERVED, headers 0xC6, 0xC7 (R168) -/
  | scReservedC6 (lo : BitVec 1)
  /-- SC_RESERVED, headers 0xC8..0xCF (R168) -/
  | scReservedC8 (lo : BitVec 3)
  /-- SC_RESERVED, headers 0xD0..0xDF (R168) -/
  | scReservedD0 (lo : BitVec 4)
  /-- SC_RESERVED, headers 0xE0..0xFF (R168) -/
  | scReservedE0 (lo : BitVec 5)
deriving DecidableEq, Repr

/-- Which encoding an instruction is written in. -/
def Instr.format : Instr → Format
  | .scDecode _ | .vlDecode _ | .hufDecode _ | .popcount _ | .bitrev _ => .commandWord
  | .reservedOp0 _ | .reservedOp67 _ _ | .reservedOp8F _ _ | .ctrlStore _ _ => .commandWord
  | .scTerm | .scRawLow _ | .scRawHigh _ | .scSparse1 _ => .blockHeader
  | .scSparse2 | .scSparse3 | .scSparse4 => .blockHeader
  | .scReservedC0 _ | .scReservedC5 | .scReservedC6 _ => .blockHeader
  | .scReservedC8 _ | .scReservedD0 _ | .scReservedE0 _ => .blockHeader

end Sys2Proof
end

