-- ==== Sys2Proof/WellFormed.lean ====
section
/-! DEFINITION. Which terms of `Instr` are instructions. The field widths rule out everything but one
case: the low SC_RAW row does not hold the byte 0x00, which is SC_TERM's (spec/opcode_table.json,
spec/42_sparse_decode.md R163). -/

namespace Sys2Proof

/-- The instruction has an encoding of its own. -/
def Instr.wellFormed : Instr → Bool
  | .scRawLow h => decide (h ≠ 0)
  | .scDecode _ | .vlDecode _ | .hufDecode _ | .popcount _ | .bitrev _ => true
  | .reservedOp0 _ | .reservedOp67 _ _ | .reservedOp8F _ _ | .ctrlStore _ _ => true
  | .scTerm | .scRawHigh _ | .scSparse1 _ | .scSparse2 | .scSparse3 | .scSparse4 => true
  | .scReservedC0 _ | .scReservedC5 | .scReservedC6 _ => true
  | .scReservedC8 _ | .scReservedD0 _ | .scReservedE0 _ => true

end Sys2Proof
end

