-- ==== Sys2Proof/Decode.lean ====
section
/-! DEFINITION. Decoding and encoding (spec/30_encoding.md R80 to R88, spec/opcode_table.json). The
decoder tests each row's mask and match in the table's order, SC_TERM before SC_RAW as the table says. -/

namespace Sys2Proof

/-- The stored fields of a command word (R80). -/
def CtrlBits.ofWord (w : Word) : CtrlBits :=
  { ie := w.getLsbD 8, symw := w.extractLsb' 6 2, dend := w.getLsbD 5, send := w.getLsbD 4 }

/-- Whether a word belongs to a row of the opcode table. -/
def rowMatches {n : Nat} (w mask pattern : BitVec n) : Bool := w &&& mask == pattern

/-- Every 32-bit command word is one row's (R81, R82). Bits [30:9] are ignored. -/
def decodeWord (w : Word) : Instr :=
  if rowMatches w 0x8000000F 0x80000001 then .scDecode (.ofWord w)
  else if rowMatches w 0x8000000F 0x80000002 then .vlDecode (.ofWord w)
  else if rowMatches w 0x8000000F 0x80000003 then .hufDecode (.ofWord w)
  else if rowMatches w 0x8000000F 0x80000004 then .popcount (.ofWord w)
  else if rowMatches w 0x8000000F 0x80000005 then .bitrev (.ofWord w)
  else if rowMatches w 0x8000000F 0x80000000 then .reservedOp0 (.ofWord w)
  else if rowMatches w 0x8000000E 0x80000006 then .reservedOp67 (w.extractLsb' 0 1) (.ofWord w)
  else if rowMatches w 0x80000008 0x80000008 then .reservedOp8F (w.extractLsb' 0 3) (.ofWord w)
  else .ctrlStore (w.extractLsb' 0 4) (.ofWord w)

/-- Every byte is one row's block header (R84). -/
def decodeHeader (h : Byte) : Instr :=
  if rowMatches h 0xFF 0x00 then .scTerm
  else if rowMatches h 0x80 0x00 then .scRawLow (h.extractLsb' 0 7)
  else if rowMatches h 0xE0 0x80 then .scRawHigh (h.extractLsb' 0 5)
  else if rowMatches h 0xE0 0xA0 then .scSparse1 (h.extractLsb' 0 5)
  else if rowMatches h 0xFF 0xC2 then .scSparse2
  else if rowMatches h 0xFF 0xC3 then .scSparse3
  else if rowMatches h 0xFF 0xC4 then .scSparse4
  else if rowMatches h 0xFE 0xC0 then .scReservedC0 (h.extractLsb' 0 1)
  else if rowMatches h 0xFF 0xC5 then .scReservedC5
  else if rowMatches h 0xFE 0xC6 then .scReservedC6 (h.extractLsb' 0 1)
  else if rowMatches h 0xF8 0xC8 then .scReservedC8 (h.extractLsb' 0 3)
  else if rowMatches h 0xF0 0xD0 then .scReservedD0 (h.extractLsb' 0 4)
  else .scReservedE0 (h.extractLsb' 0 5)

/-- Why bytes are no instruction. -/
inductive DecodeReject where
  /-- fewer than the four bytes of a command word -/
  | cutCommandWord
  /-- no byte where a block header is wanted -/
  | noBlockHeader
deriving DecidableEq, Repr

/-- The first instruction of a byte sequence and the bytes after it. A command word's bytes are given
lowest address first, least significant first (spec/20_memory.md R61). -/
def decode : Format → List Byte → Except DecodeReject (Instr × List Byte)
  | .commandWord, b0 :: b1 :: b2 :: b3 :: rest => .ok (decodeWord (b3 ++ b2 ++ b1 ++ b0), rest)
  | .commandWord, _ => .error .cutCommandWord
  | .blockHeader, h :: rest => .ok (decodeHeader h, rest)
  | .blockHeader, [] => .error .noBlockHeader

/-- The command word with START, OP and the stored fields as given, reserved bits 0 (R80). -/
def commandBits (start : Bool) (op : BitVec 4) (f : CtrlBits) : Word :=
  BitVec.ofBool start ++ 0#22 ++ BitVec.ofBool f.ie ++ f.symw ++ BitVec.ofBool f.dend ++ BitVec.ofBool f.send ++ op

/-- The code an instruction is written as. -/
inductive Code where
  | word (w : Word)
  | header (h : Byte)
deriving DecidableEq, Repr

/-- The encoder, row by row (R80, R81, R84). -/
def encode : Instr → Code
  | .scDecode f => .word (commandBits true 1 f)
  | .vlDecode f => .word (commandBits true 2 f)
  | .hufDecode f => .word (commandBits true 3 f)
  | .popcount f => .word (commandBits true 4 f)
  | .bitrev f => .word (commandBits true 5 f)
  | .reservedOp0 f => .word (commandBits true 0 f)
  | .reservedOp67 lo f => .word (commandBits true (0b011#3 ++ lo) f)
  | .reservedOp8F lo f => .word (commandBits true (0b1#1 ++ lo) f)
  | .ctrlStore op f => .word (commandBits false op f)
  | .scTerm => .header 0x00
  | .scRawLow h => .header (0b0#1 ++ h)
  | .scRawHigh h => .header (0b100#3 ++ h)
  | .scSparse1 c => .header (0b101#3 ++ c)
  | .scSparse2 => .header 0xC2
  | .scSparse3 => .header 0xC3
  | .scSparse4 => .header 0xC4
  | .scReservedC0 lo => .header (0b1100000#7 ++ lo)
  | .scReservedC5 => .header 0xC5
  | .scReservedC6 lo => .header (0b1100011#7 ++ lo)
  | .scReservedC8 lo => .header (0b11001#5 ++ lo)
  | .scReservedD0 lo => .header (0b1101#4 ++ lo)
  | .scReservedE0 lo => .header (0b111#3 ++ lo)

/-- Decoding a code. -/
def decodeCode : Code → Instr
  | .word w => decodeWord w
  | .header h => decodeHeader h

/-- The bytes of a code as `decode` takes them, and its format. -/
def Code.bytes : Code → Format × List Byte
  | .word w =>
    (.commandWord, [w.extractLsb' 0 8, w.extractLsb' 8 8, w.extractLsb' 16 8, w.extractLsb' 24 8])
  | .header h => (.blockHeader, [h])

/-- The instruction an opcode-table row of `nbits` bits with the value `w` decodes to. -/
def decodeTableWord (nbits w : Nat) : Option Instr :=
  let code := match nbits with
    | 32 => some (Code.word (BitVec.ofNat 32 w))
    | 8 => some (Code.header (BitVec.ofNat 8 w))
    | _ => none
  match code with
  | none => none
  | some c =>
    match decode c.bytes.1 c.bytes.2 with
    | .ok (i, _) => some i
    | .error _ => none

end Sys2Proof
end

