-- ==== Sys2Proof/Config.lean ====
section
/-! DEFINITION. What an implementation fixes (spec/00_scope.md R9) and the free values: what the spec
leaves open while the machine goes on. A free value is an opaque constant, so no proof sees what it is. -/

namespace Sys2Proof

/-- The parameters of R9. The spec leaves them OPEN: State carries them, so that a claim about every
state is a claim about every legal choice, and no step changes them (R20). -/
structure Params where
  /-- MEM_BYTES, 1 .. 2^32 -/
  memBytes : Nat
  /-- HUF_MAXLEN, 1 .. 255 -/
  hufMaxlen : Nat
  /-- HUF_MAXSYM, 1 .. 4096 -/
  hufMaxsym : Nat
deriving DecidableEq, Repr

/-- The legal ranges of R9. -/
def Params.legal (p : Params) : Bool :=
  decide (1 ≤ p.memBytes) && decide (p.memBytes ≤ 2 ^ 32) &&
  decide (1 ≤ p.hufMaxlen) && decide (p.hufMaxlen ≤ 255) &&
  decide (1 ≤ p.hufMaxsym) && decide (p.hufMaxsym ≤ 4096)

/-- The parameters `State.reset` has: those of the programs of spec/95_test_vectors.md section 3
(DESIGN CHOICE, log entry 1). -/
def Config.params : Params := { memBytes := 256, hufMaxlen := 4, hufMaxsym := 8 }

/-- FREE VALUE (log entry 4): how many host events come between launch number `n` and its completion.
R121: "unspecified and unbounded, but finite". -/
opaque Config.completionDelay : Nat → Nat

/-- FREE VALUE (log entry 6): the byte at an address of the destination region after the stream error
that ended launch number `n` (R127: "any value"). -/
opaque Config.errorByte : Nat → Nat → Byte

/-- FREE VALUE (log entry 8): which of the allowed values draw number `n`, a host read of a
write-set byte while BUSY, returns (R70e). -/
opaque Config.busyReadChoice : Nat → Nat

/-- FREE VALUE (log entry 7): what MEM holds at an address after power-on number `n`, as a host
read shows it (R46: "unspecified"). -/
opaque Config.powerUpMem : Nat → Nat → Byte

/-- FREE VALUE (log entry 7): what HCOUNT holds after power-on number `n` (R46). -/
opaque Config.powerUpHcount : Nat → Nat → BitVec 16

/-- FREE VALUE (log entry 7): what HSYM holds after power-on number `n` (R46). -/
opaque Config.powerUpHsym : Nat → Nat → Word

end Sys2Proof
end

