-- ==== Sys2Proof/Machine/State.lean ====
section
/-! DEFINITION. The state of the block (spec/10_state.md R20 to R46), why a step can stop, and the state
after power-on. Plain data only; INVENTORY.md lists every field with its rule and reset value. -/

namespace Sys2Proof.Machine

/-- The error codes of spec/60_exceptions.md R260, in the order of their numbers 0..9. Codes 10..15
are never produced, so no value of this type stands for them. -/
inductive ErrCode where
  | ok | truncated | underflow | badHeader | badBlock | badTable | badCode | badArg | capacity | badCmd
deriving DecidableEq, Repr

/-- CTRL's stored fields (R25). START and the reserved bits read as 0 and are not stored (R26). -/
structure Ctrl where
  op : BitVec 4
  bits : CtrlBits
deriving DecidableEq, Repr

/-- STATUS but for BUSY, which is the engine phase (R27, R43). -/
structure Status where
  done : Bool
  wign : Bool
  err : ErrCode
deriving DecidableEq, Repr

/-- The operand registers (R29 to R34). -/
structure Regs where
  srcAddr : Word
  srcLen : Word
  dstAddr : Word
  dstCap : Word
  arg0 : Word
  arg1 : Word
  arg2 : Word
  hufNsym : Word
deriving DecidableEq, Repr

/-- The result registers RES_LEN, RES_POS and RES_INFO[0] (R36 to R38). -/
structure Results where
  len : Word
  pos : Word
  endian : Bool
deriving DecidableEq, Repr

/-- The latched command of R43: OP, SEND, DEND, SYMW and the operand registers at launch (R120). -/
structure Latched where
  op : BitVec 4
  send : Bool
  dend : Bool
  symw : BitVec 2
  regs : Regs
deriving DecidableEq, Repr

/-- SC_DECODE's working state (R160): `pos`, E, N, L and O. -/
structure ScWork where
  pos : Nat
  endian : Bool
  lenBytes : Nat
  length : Nat
  offset : Nat
deriving DecidableEq, Repr

/-- VL_DECODE's working state (R220): `pos`, the data bits so far (T is their number), P, and the
continuation bit of the last byte read. -/
structure VlWork where
  pos : Nat
  bits : List Bool
  pad : Nat
  more : Bool
deriving DecidableEq, Repr

/-- HUF_DECODE's working state (R190, R194): `pos`, t, and the code being read. -/
structure HufWork where
  pos : Nat
  count : Nat
  start : Nat
  code : Nat
  first : Nat
  index : Nat
  len : Nat
deriving DecidableEq, Repr

/-- POPCOUNT's working state (R140): p and the count. -/
structure PopWork where
  next : Nat
  count : Nat
deriving DecidableEq, Repr

/-- BITREV's working state (R147): the next byte k. -/
structure RevWork where
  next : Nat
deriving DecidableEq, Repr

/-- The working state of the running command (R44). -/
inductive Work where
  /-- launched, nothing done yet: every command starts from fixed initial values -/
  | fresh
  | sc (w : ScWork)
  | vl (w : VlWork)
  | huf (w : HufWork)
  | pop (w : PopWork)
  | rev (w : RevWork)
deriving DecidableEq, Repr

/-- What the engine holds while BUSY (R43, R44). The last three fields are the model's own. -/
structure Busy where
  cmd : Latched
  work : Work
  /-- MEM as it was at launch, for the draws of spec/20_memory.md R70(e) -/
  atLaunch : List Host.Cell
  /-- how many host events still come before the completion (R121) -/
  delay : Nat
  /-- which launch this is: its free values are drawn under this number -/
  id : Nat
deriving DecidableEq, Repr

/-- The engine phase (R43). -/
inductive Phase where
  | idle
  | busy (b : Busy)
deriving DecidableEq, Repr

/-- The host's transactions (spec/30_encoding.md R96), the WAIT of R97, and the reset input and
power-on of spec/70_reset_and_hazards.md R290, R292. -/
inductive HostOp where
  | regWrite (offset : Nat) (data : Word)
  | regRead (offset : Nat)
  | memWrite (addr : Nat) (data : Byte)
  | memRead (addr : Nat)
  | wait
  | reset
  | powerOn
deriving DecidableEq, Repr

/-- The state of the block and, in the last four fields, the model's own: the host transactions still
to come, what its reads returned (newest first), and two counters under which free values are drawn. -/
structure State where
  params : Params
  ctrl : Ctrl
  status : Status
  regs : Regs
  results : Results
  /-- HCOUNT, each written entry once, indexes rising (R40, R46) -/
  hcount : List (Nat × BitVec 16)
  /-- HSYM, each written entry once, indexes rising (R41, R46) -/
  hsym : List (Nat × Word)
  /-- MEM, each written byte once, addresses rising (R42, R46) -/
  mem : List Host.Cell
  phase : Phase
  host : List HostOp
  replies : List Word
  draws : Nat
  powerCycles : Nat
deriving DecidableEq, Repr

/-- The memories a command reads. -/
inductive Space where
  | mem | hcount | hsym
deriving DecidableEq, Repr

/-- Why the machine stops. -/
inductive Fault where
  /-- R274: a command read an entry or byte not written since power-on. Raised by the engine's reads
  of MEM, HCOUNT and HSYM. Safe: the spec gives the read no value. -/
  | unwrittenRead (space : Space) (index : Nat)
  /-- R274: the host wrote a byte of the running command's read set or write set (R70d). Raised by a
  host MEM write. Safe: the spec leaves every output of the command unspecified. -/
  | hostRace (addr : Nat)
  /-- R274: a reset or a power-on came while BUSY (R291). Raised by those two host events. Safe. -/
  | resetDuringBusy
  /-- The engine would use a MEM address at or above MEM_BYTES, which does not exist. Raised by the
  engine's MEM accesses; R125 says no command that passed its checks does so. Safe. -/
  | noSuchAddress (addr : Nat)
deriving DecidableEq, Repr

/-- Why an instruction has no outcome. -/
inductive Refusal where
  /-- an arm of `exec` that has no meaning yet; none is left. Safe. -/
  | notModelled (mnemonic : String)
  /-- a sparse block header run while no SC_DECODE is in its block loop (log entry 9). Raised by the
  meanings of the block headers; no step raises it, since it reads a header only in that loop. Safe. -/
  | noBlockLoop
deriving DecidableEq, Repr

/-- CTRL after reset (R45). -/
def Ctrl.zero : Ctrl := { op := 0, bits := { ie := false, symw := 0, dend := false, send := false } }

/-- STATUS after reset (R45). -/
def Status.zero : Status := { done := false, wign := false, err := .ok }

/-- The operand registers after reset (R45). -/
def Regs.zero : Regs :=
  { srcAddr := 0, srcLen := 0, dstAddr := 0, dstCap := 0, arg0 := 0, arg1 := 0, arg2 := 0, hufNsym := 0 }

/-- The result registers after reset (R45). -/
def Results.zero : Results := { len := 0, pos := 0, endian := false }

/-- The block with parameters `p` after power-on number `n` (R45, R46, R290): registers at their reset
values, IDLE, no byte or entry written, and `host` still to come. -/
def State.poweredOn (p : Params) (n : Nat) (host : List HostOp) : State :=
  { params := p, ctrl := .zero, status := .zero, regs := .zero, results := .zero,
    hcount := [], hsym := [], mem := [], phase := .idle,
    host := host, replies := [], draws := 0, powerCycles := n }

/-- The machine right after reset. -/
def State.reset : State := .poweredOn Config.params 0 []

end Sys2Proof.Machine
end

