-- ==== Sys2Proof/Machine/Flags.lean ====
section
/-! DEFINITION. The block's only flags: STATUS and CTRL as the host reads and writes them, the error
numbers, and the interrupt output (spec/10_state.md R25 to R28, R39; spec/60_exceptions.md R260). -/

namespace Sys2Proof.Machine

/-- The number of an error code (R260). -/
def ErrCode.number : ErrCode → BitVec 4
  | .ok => 0
  | .truncated => 1
  | .underflow => 2
  | .badHeader => 3
  | .badBlock => 4
  | .badTable => 5
  | .badCode => 6
  | .badArg => 7
  | .capacity => 8
  | .badCmd => 9

/-- STATUS.BUSY is 1 exactly when the engine phase is BUSY (R43). -/
def Phase.isBusy : Phase → Bool
  | .idle => false
  | .busy _ => true

/-- STATUS as a word (R27): ERR at [7:4], WIGN, DONE, BUSY, the reserved bits 0. -/
def Status.toWord (st : Status) (busy : Bool) : Word :=
  0#24 ++ st.err.number ++ 0#1 ++ BitVec.ofBool st.wign ++ BitVec.ofBool st.done ++ BitVec.ofBool busy

/-- A host write of `w` to STATUS (R28): W1C of DONE and WIGN. -/
def Status.writeOneToClear (st : Status) (w : Word) : Status :=
  { st with done := st.done && !w.getLsbD 1, wign := st.wign && !w.getLsbD 2 }

/-- STATUS at a launch (R120): DONE and ERR cleared, WIGN kept. -/
def Status.atLaunch (st : Status) : Status := { st with done := false, err := .ok }

/-- STATUS at a completion (R121): ERR set, DONE set, WIGN kept. -/
def Status.atCompletion (st : Status) (e : ErrCode) : Status := { st with done := true, err := e }

/-- CTRL as a word (R25): START and the reserved bits read as 0. -/
def Ctrl.toWord (c : Ctrl) : Word :=
  0#23 ++ BitVec.ofBool c.bits.ie ++ c.bits.symw ++ BitVec.ofBool c.bits.dend ++
    BitVec.ofBool c.bits.send ++ c.op

/-- The interrupt output (R39). -/
def State.irq (s : State) : Bool := s.status.done && s.ctrl.bits.ie

end Sys2Proof.Machine
end

