-- ==== Sys2Proof/Machine/Ops.lean ====
section
/-! DEFINITION. The shared operations: the cells that hold MEM, HCOUNT and HSYM, the engine's MEM port,
how a command goes on or ends, the launch and the completion (spec/40_command_protocol.md R120, R121), the
regions and their checks (R125, R126), and reset (spec/70_reset_and_hazards.md R290, R292). The block
takes no exception: a completion with an error code stands in its place (R263). -/

namespace Sys2Proof.Machine

/-! ### Cells: MEM and the tables -/

/-- The value at index `a`, none if nothing was written there since power-on (R46). -/
def Cells.read {β : Type} : List (Nat × β) → Nat → Option β
  | [], _ => none
  | (k, v) :: rest, a => if k = a then some v else Cells.read rest a

/-- Writes index `a`, keeping the indexes rising. -/
def Cells.write {β : Type} : List (Nat × β) → Nat → β → List (Nat × β)
  | [], a, b => [(a, b)]
  | (k, v) :: rest, a, b =>
    if a < k then (a, b) :: (k, v) :: rest
    else if a = k then (a, b) :: rest
    else (k, v) :: Cells.write rest a b

/-- The indexes rise strictly from `low` on. -/
def Cells.risingFrom {β : Type} : Nat → List (Nat × β) → Bool
  | _, [] => true
  | low, (k, _) :: rest => decide (low ≤ k) && Cells.risingFrom (k + 1) rest

/-- Every index is below `high`. -/
def Cells.below {β : Type} (high : Nat) (cs : List (Nat × β)) : Bool := cs.all fun c => decide (c.1 < high)

/-- The canonical form of MEM: addresses strictly rising. An unlisted address has no value, so no
entry equals what it would read as unlisted. -/
def Memory.wf (m : List Host.Cell) : Bool := Cells.risingFrom 0 m

/-! ### How a command goes on or ends -/

/-- The engine's view of MEM: its bytes, and every byte the command has written, latest first. -/
structure Port where
  mem : List Host.Cell
  log : List Host.Cell
deriving DecidableEq, Repr

/-- The end of a command: its code, the result registers it writes (none: left unchanged), and MEM
(R121, R124, R127). -/
structure Ending where
  code : ErrCode
  len : Option Nat
  pos : Option Nat
  endian : Option Bool
  port : Port
deriving DecidableEq, Repr

/-- One action of the engine: it goes on with a value, raises an error that ends the command
(`raise E`, R13), or meets a model fault (R274), with MEM and the bytes written so far. -/
inductive Act (α : Type) where
  | ok (a : α)
  | raise (e : Ending)
  | fault (f : Fault) (port : Port)
deriving DecidableEq, Repr

def Act.bind {α β : Type} (x : Act α) (k : α → Act β) : Act β :=
  match x with
  | .ok a => k a
  | .raise e => .raise e
  | .fault f m => .fault f m

/-- An error that changes no result register and no byte (R124). -/
def Act.reject {α : Type} (code : ErrCode) (m : Port) : Act α :=
  .raise { code := code, len := none, pos := none, endian := none, port := m }

/-- A stream error of SC_DECODE or VL_DECODE: RES_POS is set, RES_LEN and RES_INFO stay (R127). -/
def Act.streamError {α : Type} (code : ErrCode) (pos : Nat) (m : Port) : Act α :=
  .raise { code := code, len := none, pos := some pos, endian := none, port := m }

/-- What a command works from besides MEM: the parameters, the latched operands, the tables, and the
number its free values are drawn under. -/
structure Env where
  params : Params
  regs : Regs
  hcount : List (Nat × BitVec 16)
  hsym : List (Nat × Word)
  id : Nat
deriving DecidableEq, Repr

/-! ### The engine's MEM and table accesses, one byte or entry each (R66) -/

/-- `MemRead(a, 1)` (R13). A byte not written since power-on is a model fault (R46, R274). -/
def memRead (v : Env) (m : Port) (a : Nat) : Act Byte :=
  if a < v.params.memBytes then
    match Cells.read m.mem a with
    | some b => .ok b
    | none => .fault (.unwrittenRead .mem a) m
  else .fault (.noSuchAddress a) m

/-- `MemWrite(a, 1, b)` (R13). -/
def memWrite (v : Env) (m : Port) (a : Nat) (b : Byte) : Act Port :=
  if a < v.params.memBytes then .ok { mem := Cells.write m.mem a b, log := (a, b) :: m.log }
  else .fault (.noSuchAddress a) m

/-- Writes bytes at `a`, `a + 1`, .. in that order. -/
def memWriteBytes (v : Env) : Nat → List Byte → Port → Act Port
  | _, [], m => .ok m
  | a, b :: bs, m => (memWrite v m a b).bind fun m' => memWriteBytes v (a + 1) bs m'

/-- `HCOUNT[l]` as a command reads it (R13, R46). -/
def readHcount (v : Env) (m : Port) (l : Nat) : Act Nat :=
  match Cells.read v.hcount l with
  | some c => .ok c.toNat
  | none => .fault (.unwrittenRead .hcount l) m

/-- `HSYM[j]` as a command reads it (R13, R46). -/
def readHsym (v : Env) (m : Port) (j : Nat) : Act Word :=
  match Cells.read v.hsym j with
  | some x => .ok x
  | none => .fault (.unwrittenRead .hsym j) m

/-! ### Regions -/

/-- The bytes `[base, base + size)`, in naturals (R14). -/
structure Region where
  base : Nat
  size : Nat
deriving DecidableEq, Repr

/-- R125. -/
def Region.inBounds (p : Params) (r : Region) : Bool := decide (r.base + r.size ≤ p.memBytes)

def Region.holds (r : Region) (a : Nat) : Bool := decide (r.base ≤ a) && decide (a < r.base + r.size)

/-- R126: both regions are non-empty and share a byte. -/
def Region.overlaps (r q : Region) : Bool :=
  decide (0 < r.size) && decide (0 < q.size) &&
    decide (r.base < q.base + q.size) && decide (q.base < r.base + r.size)

/-- The source of SC_DECODE and VL_DECODE, SRC_LEN in bytes (R30, R125). -/
def Regs.streamSource (r : Regs) : Region := { base := r.srcAddr.toNat, size := r.srcLen.toNat }

/-- The source of HUF_DECODE, POPCOUNT and BITREV, SRC_LEN in bits (R30, R125). -/
def Regs.viewSource (r : Regs) : Region := { base := r.srcAddr.toNat, size := bytesNeeded r.srcLen.toNat }

/-- The decoders' output region (R31, R32, R125). -/
def Regs.destination (r : Regs) : Region := { base := r.dstAddr.toNat, size := r.dstCap.toNat }

/-- Steps 3 and 4 of R123 for a decoder: both regions in bounds, no overlap (R125, R126). -/
def decoderRegionsOk (p : Params) (src dst : Region) : Bool :=
  src.inBounds p && dst.inBounds p && !src.overlaps dst

/-- The bytes of a region that exist, each with a free value (R127: "any value" for each byte). -/
def spoiledBytes (v : Env) (r : Region) : List Host.Cell :=
  ((List.range r.size).filter fun k => decide (r.base + k < v.params.memBytes)).map
    fun k => (r.base + k, Config.errorByte v.id (r.base + k))

/-- MEM with every byte of the destination region at a free value (R127). -/
def Port.spoil (v : Env) (m : Port) : Port :=
  (spoiledBytes v v.regs.destination).foldl
    (fun m c => { mem := Cells.write m.mem c.1 c.2, log := c :: m.log }) m

/-- An SC_DECODE or VL_DECODE error found in decoding leaves the destination unspecified (R127). -/
def Act.spoilOnError {α : Type} (v : Env) : Act α → Act α
  | .ok a => .ok a
  | .raise e => .raise { e with port := e.port.spoil v }
  | .fault f m => .fault f m

/-! ### Launch and completion -/

/-- What a running command works from. -/
def State.env (s : State) (b : Busy) : Env :=
  { params := s.params, regs := b.cmd.regs, hcount := s.hcount, hsym := s.hsym, id := b.id }

/-- The engine's view of MEM as a step starts. -/
def State.port (s : State) : Port := { mem := s.mem, log := [] }

/-- The launch of R120, one atomic step. The delay to the completion is a free value (R121). -/
def launch (op : BitVec 4) (f : CtrlBits) (s : State) : State :=
  { s with
    ctrl := { op := op, bits := f },
    status := s.status.atLaunch,
    phase := .busy
      { cmd := { op := op, send := f.send, dend := f.dend, symw := f.symw, regs := s.regs },
        work := .fresh, atLaunch := s.mem, delay := Config.completionDelay s.draws, id := s.draws },
    draws := s.draws + 1 }

/-- The result registers after a command that writes the given ones (R36 to R38, R124). -/
def Results.after (r : Results) (e : Ending) : Results :=
  { len := (e.len.map (BitVec.ofNat 32)).getD r.len,
    pos := (e.pos.map (BitVec.ofNat 32)).getD r.pos,
    endian := e.endian.getD r.endian }

/-- The completion of R121, one atomic step: MEM and the result registers as the command says, ERR,
DONE, and IDLE. -/
def finishWith (e : Ending) (s : State) : State :=
  { s with
    mem := e.port.mem,
    results := s.results.after e,
    status := s.status.atCompletion e.code,
    phase := .idle }

/-- The engine's step for a command that has come to its end, by finishing or by raising an error. -/
def complete (x : Act Ending) (s : State) : Host.Outcome State Fault Refusal :=
  match x with
  | .ok e => .next (finishWith e s)
  | .raise e => .next (finishWith e s)
  | .fault f _ => .fault f

/-- The next event of a command word with START = 1: its launch while IDLE (R120), and while BUSY the
engine's completion, computed by `run` from the latched operands, the tables and MEM (R121). -/
def runCommand (op : BitVec 4) (f : CtrlBits) (run : Env → Port → Act Ending) (s : State) :
    Host.Outcome State Fault Refusal :=
  match s.phase with
  | .idle => .next (launch op f s)
  | .busy b => complete (run (s.env b) s.port) s

/-- A host write ignored under R21(c). -/
def ignoredWrite (s : State) : State := { s with status := { s.status with wign := true } }

/-- The fields of a CTRL write stored while IDLE (R25). -/
def storeCtrl (op : BitVec 4) (f : CtrlBits) (s : State) : State := { s with ctrl := { op := op, bits := f } }

/-! ### Reset -/

/-- A reset with power maintained, while IDLE: registers at R45's values, MEM and the tables kept (R292). -/
def resetRegisters (s : State) : State :=
  { s with ctrl := .zero, status := .zero, regs := .zero, results := .zero, phase := .idle }

/-- A power-on: everything at R45's and R46's values. The host's own list, its replies and the
draws stay, and the contents of the memories are new free values. -/
def powerUp (s : State) : State :=
  { State.poweredOn s.params (s.powerCycles + 1) s.host with replies := s.replies, draws := s.draws }

end Sys2Proof.Machine
end

