-- ==== Sys2Proof/Machine/Operands.lean ====
section
/-! DEFINITION. The operand forms of the commands: bits of a bit buffer view (spec/00_scope.md R12), the
input cursor of the stream decoders (R160, R220), little-endian quantities (spec/20_memory.md R63), output
symbols (spec/30_encoding.md R95), and bit reversal (R13). -/

namespace Sys2Proof.Machine

/-- `bitpos(i, e)` (R12): the numeric bit that holds logical bit `i`; `big` is e = 1. -/
def bitPosition (big : Bool) (i : Nat) : Nat := if big then 7 - i % 8 else i % 8

/-- A byte with numeric bit `k` replaced (R12). -/
def withBit (x : Byte) (k : Nat) (b : Bool) : Byte :=
  if b then x ||| (1#8 <<< k) else x &&& ~~~(1#8 <<< k)

/-- `getbit(V, i)` of the view at `base` (R12). -/
def getBit (v : Env) (base : Nat) (big : Bool) (m : Port) (i : Nat) : Act Bool :=
  (memRead v m (base + i / 8)).bind fun x => .ok (x.getLsbD (bitPosition big i))

/-- `setbit(V, i, b)` of the view at `base`: a byte read, then a byte write (R12, R64). -/
def setBit (v : Env) (base : Nat) (big : Bool) (i : Nat) (b : Bool) (m : Port) : Act Port :=
  (memRead v m (base + i / 8)).bind fun x =>
    memWrite v m (base + i / 8) (withBit x (bitPosition big i) b)

/-- `setbit` of the bits `i`, `i + 1`, .. of the view, in that order. -/
def setBits (v : Env) (base : Nat) (big : Bool) : Nat → List Bool → Port → Act Port
  | _, [], m => .ok m
  | i, b :: bs, m => (setBit v base big i b m).bind fun m' => setBits v base big (i + 1) bs m'

/-- `rd()` at cursor `pos` (R160, R220): the end of the input raises `eos`, with RES_POS = `pos`. -/
def readInput (v : Env) (eos : ErrCode) (pos : Nat) (m : Port) : Act Byte :=
  if v.regs.srcLen.toNat ≤ pos then .streamError eos pos m
  else memRead v m (v.regs.srcAddr.toNat + pos)

/-- `n` bytes from the cursor, assembled little-endian (R87, R161): `LE(b0, .., b(n-1))`. -/
def readLittleEndian (v : Env) (eos : ErrCode) : Nat → Nat → Port → Act Nat
  | 0, _, _ => .ok 0
  | n + 1, pos, m =>
    (readInput v eos pos m).bind fun b =>
      (readLittleEndian v eos n (pos + 1) m).bind fun rest => .ok (b.toNat + 256 * rest)

/-- `rev8(b)` (R13): bit `j` of the result is bit `7 - j` of `b`. -/
def rev8 (b : Byte) : Byte := b.reverse

/-- The bytes of one output symbol of `w` bytes, least significant first (R95, R197). -/
def symbolBytes (sym : Word) (w : Nat) : List Byte := (List.range w).map fun k => sym.extractLsb' (8 * k) 8

/-- The symbol width of a SYMW code: 1, 2 or 4 bytes; code 3 is reserved (R25). -/
def symbolWidth (symw : BitVec 2) : Option Nat :=
  if symw = 0 then some 1 else if symw = 1 then some 2 else if symw = 2 then some 4 else none

end Sys2Proof.Machine
end

