-- ==== Sys2Proof/Machine/Bits.lean ====
section
/-! DEFINITION. The bit primitives POPCOUNT and BITREV (spec/41_bit_primitives.md R140 to R149). -/

namespace Sys2Proof.Machine

/-- R140's loop from working state `w`. The first argument bounds the positions left. -/
def popcountLoop (v : Env) (send : Bool) : Nat → PopWork → Port → Act Nat
  | 0, w, _ => .ok w.count
  | n + 1, w, m =>
    if w.next < v.regs.arg1.toNat then
      (getBit v v.regs.srcAddr.toNat send m w.next).bind fun bit =>
        popcountLoop v send n
          { next := w.next + v.regs.arg2.toNat, count := w.count + bit.toNat } m
    else .ok w.count

/-- The rest of a POPCOUNT from working state `w`: the count goes to RES_LEN (R140). -/
def popcountFrom (v : Env) (send : Bool) (w : PopWork) (m : Port) : Act Ending :=
  (popcountLoop v send (v.regs.arg1.toNat - w.next) w m).bind fun count =>
    .ok { code := .ok, len := some count, pos := none, endian := none, port := m }

/-- R141's argument checks. -/
def popcountArgsOk (r : Regs) : Bool :=
  decide (r.arg2.toNat ≠ 0) && decide (r.arg0.toNat ≤ r.arg1.toNat) && decide (r.arg1.toNat ≤ r.srcLen.toNat)

/-- POPCOUNT: the checks of R123, then R140 from p = start, count = 0. -/
def popcountRun (send : Bool) (v : Env) (m : Port) : Act Ending :=
  if !v.regs.viewSource.inBounds v.params then .reject .badArg m
  else if !popcountArgsOk v.regs then .reject .badArg m
  else popcountFrom v send { next := v.regs.arg0.toNat, count := 0 } m

/-- POPCOUNT (R140). -/
def execPopcount (f : CtrlBits) (s : State) : Host.Outcome State Fault Refusal :=
  runCommand 4 f (popcountRun f.send) s

/-- R147's loop over `n` bytes from byte `k` of the view: each is read once, then written once. -/
def bitrevLoop (v : Env) : Nat → Nat → Port → Act Port
  | 0, _, m => .ok m
  | n + 1, k, m =>
    (memRead v m (v.regs.srcAddr.toNat + k)).bind fun b =>
      (memWrite v m (v.regs.srcAddr.toNat + k) (rev8 b)).bind fun m' => bitrevLoop v n (k + 1) m'

/-- The rest of a BITREV from byte `w.next` (R147); no result register is written. -/
def bitrevFrom (v : Env) (w : RevWork) (m : Port) : Act Ending :=
  (bitrevLoop v (v.regs.arg1.toNat - w.next) w.next m).bind fun m' =>
    .ok { code := .ok, len := none, pos := none, endian := none, port := m' }

/-- R146's argument check. -/
def bitrevArgsOk (r : Regs) : Bool :=
  decide (r.arg0.toNat ≤ r.arg1.toNat) && decide (r.arg1.toNat ≤ bytesNeeded r.srcLen.toNat)

/-- BITREV: the checks of R123, then R147 from k = start_byte. -/
def bitrevRun (v : Env) (m : Port) : Act Ending :=
  if !v.regs.viewSource.inBounds v.params then .reject .badArg m
  else if !bitrevArgsOk v.regs then .reject .badArg m
  else bitrevFrom v { next := v.regs.arg0.toNat } m

/-- BITREV (R145). -/
def execBitrev (f : CtrlBits) (s : State) : Host.Outcome State Fault Refusal :=
  runCommand 5 f bitrevRun s

end Sys2Proof.Machine
end

