-- ==== Sys2Proof/Machine/Control.lean ====
section
/-! DEFINITION. The command words that run no operation: the reserved codes (spec/40_command_protocol.md
R122) and a CTRL write with START = 0 (spec/10_state.md R25). -/

namespace Sys2Proof.Machine

/-- A reserved code completes with BAD_CMD; MEM and the result registers stay (R122). -/
def reservedRun (_v : Env) (m : Port) : Act Ending := .reject .badCmd m

/-- RESERVED_OP_0 (R122). -/
def execReservedOp0 (f : CtrlBits) (s : State) : Host.Outcome State Fault Refusal :=
  runCommand 0 f reservedRun s

/-- RESERVED_OP_6_7 (R122). -/
def execReservedOp67 (lo : BitVec 1) (f : CtrlBits) (s : State) : Host.Outcome State Fault Refusal :=
  runCommand (0b011#3 ++ lo) f reservedRun s

/-- RESERVED_OP_8_F (R122). -/
def execReservedOp8F (lo : BitVec 3) (f : CtrlBits) (s : State) : Host.Outcome State Fault Refusal :=
  runCommand (0b1#1 ++ lo) f reservedRun s

/-- CTRL_STORE: while IDLE the fields are stored and nothing is launched (R25, R82); while BUSY the
write is ignored and sets WIGN (R21c). -/
def execCtrlStore (op : BitVec 4) (f : CtrlBits) (s : State) : Host.Outcome State Fault Refusal :=
  match s.phase with
  | .idle => .next (storeCtrl op f s)
  | .busy _ => .next (ignoredWrite s)

end Sys2Proof.Machine
end

