-- ==== Sys2Proof/Machine/Huffman.lean ====
section
/-! DEFINITION. HUF_DECODE (spec/43_huffman_decode.md R190 to R201, spec/30_encoding.md R93 to R95). -/

namespace Sys2Proof.Machine

/-- BAD_TABLE: RES_LEN and RES_POS become 0, MEM stays (R193). -/
def badTable {α : Type} (m : Port) : Act α :=
  .raise { code := .badTable, len := some 0, pos := some 0, endian := none, port := m }

/-- HCOUNT[l], HCOUNT[l+1], .. for `n` entries, in that order. -/
def readCounts (v : Env) (m : Port) : Nat → Nat → Act (List Nat)
  | 0, _ => .ok []
  | n + 1, l =>
    (readHcount v m l).bind fun c => (readCounts v m n (l + 1)).bind fun cs => .ok (c :: cs)

/-- Check 4 of R193 over the integers: `left` never falls below 0. -/
def notOverSubscribed : Int → List Nat → Bool
  | _, [] => true
  | left, c :: cs => if 2 * left - (c : Int) < 0 then false else notOverSubscribed (2 * left - (c : Int)) cs

/-- R193's table checks, in order; each reads only the entries it needs. -/
def checkTables (v : Env) (m : Port) : Act Unit :=
  if v.regs.hufNsym.toNat = 0 ∨ v.params.hufMaxsym < v.regs.hufNsym.toNat then badTable m
  else
    (readHcount v m 0).bind fun c0 =>
      if c0 ≠ 0 then badTable m
      else
        (readCounts v m v.params.hufMaxlen 1).bind fun cs =>
          if cs.sum ≠ v.regs.hufNsym.toNat then badTable m
          else if !notOverSubscribed 1 cs then badTable m
          else .ok ()

/-- UNDERFLOW, BAD_CODE or CAPACITY: the symbols written stay, RES_POS is where the failing code began (R198). -/
def codeError {α : Type} (code : ErrCode) (w : HufWork) (m : Port) : Act α :=
  .raise { code := code, len := some w.count, pos := some w.start, endian := none, port := m }

/-- R194: the start of a code at the bit cursor. -/
def HufWork.startCode (w : HufWork) : HufWork :=
  { w with start := w.pos, code := 0, first := 0, index := 0, len := 1 }

/-- R194's loop over the code lengths; the first argument is how many lengths are still to try. A
symbol found leaves `len` = 0: no code is being read. -/
def decodeSymbol (v : Env) (send : Bool) : Nat → HufWork → Port → Act (Word × HufWork)
  | 0, w, m => codeError .badCode w m
  | n + 1, w, m =>
    if v.regs.srcLen.toNat ≤ w.pos then codeError .underflow w m
    else
      (getBit v v.regs.srcAddr.toNat send m w.pos).bind fun bit =>
        let code := w.code + bit.toNat
        (readHcount v m w.len).bind fun cnt =>
          if code < w.first + cnt then
            (readHsym v m (w.index + (code - w.first))).bind fun sym =>
              .ok (sym, { w with pos := w.pos + 1, code := code, len := 0 })
          else
            decodeSymbol v send n
              { w with pos := w.pos + 1, code := code * 2, first := (w.first + cnt) * 2,
                       index := w.index + cnt, len := w.len + 1 } m

/-- R196, R197: symbol number t of `width` bytes. -/
def emitSymbol (v : Env) (width : Nat) (sym : Word) (w : HufWork) (m : Port) : Act (HufWork × Port) :=
  if v.regs.dstCap.toNat < width * (w.count + 1) then codeError .capacity w m
  else
    (memWriteBytes v (v.regs.dstAddr.toNat + width * w.count) (symbolBytes sym width) m).bind fun m' =>
      .ok ({ w with count := w.count + 1 }, m')

/-- R195: the results when the bits are used up exactly. -/
def huffmanDone (w : HufWork) (m : Port) : Act Ending :=
  .ok { code := .ok, len := some w.count, pos := some w.pos, endian := none, port := m }

/-- R195's loop. The first argument bounds the bits left; each symbol takes at least one. -/
def huffmanLoop (v : Env) (send : Bool) (width : Nat) : Nat → HufWork → Port → Act Ending
  | 0, w, m => huffmanDone w m
  | n + 1, w, m =>
    if w.pos < v.regs.srcLen.toNat then
      (decodeSymbol v send v.params.hufMaxlen w.startCode m).bind fun r =>
        (emitSymbol v width r.1 r.2 m).bind fun r' => huffmanLoop v send width n r'.1 r'.2
    else huffmanDone w m

/-- The working state HUF_DECODE starts from: bit cursor 0, no symbol written (R190). -/
def HufWork.initial : HufWork :=
  { pos := 0, count := 0, start := 0, code := 0, first := 0, index := 0, len := 0 }

/-- The rest of a HUF_DECODE from working state `w`: `len` = 0 is between two codes, else inside one. -/
def huffmanFrom (v : Env) (send : Bool) (width : Nat) (w : HufWork) (m : Port) : Act Ending :=
  if w.len = 0 then huffmanLoop v send width (v.regs.srcLen.toNat - w.pos) w m
  else
    (decodeSymbol v send (v.params.hufMaxlen + 1 - w.len) w m).bind fun r =>
      (emitSymbol v width r.1 r.2 m).bind fun r' =>
        huffmanLoop v send width (v.regs.srcLen.toNat - r'.1.pos) r'.1 r'.2

/-- HUF_DECODE: the checks of R123 (SYMW first, R192), then R193 to R197. -/
def huffmanRun (send : Bool) (symw : BitVec 2) (v : Env) (m : Port) : Act Ending :=
  match symbolWidth symw with
  | none => .reject .badArg m
  | some width =>
    if !decoderRegionsOk v.params v.regs.viewSource v.regs.destination then .reject .badArg m
    else (checkTables v m).bind fun _ => huffmanFrom v send width .initial m

/-- HUF_DECODE (R190). -/
def execHufDecode (f : CtrlBits) (s : State) : Host.Outcome State Fault Refusal :=
  runCommand 3 f (huffmanRun f.send f.symw) s

end Sys2Proof.Machine
end

