-- ==== Sys2Proof/Machine/Sparse.lean ====
section
/-! DEFINITION. SC_DECODE and the blocks of a sparse stream (spec/42_sparse_decode.md R160 to R173,
spec/30_encoding.md R83 to R88). A block is run by one definition, `sparseBlock`, whether SC_DECODE's
completion runs it or a step that finds the engine in the block loop. -/

namespace Sys2Proof.Machine

/-- What a block header asks for (R84). -/
inductive BlockClass where
  /-- 0x00 -/
  | term
  /-- a raw block of `size` bytes -/
  | raw (size : Nat)
  /-- a sparse block of `width`-byte indices; `count` is none when a count byte follows -/
  | sparse (width : Nat) (count : Option Nat)
  /-- a reserved header -/
  | reserved
deriving DecidableEq, Repr

/-- R85: the size of a raw block with header `h` in 0x01..0x9F. -/
def rawSize (h : Nat) : Nat := if h ≤ 32 then h else 32 * (h - 31)

/-- The branches of R163 on the block header. -/
def blockClass (h : Byte) : BlockClass :=
  if h.toNat = 0 then .term
  else if h.toNat ≤ 0x9F then .raw (rawSize h.toNat)
  else if h.toNat ≤ 0xBF then .sparse 1 (some (h.toNat - 0xA0))
  else if 0xC2 ≤ h.toNat ∧ h.toNat ≤ 0xC4 then .sparse (h.toNat - 0xC0) none
  else .reserved

/-- The bytes a sparse block of index width `k` spans: `2^(8k - 3)` (R84, R166). -/
def coverage (k : Nat) : Nat := 2 ^ (8 * k - 3)

/-- R161: the stream header. -/
def sparseHeader (v : Env) (m : Port) : Act ScWork :=
  (readInput v .truncated 0 m).bind fun h =>
    if h.extractLsb' 5 3 ≠ 0 ∨ 8 < (h.extractLsb' 0 4).toNat then .streamError .badHeader 1 m
    else
      (readLittleEndian v .truncated (h.extractLsb' 0 4).toNat 1 m).bind fun length =>
        .ok { pos := 1 + (h.extractLsb' 0 4).toNat, endian := h.getLsbD 4,
              lenBytes := (h.extractLsb' 0 4).toNat, length := length, offset := 0 }

/-- R162: the capacity check, then NB bytes of zero. -/
def sparseOpen (v : Env) (w : ScWork) (m : Port) : Act Port :=
  if 2 ^ 32 - 1 < w.length ∨ v.regs.dstCap.toNat < bytesNeeded w.length then .streamError .capacity w.pos m
  else memWriteBytes v v.regs.dstAddr.toNat (List.replicate (bytesNeeded w.length) 0) m

/-- The copy loop of R164: `n` input bytes from cursor `pos` to byte `k` of the destination on. -/
def copyRaw (v : Env) : Nat → Nat → Nat → Port → Act Port
  | 0, _, _, m => .ok m
  | n + 1, pos, k, m =>
    (readInput v .truncated pos m).bind fun b =>
      (memWrite v m (v.regs.dstAddr.toNat + k) b).bind fun m' => copyRaw v n (pos + 1) (k + 1) m'

/-- The index loop of R166: `n` indices of `k` bytes from cursor `w.pos`, each setting bit `8*O + i`.
The working state comes back with the cursor after the last index. -/
def setIndices (v : Env) (k : Nat) : Nat → ScWork → Port → Act (ScWork × Port)
  | 0, w, m => .ok (w, m)
  | n + 1, w, m =>
    (readLittleEndian v .truncated k w.pos m).bind fun i =>
      if w.length ≤ 8 * w.offset + i then .streamError .badBlock (w.pos + k) m
      else
        (setBit v v.regs.dstAddr.toNat w.endian (8 * w.offset + i) true m).bind fun m' =>
          setIndices v k n { w with pos := w.pos + k } m'

/-- R165: the count of a sparse block, from its header or from the byte after it. -/
def indexCount (v : Env) (count : Option Nat) (w : ScWork) (m : Port) : Act (Nat × ScWork) :=
  match count with
  | some c => .ok (c, w)
  | none => (readInput v .truncated w.pos m).bind fun c => .ok (c.toNat, { w with pos := w.pos + 1 })

/-- R169: the pad bits cleared and the results written. -/
def sparseDone (v : Env) (w : ScWork) (m : Port) : Act Ending :=
  (setBits v v.regs.dstAddr.toNat w.endian w.length
      (List.replicate (8 * bytesNeeded w.length - w.length) false) m).bind fun m' =>
    .ok { code := .ok, len := some w.length, pos := some w.pos, endian := some w.endian, port := m' }

/-- Where a block leaves the block loop: at its head again, or at the end of the command. -/
inductive BlockNext where
  | loop (w : ScWork) (m : Port)
  | ended (x : Act Ending)
deriving DecidableEq, Repr

/-- A block's action as seen by the loop: an error ends the command with the destination unspecified (R127). -/
def BlockNext.ofAct (v : Env) : Act (ScWork × Port) → BlockNext
  | .ok (w, m) => .loop w m
  | .raise e => .ended (Act.spoilOnError v (.raise e))
  | .fault f m => .ended (.fault f m)

/-- R164: a raw block whose header has been read. -/
def rawBlock (v : Env) (size : Nat) (w : ScWork) (m : Port) : Act (ScWork × Port) :=
  if bytesNeeded w.length < w.offset + size then .streamError .badBlock w.pos m
  else
    (copyRaw v size w.pos w.offset m).bind fun m' =>
      .ok ({ w with pos := w.pos + size, offset := w.offset + size }, m')

/-- R165, R166: a sparse block whose header has been read. -/
def indexBlock (v : Env) (k : Nat) (count : Option Nat) (w : ScWork) (m : Port) : Act (ScWork × Port) :=
  (indexCount v count w m).bind fun cw =>
    (setIndices v k cw.1 cw.2 m).bind fun r => .ok ({ r.1 with offset := w.offset + coverage k }, r.2)

/-- One block of R163, its header read and `w.pos` just after it. -/
def sparseBlock (v : Env) (c : BlockClass) (w : ScWork) (m : Port) : BlockNext :=
  match c with
  | .term => .ended (sparseDone v w m)
  | .raw size => .ofAct v (rawBlock v size w m)
  | .sparse k count => .ofAct v (indexBlock v k count w m)
  | .reserved => .ofAct v (.streamError .badBlock w.pos m)

/-- R163 at full coverage: a terminator right there is consumed, then R169. -/
def sparseCovered (v : Env) (w : ScWork) (m : Port) : Act Ending :=
  if v.regs.srcLen.toNat ≤ w.pos then sparseDone v w m
  else
    (memRead v m (v.regs.srcAddr.toNat + w.pos)).bind fun b =>
      sparseDone v (if b = 0 then { w with pos := w.pos + 1 } else w) m

/-- The declared length is reached: `O >= NB` (R163). -/
def ScWork.covered (w : ScWork) : Bool := decide (bytesNeeded w.length ≤ w.offset)

/-- What the head of R163's loop finds: the next block header, or the end of the command. -/
inductive LoopHead where
  | header (h : Byte)
  | ended (x : Act Ending)
deriving DecidableEq, Repr

/-- The head of R163's loop: at full coverage the command ends; else the next block header is read, and
the end of the input is TRUNCATED. -/
def sparseHead (v : Env) (w : ScWork) (m : Port) : LoopHead :=
  if w.covered then .ended (sparseCovered v w m)
  else
    match readInput v .truncated w.pos m with
    | .ok h => .header h
    | .raise e => .ended (Act.spoilOnError v (.raise e))
    | .fault f m => .ended (.fault f m)

/-- One turn of R163's loop, from its head to its head. -/
def sparseTurn (v : Env) (w : ScWork) (m : Port) : BlockNext :=
  match sparseHead v w m with
  | .header h => sparseBlock v (blockClass h) { w with pos := w.pos + 1 } m
  | .ended x => .ended x

/-- R163's loop. The first argument bounds the input bytes left: each turn that comes back to the head
has taken at least one, so at 0 the head finds no header. -/
def sparseLoop (v : Env) : Nat → ScWork → Port → Act Ending
  | 0, w, m =>
    match sparseHead v w m with
    | .header _ => Act.spoilOnError v (.streamError .truncated w.pos m)
    | .ended x => x
  | n + 1, w, m =>
    match sparseTurn v w m with
    | .loop w' m' => sparseLoop v n w' m'
    | .ended x => x

/-- The rest of an SC_DECODE from the head of the block loop. -/
def sparseFrom (v : Env) (w : ScWork) (m : Port) : Act Ending :=
  sparseLoop v (v.regs.srcLen.toNat - w.pos) w m

/-- R161 and R162: what SC_DECODE does before its block loop. -/
def sparseStart (v : Env) (m : Port) : Act (ScWork × Port) :=
  Act.spoilOnError v
    ((sparseHeader v m).bind fun w => (sparseOpen v w m).bind fun m' => .ok (w, m'))

/-- SC_DECODE: the checks of R123, then R161 to R169. -/
def sparseRun (v : Env) (m : Port) : Act Ending :=
  if !decoderRegionsOk v.params v.regs.streamSource v.regs.destination then .reject .badArg m
  else (sparseStart v m).bind fun r => sparseFrom v r.1 r.2

/-- SC_DECODE (R160). -/
def execScDecode (f : CtrlBits) (s : State) : Host.Outcome State Fault Refusal :=
  runCommand 1 f sparseRun s

/-! ### The block headers as instructions -/

/-- One block header run at a state whose engine is in SC_DECODE's block loop, its cursor just after
the header (R163). -/
def runBlock (c : BlockClass) (s : State) : Host.Outcome State Fault Refusal :=
  match s.phase with
  | .idle => .refused .noBlockLoop
  | .busy b =>
    match b.work with
    | .sc w =>
      match sparseBlock (s.env b) c w s.port with
      | .loop w' m => .next { s with mem := m.mem, phase := .busy { b with work := .sc w' } }
      | .ended x => complete x s
    | .fresh | .vl _ | .huf _ | .pop _ | .rev _ => .refused .noBlockLoop

/-- SC_TERM (R163). -/
def execScTerm (s : State) : Host.Outcome State Fault Refusal := runBlock .term s

/-- SC_RAW, headers 0x01..0x7F (R164). -/
def execScRawLow (h : BitVec 7) (s : State) : Host.Outcome State Fault Refusal :=
  runBlock (.raw (rawSize h.toNat)) s

/-- SC_RAW, headers 0x80..0x9F (R164). -/
def execScRawHigh (h : BitVec 5) (s : State) : Host.Outcome State Fault Refusal :=
  runBlock (.raw (rawSize (0x80 + h.toNat))) s

/-- SC_SPARSE1 (R166). -/
def execScSparse1 (c : BitVec 5) (s : State) : Host.Outcome State Fault Refusal :=
  runBlock (.sparse 1 (some c.toNat)) s

/-- SC_SPARSE2 (R165, R166). -/
def execScSparse2 (s : State) : Host.Outcome State Fault Refusal := runBlock (.sparse 2 none) s

/-- SC_SPARSE3 (R165, R166). -/
def execScSparse3 (s : State) : Host.Outcome State Fault Refusal := runBlock (.sparse 3 none) s

/-- SC_SPARSE4 (R165, R166). -/
def execScSparse4 (s : State) : Host.Outcome State Fault Refusal := runBlock (.sparse 4 none) s

/-- SC_RESERVED, headers 0xC0, 0xC1 (R168): BAD_BLOCK whatever the low bits. -/
def execScReservedC0 (_lo : BitVec 1) (s : State) : Host.Outcome State Fault Refusal := runBlock .reserved s

/-- SC_RESERVED, header 0xC5 (R168). -/
def execScReservedC5 (s : State) : Host.Outcome State Fault Refusal := runBlock .reserved s

/-- SC_RESERVED, headers 0xC6, 0xC7 (R168). -/
def execScReservedC6 (_lo : BitVec 1) (s : State) : Host.Outcome State Fault Refusal := runBlock .reserved s

/-- SC_RESERVED, headers 0xC8..0xCF (R168). -/
def execScReservedC8 (_lo : BitVec 3) (s : State) : Host.Outcome State Fault Refusal := runBlock .reserved s

/-- SC_RESERVED, headers 0xD0..0xDF (R168). -/
def execScReservedD0 (_lo : BitVec 4) (s : State) : Host.Outcome State Fault Refusal := runBlock .reserved s

/-- SC_RESERVED, headers 0xE0..0xFF (R168). -/
def execScReservedE0 (_lo : BitVec 5) (s : State) : Host.Outcome State Fault Refusal := runBlock .reserved s

end Sys2Proof.Machine
end

