-- ==== Sys2Proof/Machine/Varlen.lean ====
section
/-! DEFINITION. VL_DECODE (spec/44_varlen_decode.md R220 to R228, spec/30_encoding.md R89 to R92). -/

namespace Sys2Proof.Machine

/-- The low `n` bits of a byte, the highest first (R91). -/
def dataBits (b : Byte) (n : Nat) : List Bool := (List.range n).map fun k => b.getLsbD (n - 1 - k)

/-- R223's capacity check, made after each byte: `T > 8*DST_CAP + P` or `T - P > 2^32 - 1`. -/
def varlenCapacity (v : Env) (w : VlWork) (m : Port) : Act VlWork :=
  if 8 * v.regs.dstCap.toNat + w.pad < w.bits.length ∨ 2 ^ 32 - 1 < w.bits.length - w.pad then
    .streamError .capacity w.pos m
  else .ok w

/-- R221: the first byte. -/
def varlenFirst (v : Env) (m : Port) : Act VlWork :=
  (readInput v .underflow 0 m).bind fun b =>
    let pad := (b.extractLsb' 4 3).toNat
    if pad = 7 ∨ (b.getLsbD 7 = false ∧ 4 < pad) then .streamError .badHeader 1 m
    else varlenCapacity v { pos := 1, bits := dataBits b 4, pad := pad, more := b.getLsbD 7 } m

/-- One later byte of R222. -/
def varlenNext (v : Env) (w : VlWork) (m : Port) : Act VlWork :=
  (readInput v .underflow w.pos m).bind fun b =>
    varlenCapacity v
      { w with pos := w.pos + 1, bits := w.bits ++ dataBits b 7, more := b.getLsbD 7 } m

/-- R222's loop. The first argument bounds the input bytes left; at 0 a byte still wanted is UNDERFLOW. -/
def varlenLoop (v : Env) : Nat → VlWork → Port → Act VlWork
  | 0, w, m => if w.more then .streamError .underflow w.pos m else .ok w
  | n + 1, w, m => if w.more then (varlenNext v w m).bind fun w' => varlenLoop v n w' m else .ok w

/-- R224: the output bytes, then the data bits but the last P, and the results. -/
def varlenOutput (v : Env) (dend : Bool) (w : VlWork) (m : Port) : Act Ending :=
  let n := w.bits.length - w.pad
  (memWriteBytes v v.regs.dstAddr.toNat (List.replicate (bytesNeeded n) 0) m).bind fun m1 =>
    (setBits v v.regs.dstAddr.toNat dend 0 (w.bits.take n) m1).bind fun m2 =>
      .ok { code := .ok, len := some n, pos := some w.pos, endian := some dend, port := m2 }

/-- The rest of a VL_DECODE from working state `w`. -/
def varlenFrom (v : Env) (dend : Bool) (w : VlWork) (m : Port) : Act Ending :=
  (Act.spoilOnError v (varlenLoop v (v.regs.srcLen.toNat - w.pos) w m)).bind fun w' =>
    varlenOutput v dend w' m

/-- VL_DECODE: the checks of R123, then R221 to R224. -/
def varlenRun (dend : Bool) (v : Env) (m : Port) : Act Ending :=
  if !decoderRegionsOk v.params v.regs.streamSource v.regs.destination then .reject .badArg m
  else (Act.spoilOnError v (varlenFirst v m)).bind fun w => varlenFrom v dend w m

/-- VL_DECODE (R220). -/
def execVlDecode (f : CtrlBits) (s : State) : Host.Outcome State Fault Refusal :=
  runCommand 2 f (varlenRun f.dend) s

end Sys2Proof.Machine
end

