-- ==== Sys2Proof/Machine/Dispatch.lean ====
section
/-! DEFINITION. Which meaning each instruction has. -/

namespace Sys2Proof.Machine

def exec (i : Instr) (s : State) : Host.Outcome State Fault Refusal :=
  match i with
  | .scDecode f => Sys2Proof.Machine.execScDecode f s
  | .vlDecode f => Sys2Proof.Machine.execVlDecode f s
  | .hufDecode f => Sys2Proof.Machine.execHufDecode f s
  | .popcount f => Sys2Proof.Machine.execPopcount f s
  | .bitrev f => Sys2Proof.Machine.execBitrev f s
  | .reservedOp0 f => Sys2Proof.Machine.execReservedOp0 f s
  | .reservedOp67 lo f => Sys2Proof.Machine.execReservedOp67 lo f s
  | .reservedOp8F lo f => Sys2Proof.Machine.execReservedOp8F lo f s
  | .ctrlStore op f => Sys2Proof.Machine.execCtrlStore op f s
  | .scTerm => Sys2Proof.Machine.execScTerm s
  | .scRawLow h => Sys2Proof.Machine.execScRawLow h s
  | .scRawHigh h => Sys2Proof.Machine.execScRawHigh h s
  | .scSparse1 c => Sys2Proof.Machine.execScSparse1 c s
  | .scSparse2 => Sys2Proof.Machine.execScSparse2 s
  | .scSparse3 => Sys2Proof.Machine.execScSparse3 s
  | .scSparse4 => Sys2Proof.Machine.execScSparse4 s
  | .scReservedC0 lo => Sys2Proof.Machine.execScReservedC0 lo s
  | .scReservedC5 => Sys2Proof.Machine.execScReservedC5 s
  | .scReservedC6 lo => Sys2Proof.Machine.execScReservedC6 lo s
  | .scReservedC8 lo => Sys2Proof.Machine.execScReservedC8 lo s
  | .scReservedD0 lo => Sys2Proof.Machine.execScReservedD0 lo s
  | .scReservedE0 lo => Sys2Proof.Machine.execScReservedE0 lo s

end Sys2Proof.Machine
end

