-- ==== Sys2Proof/Machine/Engine.lean ====
section
/-! DEFINITION. The engine's turn: fetching the latched command, or the next block header of a sparse
stream, and running it (spec/40_command_protocol.md R121, spec/42_sparse_decode.md R163). -/

namespace Sys2Proof.Machine

/-- The command word of the latched command (R43, R80). IE is not latched (R120); CTRL keeps it while
BUSY (R21c), and no completion depends on it. -/
def commandWord (b : Busy) (s : State) : Word :=
  commandBits true b.cmd.op
    { ie := s.ctrl.bits.ie, symw := b.cmd.symw, dend := b.cmd.dend, send := b.cmd.send }

/-- A step in the block loop: one block header is fetched at the input cursor and run, or the
command ends at the head of the loop (R163). -/
def blockStep (b : Busy) (w : ScWork) (s : State) : Host.Outcome State Fault Refusal :=
  match sparseHead (s.env b) w s.port with
  | .header h =>
    exec (decodeHeader h) { s with phase := .busy { b with work := .sc { w with pos := w.pos + 1 } } }
  | .ended x => complete x s

/-- The engine's turn. A command just launched is run to its completion (R121). From working state
inside a command the engine goes on: SC_DECODE by one block, the others to their completion. -/
def engineStep (b : Busy) (s : State) : Host.Outcome State Fault Refusal :=
  match b.work with
  | .fresh => exec (decodeWord (commandWord b s)) s
  | .sc w => blockStep b w s
  | .vl w => complete (varlenFrom (s.env b) b.cmd.dend w s.port) s
  | .huf w => complete (huffmanFrom (s.env b) b.cmd.send ((symbolWidth b.cmd.symw).getD 1) w s.port) s
  | .pop w => complete (popcountFrom (s.env b) b.cmd.send w s.port) s
  | .rev w => complete (bitrevFrom (s.env b) w s.port) s

/-- R121's function of the latched command, the tables and MEM, by OP (R81). -/
def latchedRun (c : Latched) : Env → Port → Act Ending :=
  match c.op.toNat with
  | 1 => sparseRun
  | 2 => varlenRun c.dend
  | 3 => huffmanRun c.send c.symw
  | 4 => popcountRun c.send
  | 5 => bitrevRun
  | _ => reservedRun

end Sys2Proof.Machine
end

