-- ==== Sys2Proof/Machine/HostPort.lean ====
section
/-! DEFINITION. The host's side: the REG map (spec/10_state.md R21 to R41), host MEM accesses
(spec/20_memory.md R61), the in-use regions and what a host access to them does (R70), and reset
(spec/70_reset_and_hazards.md R290 to R292). -/

namespace Sys2Proof.Machine

/-! ### The REG map -/

/-- What stands at a REG offset (R21). -/
inductive RegName where
  | id | ctrl | status | srcAddr | srcLen | dstAddr | dstCap | arg0 | arg1 | arg2 | hufNsym
  | resLen | resPos | resInfo | param0 | param1
  | hcount (l : Nat)
  | hsym (j : Nat)
  /-- a reserved or misaligned offset, or one at or above 0x8000 -/
  | reserved
deriving DecidableEq, Repr

/-- The table of R21, by word index. -/
def regAtWord (k : Nat) : RegName :=
  match k with
  | 0 => .id | 1 => .ctrl | 2 => .status | 3 => .srcAddr | 4 => .srcLen | 5 => .dstAddr | 6 => .dstCap
  | 7 => .arg0 | 8 => .arg1 | 9 => .arg2 | 10 => .hufNsym | 11 => .resLen | 12 => .resPos
  | 13 => .resInfo | 14 => .param0 | 15 => .param1
  | _ =>
    if 0x40 ≤ k ∧ k < 0x140 then .hcount (k - 0x40)
    else if 0x400 ≤ k ∧ k < 0x1400 then .hsym (k - 0x400)
    else .reserved

/-- R21(a): a multiple of 4 below 0x8000, or nothing. -/
def regAt (offset : Nat) : RegName :=
  if offset % 4 = 0 ∧ offset < 0x8000 then regAtWord (offset / 4) else .reserved

/-- PARAM0 (R35). -/
def param0Word (p : Params) : Word := 0#3 ++ BitVec.ofNat 13 p.hufMaxsym ++ 0#8 ++ BitVec.ofNat 8 p.hufMaxlen

/-- PARAM1 (R35). -/
def param1Word (p : Params) : Word := BitVec.ofNat 32 (p.memBytes - 1)

/-- A host read of HCOUNT[l] (R40); an unwritten entry is a free value (log entry 7). -/
def hostHcount (s : State) (l : Nat) : Word :=
  if l ≤ s.params.hufMaxlen then
    ((Cells.read s.hcount l).getD (Config.powerUpHcount s.powerCycles l)).zeroExtend 32
  else 0

/-- A host read of HSYM[j] (R41); an unwritten entry is a free value (log entry 7). -/
def hostHsym (s : State) (j : Nat) : Word :=
  if j < s.params.hufMaxsym then (Cells.read s.hsym j).getD (Config.powerUpHsym s.powerCycles j) else 0

/-- A host read of a register: no side effect (R21d). -/
def readReg (s : State) : RegName → Word
  | .id => 0x42410007
  | .ctrl => s.ctrl.toWord
  | .status => s.status.toWord s.phase.isBusy
  | .srcAddr => s.regs.srcAddr
  | .srcLen => s.regs.srcLen
  | .dstAddr => s.regs.dstAddr
  | .dstCap => s.regs.dstCap
  | .arg0 => s.regs.arg0
  | .arg1 => s.regs.arg1
  | .arg2 => s.regs.arg2
  | .hufNsym => s.regs.hufNsym
  | .resLen => s.results.len
  | .resPos => s.results.pos
  | .resInfo => 0#31 ++ BitVec.ofBool s.results.endian
  | .param0 => param0Word s.params
  | .param1 => param1Word s.params
  | .hcount l => hostHcount s l
  | .hsym j => hostHsym s j
  | .reserved => 0

/-- A host write of HCOUNT[l] (R40): bits [15:0]; above HUF_MAXLEN it is ignored. -/
def writeHcount (s : State) (l : Nat) (w : Word) : State :=
  if l ≤ s.params.hufMaxlen then { s with hcount := Cells.write s.hcount l (w.extractLsb' 0 16) } else s

/-- A host write of HSYM[j] (R41); at or above HUF_MAXSYM it is ignored. -/
def writeHsym (s : State) (j : Nat) (w : Word) : State :=
  if j < s.params.hufMaxsym then { s with hsym := Cells.write s.hsym j w } else s

/-- A write that lands only while IDLE; while BUSY it is ignored and sets WIGN (R21c). -/
def whenIdle (s : State) (t : State) : Host.Outcome State Fault Refusal :=
  match s.phase with
  | .idle => .next t
  | .busy _ => .next (ignoredWrite s)

/-- A host write of a register. A CTRL write while IDLE is an instruction: it stores, or launches
(R25, R120). -/
def writeReg (s : State) (w : Word) : RegName → Host.Outcome State Fault Refusal
  | .ctrl =>
    match s.phase with
    | .idle => exec (decodeWord w) s
    | .busy _ => .next (ignoredWrite s)
  | .status => .next { s with status := s.status.writeOneToClear w }
  | .srcAddr => whenIdle s { s with regs := { s.regs with srcAddr := w } }
  | .srcLen => whenIdle s { s with regs := { s.regs with srcLen := w } }
  | .dstAddr => whenIdle s { s with regs := { s.regs with dstAddr := w } }
  | .dstCap => whenIdle s { s with regs := { s.regs with dstCap := w } }
  | .arg0 => whenIdle s { s with regs := { s.regs with arg0 := w } }
  | .arg1 => whenIdle s { s with regs := { s.regs with arg1 := w } }
  | .arg2 => whenIdle s { s with regs := { s.regs with arg2 := w } }
  | .hufNsym => whenIdle s { s with regs := { s.regs with hufNsym := w } }
  | .hcount l => whenIdle s (writeHcount s l w)
  | .hsym j => whenIdle s (writeHsym s j w)
  | .id | .resLen | .resPos | .resInfo | .param0 | .param1 | .reserved => .next s

/-! ### In-use regions -/

/-- The empty region. -/
def Region.empty : Region := { base := 0, size := 0 }

/-- The bytes BITREV reads and writes (R70, R145). -/
def Regs.bitrevRange (r : Regs) : Region :=
  { base := r.srcAddr.toNat + r.arg0.toNat, size := r.arg1.toNat - r.arg0.toNat }

/-- The command does not end at BAD_CMD or BAD_ARG (R123 steps 1 to 5 but for the tables). -/
def passesLaunchChecks (p : Params) (c : Latched) : Bool :=
  match c.op.toNat with
  | 1 | 2 => decoderRegionsOk p c.regs.streamSource c.regs.destination
  | 3 => (symbolWidth c.symw).isSome && decoderRegionsOk p c.regs.viewSource c.regs.destination
  | 4 => c.regs.viewSource.inBounds p && popcountArgsOk c.regs
  | 5 => c.regs.viewSource.inBounds p && bitrevArgsOk c.regs
  | _ => false

/-- The read set of R70. -/
def readSet (p : Params) (c : Latched) : Region :=
  if passesLaunchChecks p c then
    match c.op.toNat with
    | 1 | 2 => c.regs.streamSource
    | 3 | 4 => c.regs.viewSource
    | 5 => c.regs.bitrevRange
    | _ => .empty
  else .empty

/-- The write set of R70. -/
def writeSet (p : Params) (c : Latched) : Region :=
  if passesLaunchChecks p c then
    match c.op.toNat with
    | 1 | 2 | 3 => c.regs.destination
    | 5 => c.regs.bitrevRange
    | _ => .empty
  else .empty

/-! ### Host MEM accesses -/

/-- The byte a host read of MEM shows; an unwritten one is a free value (log entry 7). -/
def shownByte (mem : List Host.Cell) (powerCycles : Nat) (a : Nat) : Byte :=
  (Cells.read mem a).getD (Config.powerUpMem powerCycles a)

/-- MEM, and the bytes the command has written, as its run leaves them: at its end, or where it meets a
model fault. -/
def Act.lastPort (x : Act Ending) : Port :=
  match x with
  | .ok e | .raise e => e.port
  | .fault _ m => m

/-- The values a command writes to byte `a`: those it wrote before a model fault too (R70e). -/
def writtenValues (x : Act Ending) (a : Nat) : List Byte :=
  (x.lastPort.log.filter fun c => decide (c.1 = a)).map fun c => c.2

/-- R70(e): what a host read of write-set byte `a` may return while `b` runs. -/
def busyReadValues (b : Busy) (s : State) (a : Nat) : List Byte :=
  shownByte b.atLaunch s.powerCycles a ::
    writtenValues (latchedRun b.cmd (s.env b) { mem := b.atLaunch, log := [] }) a

/-- Entry `n` of a list, counting round it. -/
def pick (n : Nat) (default : Byte) (xs : List Byte) : Byte := xs.getD (n % xs.length) default

/-- A host read returned `w`. -/
def reply (w : Word) (s : State) : State := { s with replies := w :: s.replies }

/-- A host read of MEM byte `a` (R61, R70e to R70g). -/
def hostMemRead (s : State) (a : Nat) : State :=
  if a < s.params.memBytes then
    match s.phase with
    | .idle => reply ((shownByte s.mem s.powerCycles a).zeroExtend 32) s
    | .busy b =>
      if (writeSet s.params b.cmd).holds a then
        reply ((pick (Config.busyReadChoice s.draws) 0 (busyReadValues b s a)).zeroExtend 32)
          { s with draws := s.draws + 1 }
      else reply ((shownByte s.mem s.powerCycles a).zeroExtend 32) s
  else reply 0 s

/-- A host write of MEM byte `a` (R61, R70d, R70g). -/
def hostMemWrite (s : State) (a : Nat) (x : Byte) : Host.Outcome State Fault Refusal :=
  if a < s.params.memBytes then
    match s.phase with
    | .idle => .next { s with mem := Cells.write s.mem a x }
    | .busy b =>
      if (readSet s.params b.cmd).holds a || (writeSet s.params b.cmd).holds a then .fault (.hostRace a)
      else .next { s with mem := Cells.write s.mem a x }
  else .next s

/-- A reset or a power-on while BUSY is a model fault (R291). -/
def unlessBusy (s : State) (t : State) : Host.Outcome State Fault Refusal :=
  match s.phase with
  | .idle => .next t
  | .busy _ => .fault .resetDuringBusy

/-- One host event at a state, the event already taken from the host's list. -/
def hostStep (op : HostOp) (s : State) : Host.Outcome State Fault Refusal :=
  match op with
  | .regWrite offset w => writeReg s w (regAt offset)
  | .regRead offset => .next (reply (readReg s (regAt offset)) s)
  | .memWrite a x => hostMemWrite s a x
  | .memRead a => .next (hostMemRead s a)
  | .wait => .next s
  | .reset => unlessBusy s (resetRegisters s)
  | .powerOn => unlessBusy s (powerUp s)

/-- The engine takes the next step of a BUSY block: its delay has run out, or no host event can come
before the completion: none is left, or the host waits for BUSY = 0 (R121, R97). -/
def engineNext (b : Busy) (host : List HostOp) : Bool :=
  match host with
  | [] => true
  | .wait :: _ => true
  | _ :: _ => decide (b.delay = 0)

/-- A host event has passed while BUSY. -/
def Phase.countDown : Phase → Phase
  | .idle => .idle
  | .busy b => .busy { b with delay := b.delay - 1 }

/-- The state at which the host's next event happens: the event is taken from the list, and a running
command comes one event nearer its completion. -/
def takeEvent (rest : List HostOp) (s : State) : State := { s with host := rest, phase := s.phase.countDown }

end Sys2Proof.Machine
end

