-- ==== Sys2Proof/Machine/Step.lean ====
section
/-! DEFINITION. One step of the machine: the next event of the block's total order of host events,
launches and completions (spec/60_exceptions.md R265), and the placing of an instruction where the next
step fetches it. -/

namespace Sys2Proof.Machine

/-- One step. An IDLE block whose host is silent stays as it is (R273, R290). -/
def step (s : State) : Host.Outcome State Fault Refusal :=
  match s.phase, s.host with
  | .idle, [] => .next s
  | .idle, op :: rest => hostStep op (takeEvent rest s)
  | .busy b, [] => engineStep b s
  | .busy b, op :: rest =>
    if engineNext b (op :: rest) then engineStep b s else hostStep op (takeEvent rest s)

/-- A command word with START = 1 is fetched from the latch, so its launch is done and the host is
silent; one with START = 0 is the host's next CTRL write. -/
def State.withCommandWord (s : State) (w : Word) : State :=
  if w.getLsbD 31 then launch (w.extractLsb' 0 4) (.ofWord w) { s with host := [] }
  else { s with phase := .idle, host := [.regWrite 4 w] }

/-- A block header is fetched at the input cursor of SC_DECODE's block loop. The stream is the header
`h` and a zero byte at MEM[0..1]; the decoded buffer is 8 bits at MEM[2], zero as R162 leaves it. -/
def State.withBlockHeader (s : State) (h : Byte) : State :=
  let mem := Cells.write (Cells.write (Cells.write s.mem 0 h) 1 0) 2 0
  let regs := { s.regs with srcAddr := 0, srcLen := 2, dstAddr := 2, dstCap := 1 }
  let launched := launch 1 s.ctrl.bits { s with host := [], mem := mem, regs := regs }
  match launched.phase with
  | .idle => launched
  | .busy b =>
    let work := Work.sc { pos := 0, endian := false, lenBytes := 1, length := 8, offset := 0 }
    { launched with phase := .busy { b with work := work } }

/-- The state with an instruction of the opcode table placed where the next step fetches it. -/
def State.withFetchWord (s : State) (nbits w : Nat) : State :=
  match nbits with
  | 32 => s.withCommandWord (BitVec.ofNat 32 w)
  | 8 => s.withBlockHeader (BitVec.ofNat 8 w)
  | _ => s

end Sys2Proof.Machine
end

