-- ==== Sys2Proof/Machine/Script.lean ====
section
/-! DEFINITION. The host script notation of spec/30_encoding.md R97 and R98: each statement as the list
of transactions it stands for, with the REG offsets of spec/10_state.md R21. -/

namespace Sys2Proof.Machine.Script

/-- The offsets of the registers a script names (R21). -/
def ID : Nat := 0x000
def CTRL : Nat := 0x004
def STATUS : Nat := 0x008
def SRC_ADDR : Nat := 0x00C
def SRC_LEN : Nat := 0x010
def DST_ADDR : Nat := 0x014
def DST_CAP : Nat := 0x018
def ARG0 : Nat := 0x01C
def ARG1 : Nat := 0x020
def ARG2 : Nat := 0x024
def HUF_NSYM : Nat := 0x028
def RES_LEN : Nat := 0x02C
def RES_POS : Nat := 0x030
def RES_INFO : Nat := 0x034
def PARAM0 : Nat := 0x038
def PARAM1 : Nat := 0x03C

/-- `W <REG>, <v>` (R97). -/
def w (offset : Nat) (v : Word) : List HostOp := [.regWrite offset v]

/-- `R <REG>` (R97). -/
def r (offset : Nat) : List HostOp := [.regRead offset]

/-- `MW <addr>, <b0> <b1> ..` (R97). -/
def mw : Nat → List Byte → List HostOp
  | _, [] => []
  | a, b :: bs => .memWrite a b :: mw (a + 1) bs

/-- `MR <addr>, <n>` (R97). -/
def mr : Nat → Nat → List HostOp
  | _, 0 => []
  | a, n + 1 => .memRead a :: mr (a + 1) n

/-- `WAIT` (R97). -/
def wait : List HostOp := [.wait]

/-- `W1C` (R97). -/
def w1c : List HostOp := w STATUS 0x6

/-- A host MEM write of `k` bytes: byte accesses, lowest address least significant (spec/20_memory.md R61). -/
def wideWrite (a k : Nat) (v : Nat) : List HostOp :=
  mw a ((List.range k).map fun j => BitVec.ofNat 8 (v / 256 ^ j))

/-- A host MEM read of `k` bytes: byte accesses at `a`, `a + 1`, .. (spec/20_memory.md R61). -/
def wideRead (a k : Nat) : List HostOp := mr a k

/-- The value a wide read of `k` bytes returned, from the replies it left, newest first: the byte at the
lowest address, the oldest reply, is the least significant (R61). -/
def wideValue (k : Nat) (replies : List Word) : Nat := (replies.take k).foldl (fun n x => 256 * n + x.toNat) 0

/-- The word a `CMD` statement writes (R98). -/
def cmdWord (op : BitVec 4) (send dend : Bool) (symw : BitVec 2) (ie : Bool) : Word :=
  0x80000000#32 ||| (BitVec.ofBool ie).zeroExtend 32 <<< 8 ||| symw.zeroExtend 32 <<< 6 |||
    (BitVec.ofBool dend).zeroExtend 32 <<< 5 ||| (BitVec.ofBool send).zeroExtend 32 <<< 4 ||| op.zeroExtend 32

/-- `CMD <mnemonic> [SEND=s] [DEND=d] [SYMW=y] [IE=i]` (R98). -/
def cmd (op : BitVec 4) (send dend : Bool) (symw : BitVec 2) (ie : Bool) : List HostOp :=
  w CTRL (cmdWord op send dend symw ie) ++ wait

/-- `COUNT <l>, <v>` (R98). -/
def count (l : Nat) (v : Word) : List HostOp := w (0x100 + 4 * l) v

/-- `SYM <j>, <v>` (R98). -/
def sym (j : Nat) (v : Word) : List HostOp := w (0x1000 + 4 * j) v

/-- `OPERANDS sa, sl, da, dc` (R98). -/
def operands (sa sl da dc : Word) : List HostOp :=
  w SRC_ADDR sa ++ w SRC_LEN sl ++ w DST_ADDR da ++ w DST_CAP dc

/-- `ARGS a0, a1, a2` (R98). -/
def args (a0 a1 a2 : Word) : List HostOp := w ARG0 a0 ++ w ARG1 a1 ++ w ARG2 a2

end Sys2Proof.Machine.Script
end

