-- ==== Sys2Proof/Safety.lean ====
section
/-! DEFINITION. What claims about runs are stated with: the invariant of the block's state, the end of a
run and what is observed there (spec/70_reset_and_hazards.md R301), and a run without a model fault. -/

namespace Sys2Proof.Machine

/-- While BUSY the latched values equal the registers (R43), and a launch has left DONE and ERR clear
(R120). -/
def latchAgrees (s : State) : Prop :=
  match s.phase with
  | .idle => True
  | .busy b =>
    b.cmd.op = s.ctrl.op ∧ b.cmd.send = s.ctrl.bits.send ∧ b.cmd.dend = s.ctrl.bits.dend ∧
      b.cmd.symw = s.ctrl.bits.symw ∧ b.cmd.regs = s.regs ∧ s.status.done = false ∧ s.status.err = .ok

/-- Working state inside a command (R44) belongs to a command that passed its launch checks (R123), its
cursor is inside the input, and what it will write fits the destination (R162, R223). -/
def workAgrees (s : State) : Prop :=
  match s.phase with
  | .idle => True
  | .busy b =>
    match b.work with
    | .fresh => True
    | .sc w =>
      b.cmd.op = 1 ∧ passesLaunchChecks s.params b.cmd = true ∧ w.pos ≤ b.cmd.regs.srcLen.toNat ∧
        w.length ≤ 2 ^ 32 - 1 ∧ bytesNeeded w.length ≤ b.cmd.regs.dstCap.toNat
    | .vl w =>
      b.cmd.op = 2 ∧ passesLaunchChecks s.params b.cmd = true ∧ w.pos ≤ b.cmd.regs.srcLen.toNat ∧
        w.bits.length - w.pad ≤ 2 ^ 32 - 1 ∧ w.bits.length ≤ 8 * b.cmd.regs.dstCap.toNat + w.pad
    | .huf w =>
      b.cmd.op = 3 ∧ passesLaunchChecks s.params b.cmd = true ∧ w.pos ≤ b.cmd.regs.srcLen.toNat ∧
        w.start ≤ b.cmd.regs.srcLen.toNat
    | .pop _ => b.cmd.op = 4 ∧ passesLaunchChecks s.params b.cmd = true
    | .rev w =>
      b.cmd.op = 5 ∧ passesLaunchChecks s.params b.cmd = true ∧ b.cmd.regs.arg0.toNat ≤ w.next

/-- MEM and the tables are in canonical form and hold nothing that does not exist (R40 to R42). -/
def memoriesWf (s : State) : Prop :=
  Memory.wf s.mem = true ∧ Cells.below s.params.memBytes s.mem = true ∧
    Cells.risingFrom 0 s.hcount = true ∧ Cells.below (s.params.hufMaxlen + 1) s.hcount = true ∧
    Cells.risingFrom 0 s.hsym = true ∧ Cells.below s.params.hufMaxsym s.hsym = true

/-- The invariant of the machine. -/
structure State.Inv (s : State) : Prop where
  memories : memoriesWf s
  latch : latchAgrees s
  work : workAgrees s

/-- The end of a run (R301): the host's last statement has been performed and the engine is IDLE. -/
def State.ended (s : State) : Bool := s.host.isEmpty && !s.phase.isBusy

/-- The registers of the REG map but for the table windows, ID at 0x000 to PARAM1 at 0x03C, as the host
reads them (R21). -/
def State.registers (s : State) : List Word := (List.range 16).map fun k => readReg s (regAt (4 * k))

/-- What is observed at the end of a run (R301): MEM, the REG registers, HCOUNT and HSYM. -/
structure Observation where
  mem : List Host.Cell
  /-- ID, CTRL, STATUS, SRC_ADDR to HUF_NSYM, RES_LEN, RES_POS, RES_INFO, PARAM0, PARAM1 -/
  registers : List Word
  hcount : List (Nat × BitVec 16)
  hsym : List (Nat × Word)
deriving DecidableEq, Repr

def State.observe (s : State) : Observation :=
  { mem := s.mem, registers := s.registers, hcount := s.hcount, hsym := s.hsym }

/-- The instruction the engine fetches for the latched command (R43, R80); IE is CTRL's own. -/
def latchedInstr (b : Busy) (s : State) : Instr :=
  decodeWord (commandBits true b.cmd.op
    { ie := s.ctrl.bits.ie, symw := b.cmd.symw, dend := b.cmd.dend, send := b.cmd.send })

/-- Logical bit `i` of the view at `base`, R12's mapping written out (spec/00_scope.md): byte `i div 8`, bit
`7 - i mod 8` of it in the big view, `i mod 8` in the little; none where the byte is unwritten. -/
def viewBit (mem : List Host.Cell) (base : Nat) (big : Bool) (i : Nat) : Option Bool :=
  (Cells.read mem (base + i / 8)).map fun x => x.getLsbD (if big then 7 - i % 8 else i % 8)

/-- No step of the run from `s` ends in a model fault (R274). -/
def State.runsSafely (s : State) : Prop := ∀ n f, core.run n s ≠ .fault f

/-- The state a completion leaves, written out from spec/40_command_protocol.md R121: MEM and the result
registers as given, ERR set, DONE set, BUSY clear; nothing else changes. -/
def completion (code : ErrCode) (r : Results) (mem : List Host.Cell) (s : State) : State :=
  { s with mem := mem, results := r, status := { done := true, wign := s.status.wign, err := code }, phase := .idle }

/-- MEM holds the bytes `bs` from address `base` on. -/
abbrev holdsBytes (mem : List Host.Cell) (base : Nat) (bs : List Byte) : Prop :=
  ∀ k, k < bs.length → Cells.read mem (base + k) = bs[k]?

/-- Every byte of `[base, base + size)` has been written. -/
abbrev writtenRange (mem : List Host.Cell) (base size : Nat) : Prop :=
  ∀ k, k < size → (Cells.read mem (base + k)).isSome = true

/-- Every byte outside `[base, base + size)` reads as before. -/
def unchangedOutside (mem mem' : List Host.Cell) (base size : Nat) : Prop :=
  ∀ a, ¬ (base ≤ a ∧ a < base + size) → Cells.read mem' a = Cells.read mem a

/-- `LE(b0, .., b(k-1))` (spec/00_scope.md R13). -/
def leValue : List Byte → Nat
  | [] => 0
  | b :: bs => b.toNat + 256 * leValue bs

/-- The engine is in SC_DECODE's block loop of a command that passed its launch checks, with working state
`w` and the decoded buffer inside the destination region (R123, R162). -/
def inBlockLoop (s : State) (b : Busy) (w : ScWork) : Prop :=
  s.phase = .busy b ∧ b.work = .sc w ∧
    decoderRegionsOk s.params b.cmd.regs.streamSource b.cmd.regs.destination = true ∧
    bytesNeeded w.length ≤ b.cmd.regs.dstCap.toNat

/-- A raw block header and the size it asks for (R84, R85). -/
def rawForm (i : Instr) (size : Nat) : Prop :=
  (∃ h : BitVec 7, i = .scRawLow h ∧ 1 ≤ h.toNat ∧ h.toNat ≤ 32 ∧ size = h.toNat) ∨
    (∃ h : BitVec 7, i = .scRawLow h ∧ 33 ≤ h.toNat ∧ size = 32 * (h.toNat - 31)) ∨
      ∃ h : BitVec 5, i = .scRawHigh h ∧ size = 32 * (128 + h.toNat - 31)

/-- A sparse block header with the bytes of its count, its index width `k` and its count `c` (R84, R165). -/
def sparseForm (i : Instr) (count : List Byte) (k c : Nat) : Prop :=
  (∃ n : BitVec 5, i = .scSparse1 n ∧ count = [] ∧ k = 1 ∧ c = n.toNat) ∨
    (i = .scSparse2 ∧ k = 2 ∧ ∃ x : Byte, count = [x] ∧ c = x.toNat) ∨
      (i = .scSparse3 ∧ k = 3 ∧ ∃ x : Byte, count = [x] ∧ c = x.toNat) ∨
        (i = .scSparse4 ∧ k = 4 ∧ ∃ x : Byte, count = [x] ∧ c = x.toNat)

/-- A reserved block header (R168). -/
def reservedForm (i : Instr) : Prop :=
  (∃ x, i = .scReservedC0 x) ∨ i = .scReservedC5 ∨ (∃ x, i = .scReservedC6 x) ∨ (∃ x, i = .scReservedC8 x) ∨
    (∃ x, i = .scReservedD0 x) ∨ ∃ x, i = .scReservedE0 x

/-- The data bits of the first and of a later byte of a variable-length sequence (R89, R90, R91). -/
def varlenFirstData (x : Byte) : List Bool := [x.getLsbD 3, x.getLsbD 2, x.getLsbD 1, x.getLsbD 0]

def varlenLaterData (x : Byte) : List Bool :=
  [x.getLsbD 6, x.getLsbD 5, x.getLsbD 4, x.getLsbD 3, x.getLsbD 2, x.getLsbD 1, x.getLsbD 0]

/-- All the data bits of a sequence: a first byte and its later bytes (R91). -/
def varlenData (first : Byte) (later : List Byte) : List Bool := varlenFirstData first ++ later.flatMap varlenLaterData

/-- The pad count of a first byte (R89). -/
def varlenPad (first : Byte) : Nat := (first.extractLsb' 4 3).toNat

/-- Every byte but the last has its continuation bit set, and the last has it clear (R89, R90). -/
def continuationBits (bs : List Byte) : Prop :=
  ∀ k, k < bs.length → (bs.getD k 0).getLsbD 7 = decide (k + 1 < bs.length)

/-- HCOUNT is written and holds `c0` at 0 and `counts` from 1 on (R93). -/
def countsHeld (s : State) (c0 : Nat) (counts : List Nat) : Prop :=
  counts.length = s.params.hufMaxlen ∧ (Cells.read s.hcount 0).map (fun x => x.toNat) = some c0 ∧
    ∀ l, l < counts.length → (Cells.read s.hcount (l + 1)).map (fun x => x.toNat) = counts[l]?

/-- The sum of `HCOUNT[l] * 2^(-l)`, scaled by `2^HUF_MAXLEN` (R193). -/
def codeSpace (counts : List Nat) : Nat :=
  ((List.range counts.length).map fun l => counts.getD l 0 * 2 ^ (counts.length - (l + 1))).sum

/-- R193: the counts, HUF_NSYM and HUF_MAXSYM make good tables. -/
def tablesGood (maxsym nsym c0 : Nat) (counts : List Nat) : Prop :=
  nsym ≠ 0 ∧ nsym ≤ maxsym ∧ c0 = 0 ∧ counts.sum = nsym ∧ codeSpace counts ≤ 2 ^ counts.length

/-- The first canonical code of length `l + 1` (R94). -/
def firstCode (counts : List Nat) : Nat → Nat
  | 0 => 0
  | l + 1 => 2 * (firstCode counts l + counts.getD l 0)

/-- A code of length `l + 1`, by its place `r` among the codes of that length. -/
structure CodeAt where
  l : Nat
  r : Nat
deriving DecidableEq, Repr

/-- The code exists under these counts. -/
def CodeAt.among (counts : List Nat) (x : CodeAt) : Prop := x.l < counts.length ∧ x.r < counts.getD x.l 0

/-- The binary digits of a code, most significant first (R94). -/
def CodeAt.digits (counts : List Nat) (x : CodeAt) : List Bool :=
  (List.range (x.l + 1)).map fun k => (firstCode counts x.l + x.r).testBit (x.l - k)

/-- The canonical position of a code's symbol (R94). -/
def CodeAt.position (counts : List Nat) (x : CodeAt) : Nat := (counts.take x.l).sum + x.r

/-- The number binary digits spell, most significant first. -/
def digitsValue (ds : List Bool) : Nat := ds.foldl (fun n d => 2 * n + d.toNat) 0

/-- No code of length at most `q` begins the bits `ds` (R194). -/
def noCodeBegins (counts : List Nat) (ds : List Bool) (q : Nat) : Prop :=
  ∀ l, l < q → firstCode counts l + counts.getD l 0 ≤ digitsValue (ds.take (l + 1))

/-- HSYM holds `syms` at the positions of `codes`. -/
def symbolsHeld (s : State) (counts : List Nat) (codes : List CodeAt) (syms : List Word) : Prop :=
  syms.length = codes.length ∧
    ∀ (k : Nat) (x : CodeAt), codes[k]? = some x → Cells.read s.hsym (x.position counts) = syms[k]?

/-- The output bytes of symbols of `w` bytes each, little-endian (R95). -/
def symbolsWritten (mem : List Host.Cell) (dst w : Nat) (syms : List Word) : Prop :=
  ∀ k j, k < syms.length → j < w → Cells.read mem (dst + w * k + j) = some ((syms.getD k 0).extractLsb' (8 * j) 8)

/-- MEM holds the logical bits `bits` from index `i` of the view at `base` on. -/
def holdsBits (mem : List Host.Cell) (base : Nat) (big : Bool) (i : Nat) (bits : List Bool) : Prop :=
  ∀ k, k < bits.length → viewBit mem base big (i + k) = bits[k]?

/-- Every MEM byte and every table entry has been written since power-on (R295). -/
def State.allWritten (s : State) : Prop :=
  (∀ a < s.params.memBytes, (Cells.read s.mem a).isSome = true) ∧
    (∀ l ≤ s.params.hufMaxlen, (Cells.read s.hcount l).isSome = true) ∧
    ∀ j < s.params.hufMaxsym, (Cells.read s.hsym j).isSome = true

end Sys2Proof.Machine
end

