-- ==== Sys2Proof/Certificates/Slice0/Obligations.lean ====
section
/-! DEFINITION. The statements for the provers. Each docstring names the rules it formalises; where a clause
is the model's own choice, it names the entry of the assumption log. -/

open Sys2Proof Sys2Proof.Machine

/-! ### Encoding and the step -/

/-- R80, R81, R84: words and header bytes written out from the tables. -/
def Obligations.SampleDecodes : Prop :=
  decodeWord 0x80000001 = .scDecode { ie := false, symw := 0, dend := false, send := false } ∧
  decodeWord 0x80000022 = .vlDecode { ie := false, symw := 0, dend := true, send := false } ∧
  decodeWord 0x80000153 = .hufDecode { ie := true, symw := 1, dend := false, send := true } ∧
  decodeWord 0x80000014 = .popcount { ie := false, symw := 0, dend := false, send := true } ∧
  decodeWord 0x80000105 = .bitrev { ie := true, symw := 0, dend := false, send := false } ∧
  decodeWord 0x80000000 = .reservedOp0 { ie := false, symw := 0, dend := false, send := false } ∧
  decodeWord 0x80000007 = .reservedOp67 1 { ie := false, symw := 0, dend := false, send := false } ∧
  decodeWord 0x8000000F = .reservedOp8F 7 { ie := false, symw := 0, dend := false, send := false } ∧
  decodeWord 0x00000105 = .ctrlStore 5 { ie := true, symw := 0, dend := false, send := false } ∧
  decodeHeader 0x00 = .scTerm ∧ decodeHeader 0x01 = .scRawLow 1 ∧ decodeHeader 0x9F = .scRawHigh 31 ∧
  decodeHeader 0xA3 = .scSparse1 3 ∧ decodeHeader 0xC2 = .scSparse2 ∧ decodeHeader 0xC3 = .scSparse3 ∧
  decodeHeader 0xC4 = .scSparse4 ∧ decodeHeader 0xC1 = .scReservedC0 1 ∧ decodeHeader 0xFF = .scReservedE0 31

/-- R80, R81, R84: decoding the bytes of an encoded well-formed instruction gives it back, with the bytes
after it left over, every operand at every value. -/
def Obligations.DecodeEncode : Prop :=
  ∀ (i : Instr) (rest : List Byte), i.wellFormed = true →
    (encode i).bytes.1 = i.format ∧ decode i.format ((encode i).bytes.2 ++ rest) = .ok (i, rest)

/-- R26, R80, R82: bits [30:9] of a command word change nothing and no other bit is dropped; every header
byte is the encoding of the instruction it decodes to. -/
def Obligations.EncodeDecode : Prop :=
  (∀ w : Word, (decodeWord w).wellFormed = true ∧ encode (decodeWord w) = .word (w &&& 0x800001FF) ∧
    decodeWord w = decodeWord (w &&& 0x800001FF)) ∧
  ∀ h : Byte, (decodeHeader h).wellFormed = true ∧ encode (decodeHeader h) = .header h

/-- R84, R85, R88: the block header classes by their byte ranges, with the counts of R84. The sizes of the raw classes are those
rawForm gives the form; what a header of a form does with its size is RawBlock's statement. -/
def Obligations.HeaderClasses : Prop :=
  ∀ h : Byte,
    (h.toNat = 0 → decodeHeader h = .scTerm) ∧
    (1 ≤ h.toNat → h.toNat ≤ 32 → rawForm (decodeHeader h) h.toNat) ∧
    (33 ≤ h.toNat → h.toNat ≤ 0x9F → rawForm (decodeHeader h) (32 * (h.toNat - 31))) ∧
    (0xA0 ≤ h.toNat → h.toNat ≤ 0xBF → sparseForm (decodeHeader h) [] 1 (h.toNat - 0xA0)) ∧
    (0xC2 ≤ h.toNat → h.toNat ≤ 0xC4 → ∀ x : Byte, sparseForm (decodeHeader h) [x] (h.toNat - 0xC0) x.toNat) ∧
    (h.toNat = 0xC0 ∨ h.toNat = 0xC1 ∨ 0xC5 ≤ h.toNat → reservedForm (decodeHeader h))

/-- A step runs the fetched instruction: the host's CTRL write while IDLE (R25, R120), the latched command
while BUSY (R43, R121), and inside SC_DECODE's block loop the header byte at the cursor (R163), the cursor
then standing after it. Any other step is the host's next event: while IDLE always, and while BUSY when it is not yet the
engine's turn; a WAIT passes while IDLE, and an IDLE block whose host is silent stays as it is. That the engine's turn comes
when the host's list is empty, waits, or the launch's free delay has run out is the model's (log entries 2 and 4);
block-by-block stepping is the model's view of one atomic completion (log entry 9). -/
def Obligations.StepRunsInstruction : Prop :=
  (∀ (s : State) (w : Word) (rest : List HostOp), s.phase = .idle → s.host = .regWrite 4 w :: rest →
    step s = exec (decodeWord w) { s with host := rest }) ∧
  (∀ (s : State) (b : Busy), s.phase = .busy b → b.work = .fresh → engineNext b s.host = true →
    step s = exec (latchedInstr b s) s) ∧
  (∀ (s : State) (b : Busy) (w : ScWork) (h : Byte), s.phase = .busy b → b.work = .sc w →
    engineNext b s.host = true → w.offset < bytesNeeded w.length → w.pos < b.cmd.regs.srcLen.toNat →
    b.cmd.regs.srcAddr.toNat + w.pos < s.params.memBytes →
    Cells.read s.mem (b.cmd.regs.srcAddr.toNat + w.pos) = some h →
    step s = exec (decodeHeader h) { s with phase := .busy { b with work := .sc { w with pos := w.pos + 1 } } }) ∧
  (∀ (s : State) (op : HostOp) (rest : List HostOp), s.host = op :: rest →
    (s.phase = .idle → step s = hostStep op { s with host := rest }) ∧
    (s.phase = .idle → op = .wait → step s = .next { s with host := rest }) ∧
    ∀ b, s.phase = .busy b →
      (engineNext b s.host = false ↔ op ≠ .wait ∧ b.delay ≠ 0) ∧
      (engineNext b s.host = false →
        step s = hostStep op { s with host := rest, phase := .busy { b with delay := b.delay - 1 } })) ∧
  ∀ s : State, s.host = [] → (s.phase = .idle → step s = .next s) ∧ ∀ b, s.phase = .busy b → engineNext b s.host = true

/-! ### Launch, completion and the registers -/

/-- R120: a command word with START = 1 while IDLE launches, whatever its OP: the fields are stored, DONE and
ERR cleared, WIGN kept, the registers latched; nothing else changes and irq is 0. The draw counter and the copy of MEM kept for
the draws of R70(e) are the model's (log entries 3 and 8). -/
def Obligations.Launch : Prop :=
  ∀ (s : State) (w : Word), s.phase = .idle → w.getLsbD 31 = true →
    ∃ b : Busy, exec (decodeWord w) s =
        .next { s with
          ctrl := { op := w.extractLsb' 0 4, bits := .ofWord w }
          status := { done := false, wign := s.status.wign, err := .ok }
          phase := .busy b
          draws := s.draws + 1 } ∧
      b.cmd = { op := w.extractLsb' 0 4, send := w.getLsbD 4, dend := w.getLsbD 5,
                symw := w.extractLsb' 6 2, regs := s.regs } ∧
      b.work = .fresh ∧ b.atLaunch = s.mem ∧
      ∀ t, exec (decodeWord w) s = .next t → t.irq = false ∧ (readReg t .status).getLsbD 0 = true

/-- R25, R82: a CTRL write with START = 0 stores the fields while IDLE and launches nothing, whatever OP holds;
START and the reserved bits read back as 0, and irq follows the IE just stored (R39, R264). While BUSY it is ignored and sets
WIGN (R21c). -/
def Obligations.CtrlStore : Prop :=
  ∀ (s : State) (op : BitVec 4) (f : CtrlBits),
    (s.phase = .idle → exec (.ctrlStore op f) s = .next { s with ctrl := { op := op, bits := f } }) ∧
    (∀ b, s.phase = .busy b → exec (.ctrlStore op f) s = .next { s with status := { s.status with wign := true } }) ∧
    (∀ t, s.phase = .idle → exec (.ctrlStore op f) s = .next t →
      (t.irq = true ↔ s.status.done = true ∧ f.ie = true)) ∧
    ∀ w : Word, s.phase = .idle → w.getLsbD 31 = false →
      ∃ t, exec (decodeWord w) s = .next t ∧ t.phase = .idle ∧ readReg t .ctrl = w &&& 0x000001FF

/-- R121, R39, R264: a completion of any command, with an error or without, sets DONE, clears BUSY, keeps WIGN,
and raises irq exactly when IE is set; no other flag changes. -/
def Obligations.CompletionFlags : Prop :=
  ∀ (i : Instr) (s t : State) (b : Busy), i.format = .commandWord → (∀ op f, i ≠ .ctrlStore op f) →
    s.phase = .busy b → exec i s = .next t →
      t.phase = .idle ∧ t.status.done = true ∧ t.status.wign = s.status.wign ∧ t.irq = s.ctrl.bits.ie ∧
      t.ctrl = s.ctrl

/-- R21(a) to (c): while BUSY a host write to CTRL, an operand register or a table window is ignored and sets WIGN. In any phase a write
to a read-only register, a reserved or misaligned offset, or one at or above 0x8000 has no effect, and reserved and misaligned
offsets read 0. -/
def Obligations.IgnoredWrites : Prop :=
  (∀ (s : State) (b : Busy) (offset : Nat) (w : Word), s.phase = .busy b → offset % 4 = 0 →
    (offset = 0x004 ∨ (0x00C ≤ offset ∧ offset ≤ 0x028) ∨ (0x100 ≤ offset ∧ offset ≤ 0x4FC) ∨
      (0x1000 ≤ offset ∧ offset ≤ 0x4FFC)) →
    hostStep (.regWrite offset w) s = .next { s with status := { s.status with wign := true } }) ∧
  ∀ (s : State) (offset : Nat) (w : Word),
    (offset = 0x000 ∨ (0x02C ≤ offset ∧ offset ≤ 0x03C) ∨ (0x040 ≤ offset ∧ offset < 0x100) ∨
        (0x500 ≤ offset ∧ offset < 0x1000) ∨ 0x5000 ≤ offset ∨ offset % 4 ≠ 0 →
      hostStep (.regWrite offset w) s = .next s) ∧
    ((0x040 ≤ offset ∧ offset < 0x100) ∨ (0x500 ≤ offset ∧ offset < 0x1000) ∨ 0x5000 ≤ offset ∨ offset % 4 ≠ 0 →
      readReg s (regAt offset) = 0)

/-- R27, R28, R260: STATUS reads as its fields, ERR by its number, the reserved bits 0; a host write is W1C of DONE and WIGN in any
phase and changes nothing else; clearing DONE so clears irq (R39, R264). -/
def Obligations.StatusRegister : Prop :=
  (∀ s : State,
    (readReg s (regAt 0x008)).getLsbD 0 = s.phase.isBusy ∧ (readReg s (regAt 0x008)).getLsbD 1 = s.status.done ∧
    (readReg s (regAt 0x008)).getLsbD 2 = s.status.wign ∧ (readReg s (regAt 0x008)).getLsbD 3 = false ∧
    (s.status.err, (readReg s (regAt 0x008)).extractLsb' 4 4) ∈
      [(ErrCode.ok, 0#4), (.truncated, 1#4), (.underflow, 2#4), (.badHeader, 3#4), (.badBlock, 4#4), (.badTable, 5#4),
        (.badCode, 6#4), (.badArg, 7#4), (.capacity, 8#4), (.badCmd, 9#4)] ∧
    (readReg s (regAt 0x008)).extractLsb' 8 24 = 0) ∧
  ∀ (s : State) (w : Word), hostStep (.regWrite 0x008 w) s =
      .next { s with status := { done := s.status.done && !w.getLsbD 1, wign := s.status.wign && !w.getLsbD 2,
                                 err := s.status.err } } ∧
    ∀ t, hostStep (.regWrite 0x008 w) s = .next t → (t.irq = true ↔ s.irq = true ∧ w.getLsbD 1 = false)

/-- R22, R35: ID reads 0x42410007 in every state; PARAM0 and PARAM1 give the parameters, for every legal choice of them, the reserved
bits 0; a write to any of the three changes nothing. -/
def Obligations.IdentityRegisters : Prop :=
  (∀ (s : State) (w : Word), readReg s (regAt 0x000) = 0x42410007 ∧ hostStep (.regWrite 0x000 w) s = .next s) ∧
  ∀ (s : State) (w : Word), s.params.legal = true →
    ((readReg s (regAt 0x038)).extractLsb' 0 8).toNat = s.params.hufMaxlen ∧
    (readReg s (regAt 0x038)).extractLsb' 8 8 = 0 ∧
    ((readReg s (regAt 0x038)).extractLsb' 16 13).toNat = s.params.hufMaxsym ∧
    (readReg s (regAt 0x038)).extractLsb' 29 3 = 0 ∧
    (readReg s (regAt 0x03C)).toNat = s.params.memBytes - 1 ∧
    hostStep (.regWrite 0x038 w) s = .next s ∧ hostStep (.regWrite 0x03C w) s = .next s

/-- R21, R23, R29 to R34, R36 to R38, R297: while IDLE a write of an operand register's offset changes that register and nothing else,
and reads back at once, every other offset reading as before; every offset from CTRL's to RES_INFO's reads its own
register, the reserved bits 0. -/
def Obligations.OperandReadBack : Prop :=
  (∀ (s : State) (w : Word), s.phase = .idle →
    hostStep (.regWrite 0x00C w) s = .next { s with regs := { s.regs with srcAddr := w } } ∧
    hostStep (.regWrite 0x010 w) s = .next { s with regs := { s.regs with srcLen := w } } ∧
    hostStep (.regWrite 0x014 w) s = .next { s with regs := { s.regs with dstAddr := w } } ∧
    hostStep (.regWrite 0x018 w) s = .next { s with regs := { s.regs with dstCap := w } } ∧
    hostStep (.regWrite 0x01C w) s = .next { s with regs := { s.regs with arg0 := w } } ∧
    hostStep (.regWrite 0x020 w) s = .next { s with regs := { s.regs with arg1 := w } } ∧
    hostStep (.regWrite 0x024 w) s = .next { s with regs := { s.regs with arg2 := w } } ∧
    hostStep (.regWrite 0x028 w) s = .next { s with regs := { s.regs with hufNsym := w } }) ∧
  (∀ s : State,
    readReg s (regAt 0x00C) = s.regs.srcAddr ∧ readReg s (regAt 0x010) = s.regs.srcLen ∧
    readReg s (regAt 0x014) = s.regs.dstAddr ∧ readReg s (regAt 0x018) = s.regs.dstCap ∧
    readReg s (regAt 0x01C) = s.regs.arg0 ∧ readReg s (regAt 0x020) = s.regs.arg1 ∧
    readReg s (regAt 0x024) = s.regs.arg2 ∧ readReg s (regAt 0x028) = s.regs.hufNsym ∧
    readReg s (regAt 0x02C) = s.results.len ∧ readReg s (regAt 0x030) = s.results.pos ∧
    (readReg s (regAt 0x034)).getLsbD 0 = s.results.endian ∧ (readReg s (regAt 0x034)).extractLsb' 1 31 = 0 ∧
    (readReg s (regAt 0x004)).extractLsb' 0 4 = s.ctrl.op ∧ (readReg s (regAt 0x004)).getLsbD 4 = s.ctrl.bits.send ∧
    (readReg s (regAt 0x004)).getLsbD 5 = s.ctrl.bits.dend ∧ (readReg s (regAt 0x004)).extractLsb' 6 2 = s.ctrl.bits.symw ∧
    (readReg s (regAt 0x004)).getLsbD 8 = s.ctrl.bits.ie ∧ (readReg s (regAt 0x004)).extractLsb' 9 23 = 0) ∧
  ∀ (s : State) (offset : Nat) (w : Word), s.phase = .idle → offset % 4 = 0 → 0x00C ≤ offset → offset ≤ 0x028 →
    ∃ t, hostStep (.regWrite offset w) s = .next t ∧ readReg t (regAt offset) = w ∧
      (∀ o, o ≠ offset → readReg t (regAt o) = readReg s (regAt o)) ∧ t = { s with regs := t.regs }

/-- R40: the HCOUNT window: an entry written while IDLE holds and reads back its low 16 bits, zero-extended;
offsets above HUF_MAXLEN read 0 and ignore writes; no instruction changes the table. -/
def Obligations.CountTable : Prop :=
  (∀ (s : State) (l : Nat) (w : Word), s.phase = .idle → l ≤ s.params.hufMaxlen → l ≤ 255 →
    ∃ t, hostStep (.regWrite (0x100 + 4 * l) w) s = .next t ∧
      (∀ k, Cells.read t.hcount k = if k = l then some (w.extractLsb' 0 16) else Cells.read s.hcount k) ∧
      readReg t (regAt (0x100 + 4 * l)) = (w.extractLsb' 0 16).zeroExtend 32 ∧ t = { s with hcount := t.hcount }) ∧
  (∀ (s : State) (l : Nat) (w : Word), s.params.hufMaxlen < l → l ≤ 255 → readReg s (regAt (0x100 + 4 * l)) = 0 ∧
    (s.phase = .idle → hostStep (.regWrite (0x100 + 4 * l) w) s = .next s)) ∧
  ∀ (i : Instr) (s t : State), exec i s = .next t → t.hcount = s.hcount

/-- R41: the HSYM window, likewise with whole words; offsets at or above HUF_MAXSYM read 0 and ignore
writes; no instruction changes the table. -/
def Obligations.SymbolTable : Prop :=
  (∀ (s : State) (j : Nat) (w : Word), s.phase = .idle → j < s.params.hufMaxsym → j < 4096 →
    ∃ t, hostStep (.regWrite (0x1000 + 4 * j) w) s = .next t ∧
      (∀ k, Cells.read t.hsym k = if k = j then some w else Cells.read s.hsym k) ∧
      readReg t (regAt (0x1000 + 4 * j)) = w ∧ t = { s with hsym := t.hsym }) ∧
  (∀ (s : State) (j : Nat) (w : Word), s.params.hufMaxsym ≤ j → j < 4096 → readReg s (regAt (0x1000 + 4 * j)) = 0 ∧
    (s.phase = .idle → hostStep (.regWrite (0x1000 + 4 * j) w) s = .next s)) ∧
  ∀ (i : Instr) (s t : State), exec i s = .next t → t.hsym = s.hsym

/-- R21(d), R67: a host read of a register returns what stands at its offset, and a host read of a register or of MEM changes nothing
of the block; the reply list and the draw counter are the model's (log entries 2 and 3). -/
def Obligations.ReadsHaveNoSideEffect : Prop :=
  ∀ (s : State) (n : Nat),
    hostStep (.regRead n) s = .next { s with replies := readReg s (regAt n) :: s.replies } ∧
    ∃ w d, hostStep (.memRead n) s = .next { s with replies := w :: s.replies, draws := d }

/-- R36, R272: RES_LEN, RES_POS and RES_INFO change in no step but a completion, a reset or a power-on. -/
def Obligations.ResultsOnlyAtCompletion : Prop :=
  ∀ s t : State, step s = .next t → t.results ≠ s.results →
    (s.phase.isBusy = true ∧ t.phase = .idle ∧ t.status.done = true) ∨
      ∃ rest, s.phase = .idle ∧ (s.host = .reset :: rest ∨ s.host = .powerOn :: rest)

/-! ### Reset -/

/-- R45, R290: after power-on with any legal parameters ID, PARAM0 and PARAM1 read their constants and every other register
of R21 reads 0, the engine is IDLE and irq is 0; no byte of MEM and no table entry holds a value (R46). -/
def Obligations.ResetValues : Prop :=
  ∀ (p : Params) (n : Nat) (host : List HostOp) (offset : Nat),
    (State.poweredOn p n host).phase = .idle ∧ (State.poweredOn p n host).irq = false ∧
    (0x004 ≤ offset → offset ≤ 0x034 → readReg (State.poweredOn p n host) (regAt offset) = 0) ∧
    readReg (State.poweredOn p n host) (regAt 0x000) = 0x42410007 ∧
    (p.legal = true → (readReg (State.poweredOn p n host) (regAt 0x038)).toNat = p.hufMaxlen + 2 ^ 16 * p.hufMaxsym ∧
      (readReg (State.poweredOn p n host) (regAt 0x03C)).toNat = p.memBytes - 1) ∧
    ∀ k, Cells.read (State.poweredOn p n host).mem k = none ∧ Cells.read (State.poweredOn p n host).hcount k = none ∧
      Cells.read (State.poweredOn p n host).hsym k = none

/-- R45, R46, R291, R292: a reset while IDLE puts CTRL, STATUS, the operand and the result registers to 0 and keeps MEM and the
tables; a power-on while IDLE leaves the state after power-on, the host's transactions still to come; either while BUSY is the model
fault ResetDuringBusy, for the power-on by the model's choice (log entry 12). The count of power-ons is the model's (log entry 3). -/
def Obligations.ResetEvents : Prop :=
  (∀ s : State, s.phase = .idle → ∃ t, hostStep .reset s = .next t ∧ t.phase = .idle ∧ t.irq = false ∧
    (∀ offset, 0x004 ≤ offset → offset ≤ 0x034 → readReg t (regAt offset) = 0) ∧
    t.mem = s.mem ∧ t.hcount = s.hcount ∧ t.hsym = s.hsym ∧ t.params = s.params) ∧
  (∀ s : State, s.phase = .idle → ∃ t, hostStep .powerOn s = .next t ∧
    t = { State.poweredOn s.params (s.powerCycles + 1) s.host with replies := t.replies, draws := t.draws }) ∧
  ∀ (s : State) (b : Busy), s.phase = .busy b →
    hostStep .reset s = .fault .resetDuringBusy ∧ hostStep .powerOn s = .fault .resetDuringBusy

/-! ### Host accesses to MEM -/

/-- R61: a host write of an existing byte while IDLE changes that byte alone and reads back; at or above
MEM_BYTES a read gives 0 and a write is ignored, in any phase. A wider access is byte accesses at rising addresses: a write of k
bytes of v leaves v's bytes, the lowest address holding the least significant, and a read of k bytes returns their little-endian
value, bytes that do not exist counting as 0. Both are runs of k steps of the host's transactions (log entry 2). -/
def Obligations.HostMem : Prop :=
  (∀ (s : State) (a : Nat) (x : Byte), s.phase = .idle → a < s.params.memBytes →
    ∃ t, hostStep (.memWrite a x) s = .next t ∧ t = { s with mem := t.mem } ∧
      (∀ y, Cells.read t.mem y = if y = a then some x else Cells.read s.mem y) ∧
      hostStep (.memRead a) t = .next { t with replies := x.zeroExtend 32 :: s.replies }) ∧
  (∀ (s : State) (a : Nat) (x : Byte), s.params.memBytes ≤ a →
    hostStep (.memWrite a x) s = .next s ∧ hostStep (.memRead a) s = .next { s with replies := 0 :: s.replies }) ∧
  (∀ (s : State) (a k v : Nat) (rest : List HostOp), s.phase = .idle → s.host = Script.wideWrite a k v ++ rest →
    ∃ t : State, core.run k s = .next t ∧ t = { s with mem := t.mem, host := rest } ∧
      ∀ y, Cells.read t.mem y =
        if a ≤ y ∧ y < a + k ∧ y < s.params.memBytes then some (BitVec.ofNat 8 (v / 256 ^ (y - a))) else Cells.read s.mem y) ∧
  ∀ (s : State) (a k : Nat) (bs : List Byte) (rest : List HostOp), s.phase = .idle →
    s.host = Script.wideRead a k ++ rest → bs.length = k →
    (∀ j, j < k → if a + j < s.params.memBytes then Cells.read s.mem (a + j) = bs[j]? else bs[j]? = some 0) →
    ∃ t : State, core.run k s = .next t ∧ t = { s with replies := t.replies, host := rest } ∧
      Script.wideValue k t.replies = leValue bs ∧ t.replies.drop k = s.replies

/-- R70(d), (g), R274: while BUSY a host write of a byte of the read set or write set is the model fault HostRace; a
write outside both lands. -/
def Obligations.HostRace : Prop :=
  ∀ (s : State) (b : Busy) (a : Nat) (x : Byte), s.phase = .busy b → a < s.params.memBytes →
    ((readSet s.params b.cmd).holds a = true ∨ (writeSet s.params b.cmd).holds a = true →
      hostStep (.memWrite a x) s = .fault (.hostRace a)) ∧
    ((readSet s.params b.cmd).holds a = false → (writeSet s.params b.cmd).holds a = false →
      ∃ t, hostStep (.memWrite a x) s = .next t ∧ t = { s with mem := t.mem } ∧
        ∀ y, Cells.read t.mem y = if y = a then some x else Cells.read s.mem y)

/-- R70, R123: the in-use regions, command by command, and none for a command that ends at its launch checks: the checks written out,
and a command that fails them is one that completes with BAD_CMD or BAD_ARG. That a HUF_DECODE which will end with BAD_TABLE keeps
its regions is the model's reading of R70, which names those two codes only (log entry 16). -/
def Obligations.InUseRegions : Prop :=
  (∀ (p : Params) (c : Latched),
    passesLaunchChecks p c = true ↔
      ((c.op = 1 ∨ c.op = 2) ∧ c.regs.srcAddr.toNat + c.regs.srcLen.toNat ≤ p.memBytes ∧
        c.regs.dstAddr.toNat + c.regs.dstCap.toNat ≤ p.memBytes ∧
        ∀ a, ¬ (c.regs.srcAddr.toNat ≤ a ∧ a < c.regs.srcAddr.toNat + c.regs.srcLen.toNat ∧
          c.regs.dstAddr.toNat ≤ a ∧ a < c.regs.dstAddr.toNat + c.regs.dstCap.toNat)) ∨
      (c.op = 3 ∧ c.symw ≠ 3 ∧ c.regs.srcAddr.toNat + bytesNeeded c.regs.srcLen.toNat ≤ p.memBytes ∧
        c.regs.dstAddr.toNat + c.regs.dstCap.toNat ≤ p.memBytes ∧
        ∀ a, ¬ (c.regs.srcAddr.toNat ≤ a ∧ a < c.regs.srcAddr.toNat + bytesNeeded c.regs.srcLen.toNat ∧
          c.regs.dstAddr.toNat ≤ a ∧ a < c.regs.dstAddr.toNat + c.regs.dstCap.toNat)) ∨
      (c.op = 4 ∧ c.regs.srcAddr.toNat + bytesNeeded c.regs.srcLen.toNat ≤ p.memBytes ∧ c.regs.arg2 ≠ 0 ∧
        c.regs.arg0.toNat ≤ c.regs.arg1.toNat ∧ c.regs.arg1.toNat ≤ c.regs.srcLen.toNat) ∨
      (c.op = 5 ∧ c.regs.srcAddr.toNat + bytesNeeded c.regs.srcLen.toNat ≤ p.memBytes ∧
        c.regs.arg0.toNat ≤ c.regs.arg1.toNat ∧ c.regs.arg1.toNat ≤ bytesNeeded c.regs.srcLen.toNat)) ∧
  (∀ (s : State) (b : Busy), s.phase = .busy b →
    (passesLaunchChecks s.params b.cmd = false ↔
      ∃ t, exec (latchedInstr b s) s = .next t ∧ (t.status.err = .badCmd ∨ t.status.err = .badArg))) ∧
  ∀ (p : Params) (c : Latched) (a : Nat),
    (passesLaunchChecks p c = false →
      (readSet p c).holds a = false ∧ (writeSet p c).holds a = false) ∧
    (passesLaunchChecks p c = true →
      ((readSet p c).holds a = true ↔
        ((c.op = 1 ∨ c.op = 2) ∧ c.regs.srcAddr.toNat ≤ a ∧ a < c.regs.srcAddr.toNat + c.regs.srcLen.toNat) ∨
        ((c.op = 3 ∨ c.op = 4) ∧ c.regs.srcAddr.toNat ≤ a ∧
          a < c.regs.srcAddr.toNat + bytesNeeded c.regs.srcLen.toNat) ∨
        (c.op = 5 ∧ c.regs.srcAddr.toNat + c.regs.arg0.toNat ≤ a ∧
          a < c.regs.srcAddr.toNat + c.regs.arg1.toNat)) ∧
      ((writeSet p c).holds a = true ↔
        ((c.op = 1 ∨ c.op = 2 ∨ c.op = 3) ∧ c.regs.dstAddr.toNat ≤ a ∧
          a < c.regs.dstAddr.toNat + c.regs.dstCap.toNat) ∨
        (c.op = 5 ∧ c.regs.srcAddr.toNat + c.regs.arg0.toNat ≤ a ∧
          a < c.regs.srcAddr.toNat + c.regs.arg1.toNat)))

/-- R70(e), (f), (g): while BUSY a host read of a write-set byte gives its value at launch or a value the command
writes there, which one being a free value (log entry 8); any other byte reads as it stands. A byte that holds no value there is
shown as the free value of its power-on (log entry 7). The values the command writes are those of the run that exec of the latched
command comes to from MEM at launch, and each byte that run leaves holds its launch value or one of them. -/
def Obligations.BusyReads : Prop :=
  (∀ (s : State) (b : Busy) (a : Nat), s.phase = .busy b → a < s.params.memBytes →
    ((writeSet s.params b.cmd).holds a = true →
      ∃ t y, hostStep (.memRead a) s = .next t ∧ t = { s with replies := y.zeroExtend 32 :: s.replies, draws := t.draws } ∧
        (y = (Cells.read b.atLaunch a).getD (Config.powerUpMem s.powerCycles a) ∨
          y ∈ writtenValues (latchedRun b.cmd (s.env b) { mem := b.atLaunch, log := [] }) a)) ∧
    ((writeSet s.params b.cmd).holds a = false →
      hostStep (.memRead a) s = .next { s with
        replies := ((Cells.read s.mem a).getD (Config.powerUpMem s.powerCycles a)).zeroExtend 32 :: s.replies })) ∧
  ∀ (s : State) (b : Busy), s.phase = .busy b →
    exec (latchedInstr b s) { s with mem := b.atLaunch } =
      complete (latchedRun b.cmd (s.env b) { mem := b.atLaunch, log := [] }) { s with mem := b.atLaunch } ∧
    ∀ (t : State) (a : Nat) (x : Byte), exec (latchedInstr b s) { s with mem := b.atLaunch } = .next t →
      Cells.read t.mem a = some x → Cells.read b.atLaunch a = some x ∨
        x ∈ writtenValues (latchedRun b.cmd (s.env b) { mem := b.atLaunch, log := [] }) a

/-! ### What every command may do -/

/-- R122: a reserved OP completes with BAD_CMD, which STATUS.ERR shows as 9, and changes nothing else. -/
def Obligations.ReservedOps : Prop :=
  ∀ (s : State) (b : Busy) (i : Instr), s.phase = .busy b →
    ((∃ f, i = .reservedOp0 f) ∨ (∃ lo f, i = .reservedOp67 lo f) ∨ ∃ lo f, i = .reservedOp8F lo f) →
    exec i s = .next (completion .badCmd s.results s.mem s) ∧
      (readReg (completion .badCmd s.results s.mem s) .status).extractLsb' 4 4 = 9

/-- R123, R124, R125: a region that is not in bounds gives BAD_ARG and changes nothing else, for each command over
its own regions. -/
def Obligations.RegionBounds : Prop :=
  ∀ (s : State) (b : Busy) (f : CtrlBits), s.phase = .busy b →
    (s.params.memBytes < b.cmd.regs.srcAddr.toNat + b.cmd.regs.srcLen.toNat ∨
        s.params.memBytes < b.cmd.regs.dstAddr.toNat + b.cmd.regs.dstCap.toNat →
      exec (.scDecode f) s = .next (completion .badArg s.results s.mem s) ∧
        exec (.vlDecode f) s = .next (completion .badArg s.results s.mem s)) ∧
    (s.params.memBytes < b.cmd.regs.srcAddr.toNat + bytesNeeded b.cmd.regs.srcLen.toNat ∨
        s.params.memBytes < b.cmd.regs.dstAddr.toNat + b.cmd.regs.dstCap.toNat →
      exec (.hufDecode f) s = .next (completion .badArg s.results s.mem s)) ∧
    (s.params.memBytes < b.cmd.regs.srcAddr.toNat + bytesNeeded b.cmd.regs.srcLen.toNat →
      exec (.popcount f) s = .next (completion .badArg s.results s.mem s) ∧
        exec (.bitrev f) s = .next (completion .badArg s.results s.mem s))

/-- R126: a decoder whose source and destination share a byte gives BAD_ARG; one whose regions are in bounds and share
none never does, but for SYMW = 3. -/
def Obligations.Overlap : Prop :=
  ∀ (s : State) (b : Busy) (f : CtrlBits), s.phase = .busy b →
    ((∃ a, b.cmd.regs.streamSource.holds a = true ∧ b.cmd.regs.destination.holds a = true) →
      exec (.scDecode f) s = .next (completion .badArg s.results s.mem s) ∧
        exec (.vlDecode f) s = .next (completion .badArg s.results s.mem s)) ∧
    ((∃ a, b.cmd.regs.viewSource.holds a = true ∧ b.cmd.regs.destination.holds a = true) →
      exec (.hufDecode f) s = .next (completion .badArg s.results s.mem s)) ∧
    (b.cmd.regs.destination.inBounds s.params = true → b.cmd.regs.streamSource.inBounds s.params = true →
      (∀ a, ¬ (b.cmd.regs.streamSource.holds a = true ∧ b.cmd.regs.destination.holds a = true)) →
      ∀ t, exec (.scDecode f) s = .next t ∨ exec (.vlDecode f) s = .next t → t.status.err ≠ .badArg) ∧
    (b.cmd.regs.destination.inBounds s.params = true → b.cmd.regs.viewSource.inBounds s.params = true →
      (∀ a, ¬ (b.cmd.regs.viewSource.holds a = true ∧ b.cmd.regs.destination.holds a = true)) → f.symw ≠ 3 →
      ∀ t, exec (.hufDecode f) s = .next t → t.status.err ≠ .badArg)

/-- R141, R146, R192: the commands' own argument checks: POPCOUNT's step, start and stop, BITREV's range, and SYMW = 3 in HUF_DECODE.
Each gives BAD_ARG and changes nothing else. -/
def Obligations.ArgumentChecks : Prop :=
  ∀ (s : State) (b : Busy) (f : CtrlBits), s.phase = .busy b →
    (b.cmd.regs.arg2 = 0 ∨ b.cmd.regs.arg1.toNat < b.cmd.regs.arg0.toNat ∨
        b.cmd.regs.srcLen.toNat < b.cmd.regs.arg1.toNat →
      exec (.popcount f) s = .next (completion .badArg s.results s.mem s)) ∧
    (b.cmd.regs.arg1.toNat < b.cmd.regs.arg0.toNat ∨
        bytesNeeded b.cmd.regs.srcLen.toNat < b.cmd.regs.arg1.toNat →
      exec (.bitrev f) s = .next (completion .badArg s.results s.mem s)) ∧
    (f.symw = 3 → exec (.hufDecode f) s = .next (completion .badArg s.results s.mem s))

/-- R124: a command that completes with BAD_CMD or BAD_ARG leaves MEM and the result registers unchanged, and has read no
MEM byte: with any other MEM it completes the same way. -/
def Obligations.RejectedCommands : Prop :=
  ∀ (i : Instr) (s t : State) (b : Busy), i.format = .commandWord → (∀ op f, i ≠ .ctrlStore op f) →
    s.phase = .busy b → exec i s = .next t → t.status.err = .badCmd ∨ t.status.err = .badArg →
      t = completion t.status.err s.results s.mem s ∧
        ∀ mem, exec i { s with mem := mem } = .next { t with mem := mem }

/-- R125: no command, whatever its operands, and no step from a state that meets the invariant makes the engine use a MEM
address at or above MEM_BYTES. -/
def Obligations.EngineStaysInMem : Prop :=
  (∀ (i : Instr) (s : State) (a : Nat), i.format = .commandWord → exec i s ≠ .fault (.noSuchAddress a)) ∧
  ∀ (s : State) (a : Nat), s.Inv → step s ≠ .fault (.noSuchAddress a)

/-- R300: every launched command completes, whatever its input, when every byte and table entry has been written
(R295). -/
def Obligations.EveryCommandCompletes : Prop :=
  ∀ (i : Instr) (s : State) (b : Busy), i.format = .commandWord → (∀ op f, i ≠ .ctrlStore op f) →
    s.phase = .busy b → s.allWritten →
      ∃ t, exec i s = .next t ∧ t.phase = .idle ∧ t.status.done = true

/-- R46, R274: the only way a command fails to complete is a read of a MEM byte or table entry not written since
power-on. -/
def Obligations.CommandFaults : Prop :=
  ∀ (i : Instr) (s : State) (f : Fault), i.format = .commandWord → exec i s = .fault f →
    (∃ a, f = .unwrittenRead .mem a ∧ a < s.params.memBytes ∧ Cells.read s.mem a = none) ∨
    (∃ l, f = .unwrittenRead .hcount l ∧ Cells.read s.hcount l = none) ∨
    ∃ j, f = .unwrittenRead .hsym j ∧ Cells.read s.hsym j = none

/-- The frame of every command's completion (R70, R121): the operand registers, CTRL and the tables stay, and no byte of
MEM changes outside the write set: the destination region for a decoder, the byte range for BITREV, none for POPCOUNT and
the reserved codes. -/
def Obligations.CommandFrame : Prop :=
  ∀ (i : Instr) (s t : State) (b : Busy), i.format = .commandWord → (∀ op f, i ≠ .ctrlStore op f) →
    s.phase = .busy b → exec i s = .next t →
      t = { s with mem := t.mem, results := t.results, status := t.status, phase := .idle } ∧
      ((∃ f, i = .scDecode f ∨ i = .vlDecode f ∨ i = .hufDecode f) →
        unchangedOutside s.mem t.mem b.cmd.regs.dstAddr.toNat b.cmd.regs.dstCap.toNat) ∧
      ((∃ f, i = .bitrev f) → unchangedOutside s.mem t.mem
        (b.cmd.regs.srcAddr.toNat + b.cmd.regs.arg0.toNat) (b.cmd.regs.arg1.toNat - b.cmd.regs.arg0.toNat)) ∧
      ((∀ f, i ≠ .scDecode f) → (∀ f, i ≠ .vlDecode f) → (∀ f, i ≠ .hufDecode f) → (∀ f, i ≠ .bitrev f) →
        t.mem = s.mem)

/-! ### POPCOUNT and BITREV -/

/-- R12, R140, R142: RES_LEN is the number of positions `start + k*step < stop` whose bit is 1, position i being bit `7 - i mod 8` of
byte `i div 8` where SEND is 1 and bit `i mod 8` where it is 0; RES_POS, RES_INFO and MEM stay. -/
def Obligations.PopcountResult : Prop :=
  ∀ (s : State) (b : Busy) (f : CtrlBits), s.phase = .busy b →
    b.cmd.regs.viewSource.inBounds s.params = true → b.cmd.regs.arg2 ≠ 0 →
    b.cmd.regs.arg0.toNat ≤ b.cmd.regs.arg1.toNat → b.cmd.regs.arg1.toNat ≤ b.cmd.regs.srcLen.toNat →
    (∀ k, b.cmd.regs.arg0.toNat + k * b.cmd.regs.arg2.toNat < b.cmd.regs.arg1.toNat →
      (Cells.read s.mem (b.cmd.regs.srcAddr.toNat +
        (b.cmd.regs.arg0.toNat + k * b.cmd.regs.arg2.toNat) / 8)).isSome = true) →
    ∃ n : Word, exec (.popcount f) s = .next (completion .ok { s.results with len := n } s.mem s) ∧
      n.toNat = ((List.range (b.cmd.regs.arg1.toNat - b.cmd.regs.arg0.toNat)).filter fun k =>
        decide (b.cmd.regs.arg0.toNat + k * b.cmd.regs.arg2.toNat < b.cmd.regs.arg1.toNat) &&
        decide ((Cells.read s.mem (b.cmd.regs.srcAddr.toNat +
            (b.cmd.regs.arg0.toNat + k * b.cmd.regs.arg2.toNat) / 8)).map (fun x => x.getLsbD
              (if f.send then 7 - (b.cmd.regs.arg0.toNat + k * b.cmd.regs.arg2.toNat) % 8
                else (b.cmd.regs.arg0.toNat + k * b.cmd.regs.arg2.toNat) % 8)) = some true)).length

/-- R147: BITREV replaces each byte of its range by its reverse; no result register and no other byte changes. -/
def Obligations.BitrevResult : Prop :=
  ∀ (s : State) (b : Busy) (f : CtrlBits), s.phase = .busy b →
    b.cmd.regs.viewSource.inBounds s.params = true → b.cmd.regs.arg0.toNat ≤ b.cmd.regs.arg1.toNat →
    b.cmd.regs.arg1.toNat ≤ bytesNeeded b.cmd.regs.srcLen.toNat →
    writtenRange s.mem (b.cmd.regs.srcAddr.toNat + b.cmd.regs.arg0.toNat)
      (b.cmd.regs.arg1.toNat - b.cmd.regs.arg0.toNat) →
    ∃ t, exec (.bitrev f) s = .next t ∧ t = completion .ok s.results t.mem s ∧
      unchangedOutside s.mem t.mem (b.cmd.regs.srcAddr.toNat + b.cmd.regs.arg0.toNat)
        (b.cmd.regs.arg1.toNat - b.cmd.regs.arg0.toNat) ∧
      ∀ (k : Nat) (x : Byte), b.cmd.regs.arg0.toNat ≤ k → k < b.cmd.regs.arg1.toNat →
        Cells.read s.mem (b.cmd.regs.srcAddr.toNat + k) = some x →
        ∃ y : Byte, Cells.read t.mem (b.cmd.regs.srcAddr.toNat + k) = some y ∧
          ∀ j, j < 8 → y.getLsbD j = x.getLsbD (7 - j)

/-- R148: a second BITREV over the same range restores every byte; after one over the whole view of n bits, the little view
holds the logical bits the big view held, and the other way round. -/
def Obligations.BitrevLaws : Prop :=
  ∀ (s t : State) (b : Busy) (f : CtrlBits), s.phase = .busy b → exec (.bitrev f) s = .next t →
    (t.status.err = .ok → ∃ u, exec (.bitrev f) { t with phase := s.phase } = .next u ∧
      ∀ a, Cells.read u.mem a = Cells.read s.mem a) ∧
    (t.status.err = .ok → b.cmd.regs.arg0 = 0 → b.cmd.regs.arg1.toNat = bytesNeeded b.cmd.regs.srcLen.toNat →
      ∀ (big : Bool) (i : Nat), i < b.cmd.regs.srcLen.toNat →
        viewBit t.mem b.cmd.regs.srcAddr.toNat (!big) i = viewBit s.mem b.cmd.regs.srcAddr.toNat big i)

/-! ### Decoders in general -/

/-- R124, R128, R129, R160, R220: a successful SC_DECODE or VL_DECODE leaves RES_LEN a bit length that fits, RES_POS inside
the input, RES_INFO the buffer's endianness (DEND for VL_DECODE), the pad bits 0, and every byte outside the decoded buffer as it
was. -/
def Obligations.DecoderSuccess : Prop :=
  ∀ (s t : State) (b : Busy) (f : CtrlBits), s.phase = .busy b →
    exec (.scDecode f) s = .next t ∨ exec (.vlDecode f) s = .next t → t.status.err = .ok →
      t = completion .ok t.results t.mem s ∧
      t.results.pos.toNat ≤ b.cmd.regs.srcLen.toNat ∧
      bytesNeeded t.results.len.toNat ≤ b.cmd.regs.dstCap.toNat ∧
      unchangedOutside s.mem t.mem b.cmd.regs.dstAddr.toNat (bytesNeeded t.results.len.toNat) ∧
      (exec (.vlDecode f) s = .next t → t.results.endian = f.dend) ∧
      ∀ j, t.results.len.toNat ≤ j → j < 8 * bytesNeeded t.results.len.toNat →
        viewBit t.mem b.cmd.regs.dstAddr.toNat t.results.endian j = some false

/-- R127, R170, R225, R263: an SC_DECODE or VL_DECODE that ends in a stream error leaves RES_LEN and RES_INFO unchanged; RES_POS
is at most SRC_LEN, equal to it for TRUNCATED and UNDERFLOW and 1 for BAD_HEADER; nothing outside the destination region changes,
and each of its bytes holds a free value (log entry 6). -/
def Obligations.DecoderErrors : Prop :=
  ∀ (s t : State) (b : Busy) (f : CtrlBits), s.phase = .busy b →
    exec (.scDecode f) s = .next t ∨ exec (.vlDecode f) s = .next t → t.status.err ≠ .ok → t.status.err ≠ .badArg →
      t = completion t.status.err { s.results with pos := t.results.pos } t.mem s ∧
      t.results.pos.toNat ≤ b.cmd.regs.srcLen.toNat ∧
      (t.status.err = .truncated ∨ t.status.err = .underflow → t.results.pos = b.cmd.regs.srcLen) ∧
      (t.status.err = .badHeader → t.results.pos = 1) ∧
      unchangedOutside s.mem t.mem b.cmd.regs.dstAddr.toNat b.cmd.regs.dstCap.toNat ∧
      ∀ k, k < b.cmd.regs.dstCap.toNat → Cells.read t.mem (b.cmd.regs.dstAddr.toNat + k) =
        some (Config.errorByte b.id (b.cmd.regs.dstAddr.toNat + k))

/-- R260, R261: which command raises which code. -/
def Obligations.ErrorCodes : Prop :=
  ∀ (s t : State) (b : Busy) (f : CtrlBits), s.phase = .busy b →
    (exec (.scDecode f) s = .next t →
      t.status.err ∈ [ErrCode.ok, .truncated, .badHeader, .badBlock, .badArg, .capacity]) ∧
    (exec (.vlDecode f) s = .next t → t.status.err ∈ [ErrCode.ok, .underflow, .badHeader, .badArg, .capacity]) ∧
    (exec (.hufDecode f) s = .next t →
      t.status.err ∈ [ErrCode.ok, .underflow, .badTable, .badCode, .badArg, .capacity]) ∧
    (exec (.popcount f) s = .next t ∨ exec (.bitrev f) s = .next t → t.status.err ∈ [ErrCode.ok, .badArg])

/-! ### SC_DECODE -/

/-- R161, R162, R171: SC_DECODE's header errors. An empty input, or one that ends inside the header, is TRUNCATED at SRC_LEN; a
header byte with bits [7:5] set or N > 8 is BAD_HEADER at 1; a length above 2^32 - 1 or above DST_CAP is CAPACITY at 1 + N. -/
def Obligations.SparseHeaderErrors : Prop :=
  ∀ (s : State) (b : Busy) (f : CtrlBits), s.phase = .busy b →
    decoderRegionsOk s.params b.cmd.regs.streamSource b.cmd.regs.destination = true →
    (b.cmd.regs.srcLen = 0 → ∃ t, exec (.scDecode f) s = .next t ∧
      t = completion .truncated { s.results with pos := 0 } t.mem s) ∧
    ∀ (h : Byte) (bs : List Byte), 0 < b.cmd.regs.srcLen.toNat → holdsBytes s.mem b.cmd.regs.srcAddr.toNat (h :: bs) →
      (h.extractLsb' 5 3 ≠ 0 ∨ 8 < (h.extractLsb' 0 4).toNat → ∃ t, exec (.scDecode f) s = .next t ∧
        t = completion .badHeader { s.results with pos := 1 } t.mem s) ∧
      (h.extractLsb' 5 3 = 0 → (h.extractLsb' 0 4).toNat ≤ 8 →
        (bs.length + 1 = b.cmd.regs.srcLen.toNat → bs.length < (h.extractLsb' 0 4).toNat →
          ∃ t, exec (.scDecode f) s = .next t ∧
            t = completion .truncated { s.results with pos := b.cmd.regs.srcLen } t.mem s) ∧
        (bs.length = (h.extractLsb' 0 4).toNat → bs.length < b.cmd.regs.srcLen.toNat →
          2 ^ 32 - 1 < leValue bs ∨ b.cmd.regs.dstCap.toNat < bytesNeeded (leValue bs) →
          ∃ t, exec (.scDecode f) s = .next t ∧
            t = completion .capacity { s.results with pos := BitVec.ofNat 32 (1 + bs.length) } t.mem s))

/-- R160 to R163: past its header, SC_DECODE's completion is what stepping block by block from the loop's head comes to, with the
buffer zeroed, O = 0 and the cursor after the header: the same next state, or the same fault. The block-by-block machine is the
model's view of one atomic completion (log entry 9). -/
def Obligations.SparseDecodeIsBlockSteps : Prop :=
  ∀ (s : State) (b : Busy) (f : CtrlBits) (h : Byte) (bs : List Byte), s.phase = .busy b → s.host = [] →
    decoderRegionsOk s.params b.cmd.regs.streamSource b.cmd.regs.destination = true →
    holdsBytes s.mem b.cmd.regs.srcAddr.toNat (h :: bs) → h.extractLsb' 5 3 = 0 → (h.extractLsb' 0 4).toNat ≤ 8 →
    bs.length = (h.extractLsb' 0 4).toNat → bs.length < b.cmd.regs.srcLen.toNat → leValue bs ≤ 2 ^ 32 - 1 →
    bytesNeeded (leValue bs) ≤ b.cmd.regs.dstCap.toNat →
    ∃ mem n,
      (∀ a, Cells.read mem a =
        if b.cmd.regs.dstAddr.toNat ≤ a ∧ a < b.cmd.regs.dstAddr.toNat + bytesNeeded (leValue bs) then some 0
        else Cells.read s.mem a) ∧
      core.run n { s with
        mem := mem
        phase := .busy { b with work := .sc { pos := 1 + bs.length, endian := h.getLsbD 4, lenBytes := bs.length,
                                              length := leValue bs, offset := 0 } } } = exec (.scDecode f) s

/-- R162, R163, R169, R172: a header followed by the terminator decodes to L zero bits; for L = 0 too, where the terminator
right after full coverage is consumed. -/
def Obligations.SparseZeros : Prop :=
  ∀ (s : State) (b : Busy) (f : CtrlBits) (h : Byte) (bs : List Byte), s.phase = .busy b →
    decoderRegionsOk s.params b.cmd.regs.streamSource b.cmd.regs.destination = true →
    holdsBytes s.mem b.cmd.regs.srcAddr.toNat ((h :: bs) ++ [0x00]) → h.extractLsb' 5 3 = 0 →
    (h.extractLsb' 0 4).toNat ≤ 8 → bs.length = (h.extractLsb' 0 4).toNat → bs.length + 2 ≤ b.cmd.regs.srcLen.toNat →
    leValue bs ≤ 2 ^ 32 - 1 → bytesNeeded (leValue bs) ≤ b.cmd.regs.dstCap.toNat →
    ∃ t, exec (.scDecode f) s = .next t ∧
      t = completion .ok { len := BitVec.ofNat 32 (leValue bs), pos := BitVec.ofNat 32 (bs.length + 2),
                           endian := h.getLsbD 4 } t.mem s ∧
      (∀ k, k < bytesNeeded (leValue bs) → Cells.read t.mem (b.cmd.regs.dstAddr.toNat + k) = some 0) ∧
      unchangedOutside s.mem t.mem b.cmd.regs.dstAddr.toNat (bytesNeeded (leValue bs))

/-- R163, R169, R171: the head of the block loop, as a step. At full coverage a terminator right there is consumed, any other
byte is not, and the command completes OK with the pad bits cleared and no other bit of the buffer, and no byte outside it, changed;
before it the end of the input is TRUNCATED at SRC_LEN, and no byte outside the destination region changes. -/
def Obligations.SparseLoopHead : Prop :=
  ∀ (s : State) (b : Busy) (w : ScWork), inBlockLoop s b w → engineNext b s.host = true →
    (w.offset < bytesNeeded w.length → w.pos = b.cmd.regs.srcLen.toNat → ∃ t, step s = .next t ∧
      t = completion .truncated { s.results with pos := b.cmd.regs.srcLen } t.mem s ∧
      unchangedOutside s.mem t.mem b.cmd.regs.dstAddr.toNat b.cmd.regs.dstCap.toNat) ∧
    (writtenRange s.mem b.cmd.regs.dstAddr.toNat (bytesNeeded w.length) → bytesNeeded w.length ≤ w.offset →
      ∀ consumed : Nat,
        (w.pos = b.cmd.regs.srcLen.toNat ∧ consumed = w.pos) ∨
          (∃ x : Byte, w.pos < b.cmd.regs.srcLen.toNat ∧ Cells.read s.mem (b.cmd.regs.srcAddr.toNat + w.pos) = some x ∧
            consumed = if x = 0x00 then w.pos + 1 else w.pos) →
        ∃ t, step s = .next t ∧
          t = completion .ok { len := BitVec.ofNat 32 w.length, pos := BitVec.ofNat 32 consumed, endian := w.endian } t.mem s ∧
          (∀ j, j < 8 * bytesNeeded w.length → viewBit t.mem b.cmd.regs.dstAddr.toNat w.endian j =
            if w.length ≤ j then some false else viewBit s.mem b.cmd.regs.dstAddr.toNat w.endian j) ∧
          unchangedOutside s.mem t.mem b.cmd.regs.dstAddr.toNat (bytesNeeded w.length))

/-- R163, R169: the terminator ends the decode: RES_LEN = L, RES_POS the cursor, RES_INFO = E; the pad bits are cleared and no other
bit of the buffer, and no byte outside it, changes. -/
def Obligations.SparseTerminator : Prop :=
  ∀ (s : State) (b : Busy) (w : ScWork), inBlockLoop s b w →
    writtenRange s.mem b.cmd.regs.dstAddr.toNat (bytesNeeded w.length) →
    ∃ t, exec .scTerm s = .next t ∧
      t = completion .ok { len := BitVec.ofNat 32 w.length, pos := BitVec.ofNat 32 w.pos, endian := w.endian } t.mem s ∧
      (∀ j, j < 8 * bytesNeeded w.length → viewBit t.mem b.cmd.regs.dstAddr.toNat w.endian j =
        if w.length ≤ j then some false else viewBit s.mem b.cmd.regs.dstAddr.toNat w.endian j) ∧
      unchangedOutside s.mem t.mem b.cmd.regs.dstAddr.toNat (bytesNeeded w.length)

/-- R164, R85: a raw block of S bytes at O copies them to the buffer, moves the cursor and O by S, and changes nothing else. -/
def Obligations.RawBlock : Prop :=
  ∀ (s : State) (b : Busy) (w : ScWork) (i : Instr) (size : Nat) (bs : List Byte), inBlockLoop s b w →
    rawForm i size → w.offset + size ≤ bytesNeeded w.length → bs.length = size →
    w.pos + size ≤ b.cmd.regs.srcLen.toNat → holdsBytes s.mem (b.cmd.regs.srcAddr.toNat + w.pos) bs →
    ∃ t, exec i s = .next t ∧
      t = { s with mem := t.mem,
                   phase := .busy { b with work := .sc { w with pos := w.pos + size, offset := w.offset + size } } } ∧
      holdsBytes t.mem (b.cmd.regs.dstAddr.toNat + w.offset) bs ∧
      unchangedOutside s.mem t.mem (b.cmd.regs.dstAddr.toNat + w.offset) size

/-- R164, R171, R170: a raw block past the declared length is BAD_BLOCK with RES_POS just after its header, whatever bytes follow; one
the input cuts short is TRUNCATED at SRC_LEN. RES_LEN and RES_INFO stay, and no byte outside the destination region changes. -/
def Obligations.RawBlockErrors : Prop :=
  ∀ (s : State) (b : Busy) (w : ScWork) (i : Instr) (size : Nat), inBlockLoop s b w → rawForm i size →
    (bytesNeeded w.length < w.offset + size → ∃ t, exec i s = .next t ∧
      t = completion .badBlock { s.results with pos := BitVec.ofNat 32 w.pos } t.mem s ∧
      unchangedOutside s.mem t.mem b.cmd.regs.dstAddr.toNat b.cmd.regs.dstCap.toNat) ∧
    ∀ bs : List Byte, w.offset + size ≤ bytesNeeded w.length → w.pos + bs.length = b.cmd.regs.srcLen.toNat →
      bs.length < size → holdsBytes s.mem (b.cmd.regs.srcAddr.toNat + w.pos) bs → ∃ t, exec i s = .next t ∧
        t = completion .truncated { s.results with pos := b.cmd.regs.srcLen } t.mem s ∧
        unchangedOutside s.mem t.mem b.cmd.regs.dstAddr.toNat b.cmd.regs.dstCap.toNat

/-- R165, R166, R87: a sparse block of index width k with c indices, all naming bits below L, sets exactly those bits, moves the
cursor past them and O by `2^(8k-3)`, and changes nothing else; a count of 0 sets none and still moves O. -/
def Obligations.SparseBlock : Prop :=
  ∀ (s : State) (b : Busy) (w : ScWork) (i : Instr) (count : List Byte) (k c : Nat) (indices : List (List Byte)),
    inBlockLoop s b w → sparseForm i count k c → indices.length = c → (∀ x ∈ indices, x.length = k) →
    w.pos + count.length + k * c ≤ b.cmd.regs.srcLen.toNat →
    holdsBytes s.mem (b.cmd.regs.srcAddr.toNat + w.pos) (count ++ indices.flatten) →
    (∀ x ∈ indices, 8 * w.offset + leValue x < w.length) →
    writtenRange s.mem b.cmd.regs.dstAddr.toNat (bytesNeeded w.length) →
    ∃ t, exec i s = .next t ∧
      t = { s with mem := t.mem,
                   phase := .busy { b with work := .sc { w with pos := w.pos + count.length + k * c,
                                                                offset := w.offset + 2 ^ (8 * k - 3) } } } ∧
      (∀ j, j < 8 * bytesNeeded w.length → viewBit t.mem b.cmd.regs.dstAddr.toNat w.endian j =
        if ∃ x ∈ indices, j = 8 * w.offset + leValue x then some true
        else viewBit s.mem b.cmd.regs.dstAddr.toNat w.endian j) ∧
      unchangedOutside s.mem t.mem b.cmd.regs.dstAddr.toNat (bytesNeeded w.length)

/-- R166, R170, R171: the first index at or past L is BAD_BLOCK with RES_POS just after it; a block the input cuts short inside an
index, or before its count byte, is TRUNCATED at SRC_LEN. RES_LEN and RES_INFO stay, and no byte outside the destination region
changes. -/
def Obligations.SparseBlockErrors : Prop :=
  (∀ (s : State) (b : Busy) (w : ScWork) (i : Instr) (count : List Byte) (k c : Nat) (good : List (List Byte))
    (last : List Byte), inBlockLoop s b w → sparseForm i count k c → good.length < c → (∀ x ∈ good, x.length = k) →
    (∀ x ∈ good, 8 * w.offset + leValue x < w.length) →
    writtenRange s.mem b.cmd.regs.dstAddr.toNat (bytesNeeded w.length) →
    holdsBytes s.mem (b.cmd.regs.srcAddr.toNat + w.pos) (count ++ good.flatten ++ last) →
    (last.length = k → w.length ≤ 8 * w.offset + leValue last →
      w.pos + count.length + k * (good.length + 1) ≤ b.cmd.regs.srcLen.toNat → ∃ t, exec i s = .next t ∧
        t = completion .badBlock
          { s.results with pos := BitVec.ofNat 32 (w.pos + count.length + k * (good.length + 1)) } t.mem s ∧
        unchangedOutside s.mem t.mem b.cmd.regs.dstAddr.toNat b.cmd.regs.dstCap.toNat) ∧
    (last.length < k → w.pos + count.length + k * good.length + last.length = b.cmd.regs.srcLen.toNat →
      ∃ t, exec i s = .next t ∧
        t = completion .truncated { s.results with pos := b.cmd.regs.srcLen } t.mem s ∧
        unchangedOutside s.mem t.mem b.cmd.regs.dstAddr.toNat b.cmd.regs.dstCap.toNat)) ∧
  ∀ (s : State) (b : Busy) (w : ScWork) (i : Instr), inBlockLoop s b w → i = .scSparse2 ∨ i = .scSparse3 ∨ i = .scSparse4 →
    w.pos = b.cmd.regs.srcLen.toNat → ∃ t, exec i s = .next t ∧
      t = completion .truncated { s.results with pos := b.cmd.regs.srcLen } t.mem s ∧
      unchangedOutside s.mem t.mem b.cmd.regs.dstAddr.toNat b.cmd.regs.dstCap.toNat

/-- R168, R170: a reserved block header ends the decode with BAD_BLOCK and RES_POS counting it; RES_LEN and RES_INFO stay, and nothing
outside the destination region changes. -/
def Obligations.ReservedHeaders : Prop :=
  ∀ (s : State) (b : Busy) (w : ScWork) (i : Instr), inBlockLoop s b w → reservedForm i →
    ∃ t, exec i s = .next t ∧ t = completion .badBlock { s.results with pos := BitVec.ofNat 32 w.pos } t.mem s ∧
      unchangedOutside s.mem t.mem b.cmd.regs.dstAddr.toNat b.cmd.regs.dstCap.toNat

/-- The model's own stop: a block header run while no SC_DECODE is in its block loop, the engine IDLE or BUSY elsewhere, is refused (log
entry 9); no step comes to it. -/
def Obligations.NoRefusedStep : Prop :=
  (∀ (s : State) (h : Byte), s.phase = .idle ∨ (∃ b, s.phase = .busy b ∧ ∀ w, b.work ≠ .sc w) →
    exec (decodeHeader h) s = .refused .noBlockLoop) ∧
  ∀ (s : State) (r : Refusal), step s ≠ .refused r

/-! ### VL_DECODE -/

/-- R220 to R224, R226, R129: VL_DECODE of a well-formed sequence: the data bits but the last P, in DEND's view; RES_LEN, RES_POS and
RES_INFO; pad bits 0; no byte after the sequence is read or counted, and no byte outside the buffer changes. -/
def Obligations.VarlenDecode : Prop :=
  ∀ (s : State) (b : Busy) (f : CtrlBits) (first : Byte) (later : List Byte), s.phase = .busy b →
    decoderRegionsOk s.params b.cmd.regs.streamSource b.cmd.regs.destination = true →
    holdsBytes s.mem b.cmd.regs.srcAddr.toNat (first :: later) → later.length < b.cmd.regs.srcLen.toNat →
    continuationBits (first :: later) → varlenPad first ≠ 7 → (later = [] → varlenPad first ≤ 4) →
    (varlenData first later).length - varlenPad first ≤ 8 * b.cmd.regs.dstCap.toNat →
    (varlenData first later).length - varlenPad first ≤ 2 ^ 32 - 1 →
    ∃ t, exec (.vlDecode f) s = .next t ∧
      t = completion .ok { len := BitVec.ofNat 32 ((varlenData first later).length - varlenPad first),
                           pos := BitVec.ofNat 32 (later.length + 1), endian := f.dend } t.mem s ∧
      holdsBits t.mem b.cmd.regs.dstAddr.toNat f.dend 0
        ((varlenData first later).take ((varlenData first later).length - varlenPad first)) ∧
      (∀ j, (varlenData first later).length - varlenPad first ≤ j →
        j < 8 * bytesNeeded ((varlenData first later).length - varlenPad first) →
        viewBit t.mem b.cmd.regs.dstAddr.toNat f.dend j = some false) ∧
      unchangedOutside s.mem t.mem b.cmd.regs.dstAddr.toNat
        (bytesNeeded ((varlenData first later).length - varlenPad first))

/-- R221, R92: a first byte with P = 7, or with P > 4 and no continuation, is BAD_HEADER at 1. -/
def Obligations.VarlenBadHeader : Prop :=
  ∀ (s : State) (b : Busy) (f : CtrlBits) (first : Byte), s.phase = .busy b →
    decoderRegionsOk s.params b.cmd.regs.streamSource b.cmd.regs.destination = true →
    0 < b.cmd.regs.srcLen.toNat → holdsBytes s.mem b.cmd.regs.srcAddr.toNat [first] →
    varlenPad first = 7 ∨ (first.getLsbD 7 = false ∧ 4 < varlenPad first) →
    ∃ t, exec (.vlDecode f) s = .next t ∧ t = completion .badHeader { s.results with pos := 1 } t.mem s

/-- R222, R225: an input that ends before a byte with continuation bit 0, every byte so far within capacity, is UNDERFLOW at SRC_LEN;
an empty input too. -/
def Obligations.VarlenUnderflow : Prop :=
  ∀ (s : State) (b : Busy) (f : CtrlBits) (bs : List Byte), s.phase = .busy b →
    decoderRegionsOk s.params b.cmd.regs.streamSource b.cmd.regs.destination = true →
    holdsBytes s.mem b.cmd.regs.srcAddr.toNat bs → bs.length = b.cmd.regs.srcLen.toNat →
    (∀ x ∈ bs, x.getLsbD 7 = true) →
    (∀ first later, bs = first :: later → varlenPad first ≠ 7 ∧
      (varlenData first later).length ≤ 8 * b.cmd.regs.dstCap.toNat + varlenPad first ∧
      (varlenData first later).length - varlenPad first ≤ 2 ^ 32 - 1) →
    ∃ t, exec (.vlDecode f) s = .next t ∧
      t = completion .underflow { s.results with pos := b.cmd.regs.srcLen } t.mem s

/-- R223: the first byte whose data bits pass DST_CAP or 2^32 - 1 is CAPACITY, with RES_POS just after it. -/
def Obligations.VarlenCapacity : Prop :=
  ∀ (s : State) (b : Busy) (f : CtrlBits) (first : Byte) (later : List Byte), s.phase = .busy b →
    decoderRegionsOk s.params b.cmd.regs.streamSource b.cmd.regs.destination = true →
    holdsBytes s.mem b.cmd.regs.srcAddr.toNat (first :: later) → later.length < b.cmd.regs.srcLen.toNat →
    (∀ k, k < later.length → ((first :: later).getD k 0).getLsbD 7 = true) →
    varlenPad first ≠ 7 → (first.getLsbD 7 = false → varlenPad first ≤ 4) →
    (∀ k, k < later.length →
      (varlenData first (later.take k)).length ≤ 8 * b.cmd.regs.dstCap.toNat + varlenPad first ∧
      (varlenData first (later.take k)).length - varlenPad first ≤ 2 ^ 32 - 1) →
    8 * b.cmd.regs.dstCap.toNat + varlenPad first < (varlenData first later).length ∨
      2 ^ 32 - 1 < (varlenData first later).length - varlenPad first →
    ∃ t, exec (.vlDecode f) s = .next t ∧
      t = completion .capacity { s.results with pos := BitVec.ofNat 32 (later.length + 1) } t.mem s

/-! ### HUF_DECODE -/

/-- R193: with the tables written, HUF_DECODE raises BAD_TABLE exactly when a table check fails, the over-subscription check
being `sum of HCOUNT[l] * 2^(-l) > 1`; then RES_LEN and RES_POS are 0, and RES_INFO and MEM stay. -/
def Obligations.HuffmanTables : Prop :=
  ∀ (s : State) (b : Busy) (f : CtrlBits) (c0 : Nat) (counts : List Nat), s.phase = .busy b → f.symw ≠ 3 →
    decoderRegionsOk s.params b.cmd.regs.viewSource b.cmd.regs.destination = true → countsHeld s c0 counts →
    (¬ tablesGood s.params.hufMaxsym b.cmd.regs.hufNsym.toNat c0 counts →
      exec (.hufDecode f) s = .next (completion .badTable { s.results with len := 0, pos := 0 } s.mem s)) ∧
    (tablesGood s.params.hufMaxsym b.cmd.regs.hufNsym.toNat c0 counts →
      ∀ t, exec (.hufDecode f) s = .next t → t.status.err ≠ .badTable)

/-- R25, R94, R95, R194 to R197, R199: with good tables and symbols of 1, 2 or 4 bytes for SYMW = 0, 1 or 2, bits that are the
canonical codes of some symbols one after the other decode to exactly those symbols; RES_LEN counts them, RES_POS is SRC_LEN,
RES_INFO stays, and no other byte changes. -/
def Obligations.HuffmanPrefixDecode : Prop :=
  ∀ (s : State) (b : Busy) (f : CtrlBits) (counts : List Nat) (width : Nat) (codes : List CodeAt) (syms : List Word),
    s.phase = .busy b → (f.symw = 0 ∧ width = 1) ∨ (f.symw = 1 ∧ width = 2) ∨ (f.symw = 2 ∧ width = 4) →
    decoderRegionsOk s.params b.cmd.regs.viewSource b.cmd.regs.destination = true → countsHeld s 0 counts →
    tablesGood s.params.hufMaxsym b.cmd.regs.hufNsym.toNat 0 counts → (∀ x ∈ codes, x.among counts) →
    symbolsHeld s counts codes syms →
    (codes.flatMap (CodeAt.digits counts)).length = b.cmd.regs.srcLen.toNat →
    holdsBits s.mem b.cmd.regs.srcAddr.toNat f.send 0 (codes.flatMap (CodeAt.digits counts)) →
    width * codes.length ≤ b.cmd.regs.dstCap.toNat →
    ∃ t, exec (.hufDecode f) s = .next t ∧
      t = completion .ok { s.results with len := BitVec.ofNat 32 codes.length, pos := b.cmd.regs.srcLen } t.mem s ∧
      symbolsWritten t.mem b.cmd.regs.dstAddr.toNat width syms ∧
      unchangedOutside s.mem t.mem b.cmd.regs.dstAddr.toNat (width * codes.length)

/-- R25, R194, R196, R198, R200: after some complete codes, with good tables and symbols of 1, 2 or 4 bytes for SYMW = 0, 1 or
2: bits that end inside a code are UNDERFLOW, HUF_MAXLEN bits that no code begins are BAD_CODE, and a code whose symbol does not
fit is CAPACITY; each leaves the symbols written so far, RES_LEN their number and RES_POS the bit where the failing code began,
and changes no other byte. -/
def Obligations.HuffmanErrors : Prop :=
  ∀ (s : State) (b : Busy) (f : CtrlBits) (counts : List Nat) (width : Nat) (codes : List CodeAt) (syms : List Word)
    (rest : List Bool),
    s.phase = .busy b → (f.symw = 0 ∧ width = 1) ∨ (f.symw = 1 ∧ width = 2) ∨ (f.symw = 2 ∧ width = 4) →
    decoderRegionsOk s.params b.cmd.regs.viewSource b.cmd.regs.destination = true → countsHeld s 0 counts →
    tablesGood s.params.hufMaxsym b.cmd.regs.hufNsym.toNat 0 counts → (∀ x ∈ codes, x.among counts) →
    symbolsHeld s counts codes syms →
    (codes.flatMap (CodeAt.digits counts) ++ rest).length = b.cmd.regs.srcLen.toNat →
    holdsBits s.mem b.cmd.regs.srcAddr.toNat f.send 0 (codes.flatMap (CodeAt.digits counts) ++ rest) →
    width * codes.length ≤ b.cmd.regs.dstCap.toNat →
    ∀ err : ErrCode,
      (err = .underflow ∧ rest ≠ [] ∧ rest.length < counts.length ∧ noCodeBegins counts rest rest.length) ∨
      (err = .badCode ∧ counts.length ≤ rest.length ∧ noCodeBegins counts rest counts.length) ∨
      (err = .capacity ∧ b.cmd.regs.dstCap.toNat < width * (codes.length + 1) ∧
        ∃ (x : CodeAt) (after : List Bool), x.among counts ∧ rest = x.digits counts ++ after ∧
          (Cells.read s.hsym (x.position counts)).isSome = true) →
      ∃ t, exec (.hufDecode f) s = .next t ∧
        t = completion err
          { s.results with len := BitVec.ofNat 32 codes.length,
                           pos := BitVec.ofNat 32 (codes.flatMap (CodeAt.digits counts)).length } t.mem s ∧
        symbolsWritten t.mem b.cmd.regs.dstAddr.toNat width syms ∧
        unchangedOutside s.mem t.mem b.cmd.regs.dstAddr.toNat (width * codes.length)

/-- R199: with a complete code, `sum of HCOUNT[l] * 2^(-l) = 1`, BAD_CODE cannot occur. -/
def Obligations.CompleteCodeNoBadCode : Prop :=
  ∀ (s t : State) (b : Busy) (f : CtrlBits) (c0 : Nat) (counts : List Nat), s.phase = .busy b →
    countsHeld s c0 counts → codeSpace counts = 2 ^ counts.length → exec (.hufDecode f) s = .next t →
      t.status.err ≠ .badCode

/-! ### Invariants of every step -/

/-- R43, R44, R120, R125: the invariant holds after every power-on, with any parameters and any host: memories in canonical form
inside their sizes, the latch equal to the registers, the working state inside its regions. -/
def Obligations.ResetMeetsInvariant : Prop :=
  State.reset.Inv ∧ ∀ (p : Params) (n : Nat) (host : List HostOp), (State.poweredOn p n host).Inv

/-- R43, R44, R120, R125: every step keeps the invariant: MEM and the tables in canonical form inside their sizes; while BUSY the
latched values equal the registers and DONE and ERR are clear; working state inside its regions. -/
def Obligations.StepKeepsInvariant : Prop :=
  ∀ s t : State, s.Inv → step s = .next t → t.Inv

/-- R7, R9, R20, R21, R40, R41: the parameters never change; HCOUNT changes in no step but a power-on and a host write of an existing
entry of its window while IDLE, and HSYM likewise. -/
def Obligations.TablesOnlyByHost : Prop :=
  ∀ s t : State, step s = .next t → t.params = s.params ∧
    (t.hcount ≠ s.hcount → s.phase = .idle ∧ ∃ rest, s.host = .powerOn :: rest ∨
      ∃ l w, l ≤ 255 ∧ l ≤ s.params.hufMaxlen ∧ s.host = .regWrite (0x100 + 4 * l) w :: rest) ∧
    (t.hsym ≠ s.hsym → s.phase = .idle ∧ ∃ rest, s.host = .powerOn :: rest ∨
      ∃ j w, j < 4096 ∧ j < s.params.hufMaxsym ∧ s.host = .regWrite (0x1000 + 4 * j) w :: rest)

/-- R21(c), R43, R74, R121: nothing the host does while BUSY changes the latched command, the operand registers, CTRL or the working
state: a step from BUSY completes the command or goes on with the same one. A host event that comes first leaves fewer before
the engine's turn, the number being a free value (log entry 4). -/
def Obligations.LatchedCommandHolds : Prop :=
  ∀ (s t : State) (b : Busy), s.phase = .busy b → step s = .next t →
    t.ctrl = s.ctrl ∧ t.regs = s.regs ∧
      ((t.phase = .idle ∧ t.status.done = true) ∨
        ∃ b', t.phase = .busy b' ∧ b'.cmd = b.cmd ∧ b'.atLaunch = b.atLaunch ∧ b'.id = b.id ∧
          (engineNext b s.host = false → b'.delay < b.delay ∧ b'.work = b.work))
end

