-- ==== Sys2Proof/Laws/Act.lean ====
section
/-! SUPPORT. What an engine action can come to, and the rule that chains actions. A law of the engine is
stated as `Act.Sat`: what holds of the value it goes on with, of the ending it raises, and of its fault. -/

namespace Sys2Proof.Machine

/-- Every way an action can come out meets its condition. -/
def Act.Sat {α : Type} (x : Act α) (Q : α → Prop) (R : Ending → Prop) (F : Fault → Prop) : Prop :=
  match x with
  | .ok a => Q a
  | .raise e => R e
  | .fault f _ => F f

variable {α β : Type} {Q : α → Prop} {R : Ending → Prop} {F : Fault → Prop}

@[simp] theorem Act.sat_ok (a : α) : (Act.ok a).Sat Q R F ↔ Q a := Iff.rfl
@[simp] theorem Act.sat_raise (e : Ending) : (Act.raise e : Act α).Sat Q R F ↔ R e := Iff.rfl
@[simp] theorem Act.sat_fault (f : Fault) (m : Port) : (Act.fault f m : Act α).Sat Q R F ↔ F f := Iff.rfl

@[simp] theorem Act.bind_ok (a : α) (k : α → Act β) : (Act.ok a).bind k = k a := rfl
@[simp] theorem Act.bind_raise (e : Ending) (k : α → Act β) : (Act.raise e).bind k = .raise e := rfl
@[simp] theorem Act.bind_fault (f : Fault) (m : Port) (k : α → Act β) : (Act.fault f m).bind k = .fault f m := rfl

theorem Act.Sat.mono {x : Act α} {Q' : α → Prop} {R' : Ending → Prop} {F' : Fault → Prop}
    (h : x.Sat Q R F) (hq : ∀ a, Q a → Q' a) (hr : ∀ e, R e → R' e) (hf : ∀ f, F f → F' f) :
    x.Sat Q' R' F' := by
  cases x with
  | ok a => exact hq a h
  | raise e => exact hr e h
  | fault f p => exact hf f h

theorem Act.Sat.bind {x : Act α} {k : α → Act β} {Q' : β → Prop} (h : x.Sat Q R F)
    (hk : ∀ a, Q a → (k a).Sat Q' R F) : (x.bind k).Sat Q' R F := by
  cases x with
  | ok a => exact hk a h
  | raise e => exact h
  | fault f p => exact h

theorem Act.bind_eq_ok {x : Act α} {k : α → Act β} {b : β} :
    x.bind k = .ok b ↔ ∃ a, x = .ok a ∧ k a = .ok b := by
  cases x <;> simp

theorem Act.bind_assoc {γ : Type} (x : Act α) (k : α → Act β) (l : β → Act γ) :
    (x.bind k).bind l = x.bind fun a => (k a).bind l := by
  cases x <;> rfl

/-- `complete` by the way its action came out: the command finished, or a model fault. -/
theorem complete_cases (x : Act Ending) (s : State) :
    (∃ e, (x = .ok e ∨ x = .raise e) ∧ complete x s = .next (finishWith e s)) ∨
      ∃ f m, x = .fault f m ∧ complete x s = .fault f := by
  cases x with
  | ok e => exact .inl ⟨e, .inl rfl, rfl⟩
  | raise e => exact .inl ⟨e, .inr rfl, rfl⟩
  | fault f p => exact .inr ⟨f, p, rfl, rfl⟩

/-- A completion that answers a next state answers `finishWith` of an ending that meets both
conditions' union. -/
theorem complete_next {x : Act Ending} {s t : State} {R : Ending → Prop} {F : Fault → Prop}
    (hx : x.Sat R R F) (h : complete x s = .next t) : ∃ e, R e ∧ t = finishWith e s := by
  cases x with
  | ok e => exact ⟨e, hx, by simpa [complete] using h.symm⟩
  | raise e => exact ⟨e, hx, by simpa [complete] using h.symm⟩
  | fault f p => simp [complete] at h

/-- A command's event while BUSY is its completion. -/
theorem runCommand_busy {op : BitVec 4} {f : CtrlBits} {run : Env → Port → Act Ending} {s : State} {b : Busy}
    (h : s.phase = .busy b) : runCommand op f run s = complete (run (s.env b) s.port) s := by
  simp [runCommand, h]

/-- A command's event while IDLE is its launch. -/
theorem runCommand_idle {op : BitVec 4} {f : CtrlBits} {run : Env → Port → Act Ending} {s : State}
    (h : s.phase = .idle) : runCommand op f run s = .next (launch op f s) := by
  simp [runCommand, h]

end Sys2Proof.Machine
end

