-- ==== Sys2Proof/Laws/Cells.lean ====
section
/-! SUPPORT. What reading and writing cells do, and that a write keeps the canonical form. -/

namespace Sys2Proof.Machine

variable {β : Type}

@[simp] theorem Cells.read_nil (a : Nat) : Cells.read ([] : List (Nat × β)) a = none := rfl

theorem Cells.read_write (cs : List (Nat × β)) (a : Nat) (b : β) (a' : Nat) :
    Cells.read (Cells.write cs a b) a' = if a' = a then some b else Cells.read cs a' := by
  induction cs with
  | nil => simp only [Cells.write, Cells.read]; grind
  | cons c rest ih => obtain ⟨k, v⟩ := c; simp only [Cells.write]; grind [Cells.read]

@[simp] theorem Cells.read_write_self (cs : List (Nat × β)) (a : Nat) (b : β) :
    Cells.read (Cells.write cs a b) a = some b := by simp [Cells.read_write]

theorem Cells.read_write_of_ne (cs : List (Nat × β)) {a a' : Nat} (b : β) (h : a' ≠ a) :
    Cells.read (Cells.write cs a b) a' = Cells.read cs a' := by simp [Cells.read_write, h]

theorem Cells.risingFrom_write (cs : List (Nat × β)) (a : Nat) (b : β) (low : Nat)
    (h : Cells.risingFrom low cs = true) (ha : low ≤ a) : Cells.risingFrom low (Cells.write cs a b) = true := by
  induction cs generalizing low with
  | nil => simp [Cells.write, Cells.risingFrom, ha]
  | cons c rest ih =>
    obtain ⟨k, v⟩ := c
    simp only [Cells.risingFrom, Bool.and_eq_true, decide_eq_true_eq] at h
    simp only [Cells.write]
    split_ifs with h1 h2
    · simp [Cells.risingFrom, ha, h.2]; omega
    · subst h2; simp [Cells.risingFrom, ha, h.2]
    · simp [Cells.risingFrom, h.1, ih (k + 1) h.2 (by omega)]

theorem Memory.wf_write (m : List Host.Cell) (a : Nat) (b : Byte) (h : Memory.wf m = true) :
    Memory.wf (Cells.write m a b) = true :=
  Cells.risingFrom_write m a b 0 h (Nat.zero_le a)

theorem Cells.below_write (cs : List (Nat × β)) (a : Nat) (b : β) (high : Nat)
    (h : Cells.below high cs = true) (ha : a < high) : Cells.below high (Cells.write cs a b) = true := by
  induction cs with
  | nil => simp [Cells.write, Cells.below, ha]
  | cons c rest ih =>
    obtain ⟨k, v⟩ := c
    simp only [Cells.below, List.all_cons, Bool.and_eq_true, decide_eq_true_eq] at h ih
    simp only [Cells.write]
    split_ifs <;> simp only [Cells.below, List.all_cons, Bool.and_eq_true, decide_eq_true_eq] <;>
      grind

/-- In canonical form nothing below the first index is listed. -/
theorem Cells.read_eq_none_of_lt (cs : List (Nat × β)) (low a : Nat)
    (h : Cells.risingFrom low cs = true) (ha : a < low) : Cells.read cs a = none := by
  induction cs generalizing low with
  | nil => rfl
  | cons c rest ih =>
    obtain ⟨k, v⟩ := c
    simp only [Cells.risingFrom, Bool.and_eq_true, decide_eq_true_eq] at h
    simp only [Cells.read]
    rw [if_neg (by omega), ih (k + 1) h.2 (by omega)]

/-- Two memories in canonical form that read alike are the same list. -/
theorem Cells.ext (cs ds : List (Nat × β)) (low : Nat) (hc : Cells.risingFrom low cs = true)
    (hd : Cells.risingFrom low ds = true) (h : ∀ a, Cells.read cs a = Cells.read ds a) : cs = ds := by
  induction cs generalizing ds low with
  | nil =>
    cases ds with
    | nil => rfl
    | cons d rest => have := h d.1; simp [Cells.read] at this
  | cons c rest ih =>
    cases ds with
    | nil => have := h c.1; simp [Cells.read] at this
    | cons d rest' =>
      obtain ⟨k, v⟩ := c
      obtain ⟨k', v'⟩ := d
      simp only [Cells.risingFrom, Bool.and_eq_true, decide_eq_true_eq] at hc hd
      have hk : k = k' := by
        have h1 := h k
        have h2 := h k'
        simp only [Cells.read, ↓reduceIte] at h1 h2
        rcases Nat.lt_trichotomy k k' with hlt | heq | hgt
        · rw [if_neg (by omega), Cells.read_eq_none_of_lt rest' (k' + 1) k hd.2 (by omega)] at h1
          simp at h1
        · exact heq
        · rw [if_neg (by omega), Cells.read_eq_none_of_lt rest (k + 1) k' hc.2 (by omega)] at h2
          simp at h2
      subst hk
      have hv : v = v' := by have := h k; simpa [Cells.read] using this
      subst hv
      have hrest : rest = rest' := by
        refine ih rest' (k + 1) hc.2 hd.2 fun a => ?_
        by_cases hak : k = a
        · subst hak
          rw [Cells.read_eq_none_of_lt rest (k + 1) k hc.2 (by omega),
            Cells.read_eq_none_of_lt rest' (k + 1) k hd.2 (by omega)]
        · have := h a; simpa [Cells.read, hak] using this
      rw [hrest]

end Sys2Proof.Machine
end

