-- ==== Sys2Proof/Laws/Engine.lean ====
section
/-! SUPPORT. What the engine's accesses to MEM and the tables do: which bytes they may change, what they
keep, and how they may fault. -/

namespace Sys2Proof.Machine

/-- MEM went from `m` to `m'` by writes inside `W`: every other byte reads as before, the canonical form
and the bound are kept, no written byte became unwritten, the log has only grown, by writes inside `W`, and a
byte that reads otherwise than before holds a value of the log. -/
structure Wrote (v : Env) (W : Nat → Prop) (m m' : Port) : Prop where
  frame : ∀ a, ¬ W a → Cells.read m'.mem a = Cells.read m.mem a
  wf : Memory.wf m.mem = true → Memory.wf m'.mem = true
  below : Cells.below v.params.memBytes m.mem = true → Cells.below v.params.memBytes m'.mem = true
  kept : ∀ a, (Cells.read m.mem a).isSome = true → (Cells.read m'.mem a).isSome = true
  grown : ∀ c ∈ m.log, c ∈ m'.log
  logged : ∀ c ∈ m'.log, c ∈ m.log ∨ W c.1
  final : ∀ a, Cells.read m'.mem a = Cells.read m.mem a ∨ ∃ x, Cells.read m'.mem a = some x ∧ (a, x) ∈ m'.log

theorem Wrote.refl (v : Env) (W : Nat → Prop) (m : Port) : Wrote v W m m := 
  ⟨fun _ _ => rfl, id, id, fun _ => id, fun _ => id, fun _ => .inl, fun _ => .inl rfl⟩

theorem Wrote.trans {v : Env} {W : Nat → Prop} {m m' m'' : Port} (h : Wrote v W m m') (h' : Wrote v W m' m'') :
    Wrote v W m m'' :=
  ⟨fun a ha => (h'.frame a ha).trans (h.frame a ha), h'.wf ∘ h.wf, h'.below ∘ h.below,
    fun a ha => h'.kept a (h.kept a ha), fun c hc => h'.grown c (h.grown c hc),
    fun c hc => (h'.logged c hc).elim (h.logged c) .inr, fun a => by
      rcases h'.final a with h2 | h2
      · rcases h.final a with h1 | ⟨x, h1, hx⟩
        · exact .inl (h2.trans h1)
        · exact .inr ⟨x, h2.trans h1, h'.grown _ hx⟩
      · exact .inr h2⟩

theorem Wrote.mono {v : Env} {W W' : Nat → Prop} {m m' : Port} (h : Wrote v W m m') (hW : ∀ a, W a → W' a) :
    Wrote v W' m m' :=
  ⟨fun a ha => h.frame a fun hw => ha (hW a hw), h.wf, h.below, h.kept, h.grown,
    fun c hc => (h.logged c hc).imp_right (hW c.1), h.final⟩

/-- The faults an engine that touches only `T`, from memory `m`, can raise: a read of a MEM byte of `T`
or of a table entry that is unwritten, or a byte of `T` that does not exist. -/
def FaultFrom (v : Env) (T : Nat → Prop) (m : Port) (f : Fault) : Prop :=
  (∃ a, f = .unwrittenRead .mem a ∧ T a ∧ a < v.params.memBytes ∧ Cells.read m.mem a = none) ∨
  (∃ l, f = .unwrittenRead .hcount l ∧ Cells.read v.hcount l = none) ∨
  (∃ j, f = .unwrittenRead .hsym j ∧ Cells.read v.hsym j = none) ∨
  ∃ a, f = .noSuchAddress a ∧ T a ∧ v.params.memBytes ≤ a

theorem FaultFrom.mono {v : Env} {T T' : Nat → Prop} {m m' : Port} {f : Fault} (h : FaultFrom v T m' f)
    (hT : ∀ a, T a → T' a) (hm : ∀ a, (Cells.read m.mem a).isSome = true → (Cells.read m'.mem a).isSome = true) :
    FaultFrom v T' m f := by
  rcases h with ⟨a, rfl, ha, hb, hn⟩ | h | h | ⟨a, rfl, ha, hb⟩
  · refine .inl ⟨a, rfl, hT a ha, hb, ?_⟩
    by_contra hc
    have := hm a (Option.isSome_iff_ne_none.mpr hc)
    simp [hn] at this
  · exact .inr (.inl h)
  · exact .inr (.inr (.inl h))
  · exact .inr (.inr (.inr ⟨a, rfl, hT a ha, hb⟩))

/-- A MEM read gives the byte written there, or faults. -/
theorem memRead_sat (v : Env) (m : Port) (a : Nat) {T : Nat → Prop} {R : Ending → Prop} (ha : T a) :
    (memRead v m a).Sat (fun b => Cells.read m.mem a = some b) R (FaultFrom v T m) := by
  unfold memRead
  split_ifs with h
  · cases hr : Cells.read m.mem a with
    | some b => exact rfl
    | none => exact .inl ⟨a, rfl, ha, h, hr⟩
  · exact .inr (.inr (.inr ⟨a, rfl, ha, not_lt.mp h⟩))

/-- A MEM write of an existing byte. -/
theorem memWrite_eq_ok {v : Env} {a : Nat} (m : Port) (b : Byte) (h : a < v.params.memBytes) :
    memWrite v m a b = .ok { mem := Cells.write m.mem a b, log := (a, b) :: m.log } := by
  simp [memWrite, h]

theorem memRead_eq_ok {v : Env} {m : Port} {a : Nat} {b : Byte} (h : a < v.params.memBytes)
    (hb : Cells.read m.mem a = some b) : memRead v m a = .ok b := by
  simp [memRead, h, hb]

/-- A MEM write changes one byte of `W`, or faults. -/
theorem memWrite_sat (v : Env) (m : Port) (a : Nat) (b : Byte) {W T : Nat → Prop} {R : Ending → Prop}
    (hw : W a) (ht : T a) : (memWrite v m a b).Sat (fun m' => Wrote v W m m') R (FaultFrom v T m) := by
  unfold memWrite
  split_ifs with h
  · refine ⟨fun x hx => ?_, fun hm => Memory.wf_write _ _ _ hm, fun hm => Cells.below_write _ _ _ _ hm h,
      fun x hx => ?_, fun c hc => List.mem_cons_of_mem _ hc, fun c hc => ?_, fun x => ?_⟩
    · exact Cells.read_write_of_ne _ _ fun he => hx (he ▸ hw)
    · by_cases he : x = a <;> simp [Cells.read_write, he, hx]
    · rcases List.mem_cons.mp hc with rfl | hc
      · exact .inr hw
      · exact .inl hc
    · by_cases he : x = a <;> simp [Cells.read_write, he]
  · exact .inr (.inr (.inr ⟨a, rfl, ht, not_lt.mp h⟩))

/-- What an action that touches only `T` and writes only inside `W`, from memory `m`, comes to: a value
that meets `A` with memory `q`, an ending that meets `G`, or a fault of such an action. -/
def Act.Within {α : Type} (v : Env) (W T : Nat → Prop) (m : Port) (q : α → Port) (A : α → Prop)
    (G : Ending → Prop) (x : Act α) : Prop :=
  x.Sat (fun a => A a ∧ Wrote v W m (q a)) (fun e => G e ∧ Wrote v W m e.port) (FaultFrom v T m)

section
variable {α β : Type} {v : Env} {W T : Nat → Prop} {m : Port} {q : α → Port} {q' : β → Port}
  {A : α → Prop} {B : β → Prop} {G : Ending → Prop} {x : Act α} {k : α → Act β}

/-- The rule for an action after another. -/
theorem Act.Within.bind (hx : x.Within v W T m q A G)
    (hk : ∀ a, A a → Wrote v W m (q a) → (k a).Within v W T (q a) q' B G) :
    (x.bind k).Within v W T m q' B G :=
  Act.Sat.bind hx fun a ha => (hk a ha.1 ha.2).mono (fun _ hb => ⟨hb.1, ha.2.trans hb.2⟩)
    (fun _ he => ⟨he.1, ha.2.trans he.2⟩) fun _ hf => hf.mono (fun _ h => h) ha.2.kept

/-- An action that only reads. -/
theorem Act.Within.of_read (hx : x.Sat A (fun y => G y ∧ y.port = m) (FaultFrom v T m)) :
    x.Within v W T m (fun _ => m) A G :=
  hx.mono (fun _ ha => ⟨ha, Wrote.refl v W m⟩) (fun _ he => ⟨he.1, he.2 ▸ Wrote.refl v W m⟩) fun _ h => h

theorem Act.Within.ok {a : α} (h : A a) (hw : Wrote v W m (q a)) : (Act.ok a).Within v W T m q A G := ⟨h, hw⟩

theorem Act.Within.mono {A' : α → Prop} {G' : Ending → Prop} {W' T' : Nat → Prop} (hx : x.Within v W T m q A G)
    (hW : ∀ a, W a → W' a) (hT : ∀ a, T a → T' a) (hA : ∀ a, A a → A' a) (hG : ∀ e, G e → G' e) :
    x.Within v W' T' m q A' G' :=
  Act.Sat.mono hx (fun a ha => ⟨hA a ha.1, ha.2.mono hW⟩) (fun e he => ⟨hG e he.1, he.2.mono hW⟩)
    fun _ hf => hf.mono hT fun _ h => h

end

theorem memWrite_within (v : Env) (m : Port) (a : Nat) (b : Byte) {W T : Nat → Prop} {G : Ending → Prop}
    (hw : W a) (ht : T a) : (memWrite v m a b).Within v W T m id (fun _ => True) G :=
  (memWrite_sat v m a b hw ht).mono (fun _ h => ⟨trivial, h⟩) (fun _ h => h) fun _ h => h

/-- A MEM write that goes on has written that byte and no other. -/
theorem memWrite_read {v : Env} {m m' : Port} {a : Nat} {b : Byte} (h : memWrite v m a b = .ok m') (x : Nat) :
    Cells.read m'.mem x = if x = a then some b else Cells.read m.mem x := by
  unfold memWrite at h
  split_ifs at h with hlt
  cases h
  exact Cells.read_write _ _ _ _

theorem memWriteBytes_within (v : Env) (bs : List Byte) (a : Nat) (m : Port) {W T : Nat → Prop} {G : Ending → Prop}
    (hw : ∀ x, a ≤ x → x < a + bs.length → W x) (ht : ∀ x, a ≤ x → x < a + bs.length → T x) :
    (memWriteBytes v a bs m).Within v W T m id (fun _ => True) G := by
  induction bs generalizing a m with
  | nil => exact .ok trivial (Wrote.refl v W m)
  | cons b bs ih =>
    simp only [List.length_cons] at hw ht
    refine (memWrite_within v m a b (hw a le_rfl (by omega)) (ht a le_rfl (by omega))).bind fun m' _ _ => ?_
    exact ih (a + 1) m' (fun x h1 h2 => hw x (by omega) (by omega)) fun x h1 h2 => ht x (by omega) (by omega)

/-- Writing bytes that goes on: each address of the range holds its byte, every other is unchanged. -/
theorem memWriteBytes_read {v : Env} {bs : List Byte} {a : Nat} {m m' : Port}
    (h : memWriteBytes v a bs m = .ok m') (x : Nat) :
    Cells.read m'.mem x = if a ≤ x ∧ x < a + bs.length then bs[x - a]? else Cells.read m.mem x := by
  induction bs generalizing a m with
  | nil => cases h; simp
  | cons b bs ih =>
    obtain ⟨m1, h1, h2⟩ := Act.bind_eq_ok.mp h
    rw [ih h2, memWrite_read h1]
    simp only [List.length_cons]
    rcases lt_trichotomy x a with hx | rfl | hx
    · rw [if_neg (by omega), if_neg (by omega), if_neg (by omega)]
    · rw [if_neg (by omega), if_pos rfl, if_pos (by omega)]; simp
    · by_cases hx' : x < a + (bs.length + 1)
      · rw [if_pos (by omega), if_pos (by omega), show x - a = (x - (a + 1)) + 1 by omega]; simp
      · rw [if_neg (by omega), if_neg (by omega), if_neg (by omega)]

/-- Bytes that exist can be written. -/
theorem memWriteBytes_eq_ok (v : Env) (bs : List Byte) (a : Nat) (m : Port)
    (h : a + bs.length ≤ v.params.memBytes) : ∃ m', memWriteBytes v a bs m = .ok m' := by
  induction bs generalizing a m with
  | nil => exact ⟨m, rfl⟩
  | cons b bs ih =>
    simp only [List.length_cons] at h
    simp only [memWriteBytes, memWrite_eq_ok m b (show a < v.params.memBytes by omega), Act.bind_ok]
    exact ih _ _ (by omega)

/-! ### Bits of a view -/

theorem bitPosition_lt (big : Bool) (i : Nat) : bitPosition big i < 8 := by
  unfold bitPosition; split_ifs <;> omega

theorem bitPosition_inj (big : Bool) {i j : Nat} (h : bitPosition big i = bitPosition big j) : i % 8 = j % 8 := by
  unfold bitPosition at h; split_ifs at h <;> omega

theorem getLsbD_withBit (x : Byte) {k j : Nat} (b : Bool) (hk : k < 8) (hj : j < 8) :
    (withBit x k b).getLsbD j = if j = k then b else x.getLsbD j := by
  unfold withBit
  cases b
  · simp only [Bool.false_eq_true, if_false, BitVec.getLsbD_and, BitVec.getLsbD_not, BitVec.getLsbD_shiftLeft,
      BitVec.getLsbD_one]
    split_ifs with h
    · subst h; simp [hj]
    · rcases Nat.lt_or_gt_of_ne h with h1 | h1
      · simp [hj, h1]
      · have : ¬ j < k := by omega
        have h2 : ¬ (0 = j - k) := by omega
        simp [hj, this, show j - k ≠ 0 by omega]
  · simp only [if_true, BitVec.getLsbD_or, BitVec.getLsbD_shiftLeft, BitVec.getLsbD_one]
    split_ifs with h
    · subst h; simp [hj]
    · rcases Nat.lt_or_gt_of_ne h with h1 | h1
      · simp [h1]
      · simp [show j - k ≠ 0 by omega]

/-- A view's bit, by the operation the engine finds it with. -/
theorem viewBit_eq (mem : List Host.Cell) (base : Nat) (big : Bool) (i : Nat) :
    viewBit mem base big i = (Cells.read mem (base + i / 8)).map fun x => x.getLsbD (bitPosition big i) := rfl

theorem getBit_sat (v : Env) (base : Nat) (big : Bool) (m : Port) (i : Nat) {T : Nat → Prop} {R : Ending → Prop}
    (ht : T (base + i / 8)) :
    (getBit v base big m i).Sat (fun b => viewBit m.mem base big i = some b) R (FaultFrom v T m) := by
  unfold getBit
  refine (memRead_sat v m _ ht).bind fun x hx => ?_
  simp [viewBit_eq, hx]

theorem getBit_eq_ok {v : Env} {base : Nat} {big : Bool} {m : Port} {i : Nat} {b : Bool}
    (h : base + i / 8 < v.params.memBytes) (hb : viewBit m.mem base big i = some b) :
    getBit v base big m i = .ok b := by
  rw [viewBit_eq] at hb
  obtain ⟨x, hx, rfl⟩ := Option.map_eq_some_iff.mp hb
  simp [getBit, memRead_eq_ok h hx]

theorem setBit_within (v : Env) (base : Nat) (big : Bool) (i : Nat) (b : Bool) (m : Port) {W T : Nat → Prop}
    {G : Ending → Prop} (hw : W (base + i / 8)) (ht : T (base + i / 8)) :
    (setBit v base big i b m).Within v W T m id (fun _ => True) G :=
  (Act.Within.of_read (G := G) (memRead_sat v m _ ht)).bind fun _ _ _ => memWrite_within v m _ _ hw ht

/-- `setbit` that goes on sets that bit of the view and leaves every other bit and byte. -/
theorem setBit_read {v : Env} {base : Nat} {big : Bool} {i : Nat} {b : Bool} {m m' : Port}
    (h : setBit v base big i b m = .ok m') :
    (∀ j, viewBit m'.mem base big j = if j = i then some b else viewBit m.mem base big j) ∧
      ∀ a, a ≠ base + i / 8 → Cells.read m'.mem a = Cells.read m.mem a := by
  obtain ⟨x, hx, hw⟩ := Act.bind_eq_ok.mp h
  have hx : Cells.read m.mem (base + i / 8) = some x := by
    have := memRead_sat (T := fun _ => True) (R := fun _ => True) v m (base + i / 8) trivial
    rwa [hx] at this
  refine ⟨fun j => ?_, fun a ha => by rw [memWrite_read hw, if_neg ha]⟩
  simp only [viewBit_eq, memWrite_read hw]
  by_cases hj : j / 8 = i / 8
  · simp only [hj, if_true, Option.map_some, hx]
    rw [getLsbD_withBit x b (bitPosition_lt big i) (bitPosition_lt big j)]
    by_cases hij : j = i
    · simp [hij]
    · have : bitPosition big j ≠ bitPosition big i := fun hp => hij (by have := bitPosition_inj big hp; omega)
      simp [this, hij]
  · have hij : j ≠ i := fun he => hj (by rw [he])
    simp [hj, hij]

/-- `setbit` of a written byte goes on, and every written byte stays written. -/
theorem setBit_eq_ok {v : Env} {base : Nat} {big : Bool} {i : Nat} (b : Bool) {m : Port}
    (h : base + i / 8 < v.params.memBytes) (hx : (Cells.read m.mem (base + i / 8)).isSome = true) :
    ∃ m', setBit v base big i b m = .ok m' := by
  obtain ⟨x, hx⟩ := Option.isSome_iff_exists.mp hx
  exact ⟨_, by simp only [setBit, memRead_eq_ok h hx, Act.bind_ok]; exact memWrite_eq_ok m _ h⟩

theorem setBits_within (v : Env) (base : Nat) (big : Bool) (bs : List Bool) (i : Nat) (m : Port)
    {W T : Nat → Prop} {G : Ending → Prop} (hw : ∀ j, i ≤ j → j < i + bs.length → W (base + j / 8))
    (ht : ∀ j, i ≤ j → j < i + bs.length → T (base + j / 8)) :
    (setBits v base big i bs m).Within v W T m id (fun _ => True) G := by
  induction bs generalizing i m with
  | nil => exact .ok trivial (Wrote.refl v W m)
  | cons b bs ih =>
    simp only [List.length_cons] at hw ht
    refine (setBit_within v base big i b m (hw i le_rfl (by omega)) (ht i le_rfl (by omega))).bind fun m' _ _ => ?_
    exact ih (i + 1) m' (fun j h1 h2 => hw j (by omega) (by omega)) fun j h1 h2 => ht j (by omega) (by omega)

/-- `setbit` of consecutive bits that goes on: each has its value, every other bit and byte stays. -/
theorem setBits_read {v : Env} {base : Nat} {big : Bool} {bs : List Bool} {i : Nat} {m m' : Port}
    (h : setBits v base big i bs m = .ok m') :
    (∀ j, viewBit m'.mem base big j =
        if i ≤ j ∧ j < i + bs.length then bs[j - i]? else viewBit m.mem base big j) ∧
      ∀ a, (∀ j, i ≤ j → j < i + bs.length → a ≠ base + j / 8) → Cells.read m'.mem a = Cells.read m.mem a := by
  induction bs generalizing i m with
  | nil => cases h; exact ⟨fun j => by simp, fun _ _ => rfl⟩
  | cons b bs ih =>
    obtain ⟨m1, h1, h2⟩ := Act.bind_eq_ok.mp h
    obtain ⟨hv2, hf2⟩ := ih h2
    obtain ⟨hv1, hf1⟩ := setBit_read h1
    simp only [List.length_cons]
    refine ⟨fun j => ?_, fun a ha => ?_⟩
    · rw [hv2, hv1]
      rcases lt_trichotomy j i with hj | rfl | hj
      · rw [if_neg (by omega), if_neg (by omega), if_neg (by omega)]
      · rw [if_neg (by omega), if_pos rfl, if_pos (by omega)]; simp
      · by_cases hj' : j < i + (bs.length + 1)
        · rw [if_pos (by omega), if_pos (by omega), show j - i = (j - (i + 1)) + 1 by omega]; simp
        · rw [if_neg (by omega), if_neg (by omega), if_neg (by omega)]
    · rw [hf2 a fun j hj1 hj2 => ha j (by omega) (by omega), hf1 a (ha i le_rfl (by omega))]

/-- `setbit` of consecutive bits of written bytes goes on. -/
theorem setBits_eq_ok (v : Env) (base : Nat) (big : Bool) (bs : List Bool) (i : Nat) (m : Port)
    (h : ∀ j, i ≤ j → j < i + bs.length →
      base + j / 8 < v.params.memBytes ∧ (Cells.read m.mem (base + j / 8)).isSome = true) :
    ∃ m', setBits v base big i bs m = .ok m' := by
  induction bs generalizing i m with
  | nil => exact ⟨m, rfl⟩
  | cons b bs ih =>
    simp only [List.length_cons] at h
    obtain ⟨m1, h1⟩ := setBit_eq_ok b (big := big) (h i le_rfl (by omega)).1 (h i le_rfl (by omega)).2
    have hk := setBit_within v base big i b m (W := fun _ => True) (T := fun _ => True) (G := fun _ => True)
      trivial trivial
    rw [h1] at hk
    obtain ⟨m2, h2⟩ := ih (i + 1) m1 fun j hj1 hj2 =>
      ⟨(h j (by omega) (by omega)).1, hk.2.kept _ (h j (by omega) (by omega)).2⟩
    exact ⟨m2, by simp [setBits, h1, h2]⟩

/-! ### The input cursor -/

/-- `rd()` gives an input byte, raises at the end of the input with RES_POS there, or faults. -/
theorem readInput_sat (v : Env) (eos : ErrCode) (pos : Nat) (m : Port) {T : Nat → Prop}
    (ht : ∀ k, k < v.regs.srcLen.toNat → T (v.regs.srcAddr.toNat + k)) :
    (readInput v eos pos m).Sat
      (fun b => pos < v.regs.srcLen.toNat ∧ Cells.read m.mem (v.regs.srcAddr.toNat + pos) = some b)
      (fun e => v.regs.srcLen.toNat ≤ pos ∧
        e = { code := eos, len := none, pos := some pos, endian := none, port := m })
      (FaultFrom v T m) := by
  unfold readInput
  split_ifs with h
  · exact ⟨h, rfl⟩
  · exact (memRead_sat v m _ (ht pos (by omega))).mono (fun _ hb => ⟨by omega, hb⟩) (fun _ h => h) fun _ h => h

theorem readInput_eq_ok {v : Env} {eos : ErrCode} {pos : Nat} {m : Port} {b : Byte}
    (h : pos < v.regs.srcLen.toNat) (ha : v.regs.srcAddr.toNat + pos < v.params.memBytes)
    (hb : Cells.read m.mem (v.regs.srcAddr.toNat + pos) = some b) : readInput v eos pos m = .ok b := by
  simp [readInput, not_le.mpr h, memRead_eq_ok ha hb]

/-- Reading `n` bytes little-endian: on success all of them were there; the end of the input leaves
the cursor at SRC_LEN. -/
theorem readLittleEndian_sat (v : Env) (eos : ErrCode) (n pos : Nat) (m : Port) {T : Nat → Prop}
    (ht : ∀ k, k < v.regs.srcLen.toNat → T (v.regs.srcAddr.toNat + k)) (hp : pos ≤ v.regs.srcLen.toNat) :
    (readLittleEndian v eos n pos m).Sat
      (fun i => pos + n ≤ v.regs.srcLen.toNat ∧ i < 256 ^ n)
      (fun e => e = { code := eos, len := none, pos := some v.regs.srcLen.toNat, endian := none, port := m })
      (FaultFrom v T m) := by
  induction n generalizing pos with
  | zero => exact ⟨hp, by simp⟩
  | succ n ih =>
    refine Act.Sat.bind ((readInput_sat v eos pos m ht).mono (fun _ h => h) (fun e h => ?_) fun _ h => h)
      fun b hb => ?_
    · have : pos = v.regs.srcLen.toNat := le_antisymm hp h.1
      rw [h.2, this]
    · refine (ih (pos + 1) (by omega)).bind fun rest hr => ?_
      refine ⟨by omega, ?_⟩
      have hb' := b.isLt
      have := hr.2
      rw [pow_succ]; omega

/-- The stream source is touched only where it is read. -/
def inSource (v : Env) (a : Nat) : Prop := v.regs.streamSource.holds a = true

theorem inSource_of_lt {v : Env} {k : Nat} (h : k < v.regs.srcLen.toNat) : inSource v (v.regs.srcAddr.toNat + k) := by
  simp [inSource, Region.holds, Regs.streamSource, h]

/-- What an error found in decoding a stream leaves to be written: RES_POS only, at most SRC_LEN, and SRC_LEN
where the input ended (R127, R170, R225). -/
def StreamErr (v : Env) (e : Ending) : Prop :=
  e.len = none ∧ e.endian = none ∧ e.code ≠ .ok ∧
    ∃ p, e.pos = some p ∧ p ≤ v.regs.srcLen.toNat ∧
      (e.code = .truncated ∨ e.code = .underflow → p = v.regs.srcLen.toNat)

/-- `rd()` as a read inside a decoder. -/
theorem readInput_within (v : Env) (eos : ErrCode) (pos : Nat) (m : Port) {W T : Nat → Prop}
    (ht : ∀ a, inSource v a → T a) (hp : pos ≤ v.regs.srcLen.toNat) (he : eos ≠ .ok) :
    (readInput v eos pos m).Within v W T m (fun _ => m)
      (fun b => pos < v.regs.srcLen.toNat ∧ Cells.read m.mem (v.regs.srcAddr.toNat + pos) = some b) (StreamErr v) :=
  .of_read ((readInput_sat v eos pos m fun _ hk => ht _ (inSource_of_lt hk)).mono (fun _ h => h)
    (fun e h => by obtain ⟨h1, rfl⟩ := h; exact ⟨⟨rfl, rfl, he, pos, rfl, hp, fun _ => by omega⟩, rfl⟩) fun _ h => h)

theorem readLittleEndian_within (v : Env) (eos : ErrCode) (n pos : Nat) (m : Port) {W T : Nat → Prop}
    (ht : ∀ a, inSource v a → T a) (hp : pos ≤ v.regs.srcLen.toNat) (he : eos ≠ .ok) :
    (readLittleEndian v eos n pos m).Within v W T m (fun _ => m)
      (fun i => pos + n ≤ v.regs.srcLen.toNat ∧ i < 256 ^ n) (StreamErr v) :=
  .of_read ((readLittleEndian_sat v eos n pos m (fun _ hk => ht _ (inSource_of_lt hk)) hp).mono (fun _ h => h)
    (fun e h => by rw [h]; exact ⟨⟨rfl, rfl, he, _, rfl, le_rfl, fun _ => rfl⟩, rfl⟩) fun _ h => h)

/-- An error raised at cursor `pos`. -/
theorem streamError_within {α : Type} (v : Env) (code : ErrCode) (pos : Nat) (m : Port) {W T : Nat → Prop}
    {q : α → Port} {A : α → Prop} (hp : pos ≤ v.regs.srcLen.toNat)
    (he : code ≠ .ok ∧ code ≠ .truncated ∧ code ≠ .underflow) :
    (Act.streamError code pos m : Act α).Within v W T m q A (StreamErr v) :=
  ⟨⟨rfl, rfl, he.1, pos, rfl, hp, fun h => by rcases h with h | h <;> simp_all⟩, Wrote.refl v W m⟩

/-! ### Regions and the bytes an error leaves unspecified -/

theorem Region.holds_iff (r : Region) (a : Nat) : r.holds a = true ↔ r.base ≤ a ∧ a < r.base + r.size := by
  simp [Region.holds]

/-- Writing cells that exist changes only their bytes. -/
theorem wrote_foldl (v : Env) (cs : List Host.Cell) (m : Port) {W : Nat → Prop}
    (h : ∀ c ∈ cs, W c.1 ∧ c.1 < v.params.memBytes) :
    Wrote v W m (cs.foldl (fun m c => { mem := Cells.write m.mem c.1 c.2, log := c :: m.log }) m) := by
  induction cs generalizing m with
  | nil => exact Wrote.refl v W m
  | cons c cs ih =>
    obtain ⟨hw, hb⟩ := h c (by simp)
    have h1 := memWrite_sat (R := fun _ => True) v m c.1 c.2 hw hw
    rw [memWrite_eq_ok m c.2 hb] at h1
    exact h1.trans (ih _ fun c' hc' => h c' (by simp [hc']))

/-- An unspecified destination (R127): only bytes of the destination region change. -/
theorem spoil_wrote (v : Env) (m : Port) : Wrote v (fun a => v.regs.destination.holds a = true) m (m.spoil v) := by
  refine wrote_foldl v _ m fun c hc => ?_
  simp only [spoiledBytes, List.mem_map, List.mem_filter, List.mem_range, decide_eq_true_eq] at hc
  obtain ⟨k, ⟨hk, hb⟩, rfl⟩ := hc
  exact ⟨by simp [Region.holds_iff, hk], hb⟩

/-- After an error with the destination unspecified, what holds of the ending still holds of it with
the destination's bytes changed. -/
theorem Act.Sat.spoil {α : Type} {x : Act α} {v : Env} {Q : α → Prop} {R R' : Ending → Prop} {F : Fault → Prop}
    (h : x.Sat Q R F) (hR : ∀ e, R e → R' { e with port := e.port.spoil v }) :
    (Act.spoilOnError v x).Sat Q R' F := by
  cases x with
  | ok a => exact h
  | raise e => exact hR e h
  | fault f p => exact h

end Sys2Proof.Machine
end

