-- ==== Sys2Proof/Laws/Bits.lean ====
section
/-! SUPPORT. What POPCOUNT's and BITREV's loops do (spec/41_bit_primitives.md R140, R147). -/

namespace Sys2Proof.Machine

/-- The byte of a view's bit lies in the view's bytes. -/
theorem view_byte_lt {i n : Nat} (h : i < n) : i / 8 < bytesNeeded n := by
  unfold bytesNeeded; omega

/-- POPCOUNT reads only its view and goes on without writing. -/
theorem popcountLoop_within (v : Env) (send : Bool) (n : Nat) (w : PopWork) (m : Port) {W T : Nat → Prop}
    {G : Ending → Prop} (ht : ∀ i, i < v.regs.arg1.toNat → T (v.regs.srcAddr.toNat + i / 8)) :
    (popcountLoop v send n w m).Within v W T m (fun _ => m) (fun _ => True) G := by
  induction n generalizing w with
  | zero => exact .ok trivial (Wrote.refl v W m)
  | succ n ih =>
    unfold popcountLoop
    split_ifs with h
    · exact (Act.Within.of_read (getBit_sat v _ send m w.next (ht _ h))).bind fun _ _ _ => ih _
    · exact .ok trivial (Wrote.refl v W m)

theorem popcountFrom_within (v : Env) (send : Bool) (w : PopWork) (m : Port) {W T : Nat → Prop}
    {G : Ending → Prop} (ht : ∀ i, i < v.regs.arg1.toNat → T (v.regs.srcAddr.toNat + i / 8)) :
    (popcountFrom v send w m).Within v W T m Ending.port
      (fun e => e.code = .ok ∧ e.pos = none ∧ e.endian = none ∧ e.port = m) G :=
  (popcountLoop_within v send _ w m ht).bind fun _ _ _ => .ok ⟨rfl, rfl, rfl, rfl⟩ (Wrote.refl v W m)

/-- R140's sum: with the bits of the view at the positions `w.next`, `w.next + step`, .. below stop all
written, the loop adds the ones among the first `n` of them. -/
theorem popcountLoop_eq_ok (v : Env) (send : Bool) (bit : Nat → Bool) (n : Nat) (w : PopWork) (m : Port)
    (hb : ∀ k, w.next + k * v.regs.arg2.toNat < v.regs.arg1.toNat →
      v.regs.srcAddr.toNat + (w.next + k * v.regs.arg2.toNat) / 8 < v.params.memBytes ∧
      viewBit m.mem v.regs.srcAddr.toNat send (w.next + k * v.regs.arg2.toNat) =
        some (bit (w.next + k * v.regs.arg2.toNat))) :
    popcountLoop v send n w m = .ok (w.count + ((List.range n).filter fun k =>
      decide (w.next + k * v.regs.arg2.toNat < v.regs.arg1.toNat) && bit (w.next + k * v.regs.arg2.toNat)).length) := by
  induction n generalizing w with
  | zero => simp [popcountLoop]
  | succ n ih =>
    unfold popcountLoop
    split_ifs with h
    · have h0 := hb 0 (by simpa using h)
      simp only [Nat.zero_mul, Nat.add_zero] at h0
      have hn : ∀ k, w.next + v.regs.arg2.toNat + k * v.regs.arg2.toNat = w.next + (k + 1) * v.regs.arg2.toNat :=
        fun k => by rw [Nat.succ_mul]; omega
      rw [getBit_eq_ok h0.1 h0.2, Act.bind_ok, ih _ (fun k hk => by dsimp only at hk ⊢; rw [hn] at hk ⊢; exact hb _ hk),
        List.range_succ_eq_map, List.filter_cons]
      simp only [Nat.zero_mul, Nat.add_zero, h, decide_true, Bool.true_and, List.filter_map]
      have hf : ((List.range n).filter ((fun k => decide (w.next + k * v.regs.arg2.toNat < v.regs.arg1.toNat) &&
            bit (w.next + k * v.regs.arg2.toNat)) ∘ Nat.succ)) =
          (List.range n).filter fun k => decide (w.next + v.regs.arg2.toNat + k * v.regs.arg2.toNat < v.regs.arg1.toNat) &&
            bit (w.next + v.regs.arg2.toNat + k * v.regs.arg2.toNat) := by
        refine List.filter_congr fun k _ => ?_
        simp only [Function.comp, Nat.succ_mul]
        rw [show w.next + (k * v.regs.arg2.toNat + v.regs.arg2.toNat) =
          w.next + v.regs.arg2.toNat + k * v.regs.arg2.toNat by omega]
      rw [hf]
      cases bit w.next <;> simp; omega
    · have : (List.range (n + 1)).filter (fun k => decide (w.next + k * v.regs.arg2.toNat < v.regs.arg1.toNat) &&
          bit (w.next + k * v.regs.arg2.toNat)) = [] := by
        refine List.filter_eq_nil_iff.mpr fun k _ => ?_
        have : ¬ w.next + k * v.regs.arg2.toNat < v.regs.arg1.toNat := by omega
        simp [this]
      rw [this]; simp

/-- BITREV writes only the bytes of its range. -/
theorem bitrevLoop_within (v : Env) (n k : Nat) (m : Port) {W T : Nat → Prop} {G : Ending → Prop}
    (hw : ∀ j, k ≤ j → j < k + n → W (v.regs.srcAddr.toNat + j))
    (ht : ∀ j, k ≤ j → j < k + n → T (v.regs.srcAddr.toNat + j)) :
    (bitrevLoop v n k m).Within v W T m id (fun _ => True) G := by
  induction n generalizing k m with
  | zero => exact .ok trivial (Wrote.refl v W m)
  | succ n ih =>
    refine (Act.Within.of_read (G := G) (memRead_sat v m _ (ht k le_rfl (by omega)))).bind fun b _ _ => ?_
    refine (memWrite_within v m _ _ (hw k le_rfl (by omega)) (ht k le_rfl (by omega))).bind fun m' _ _ => ?_
    exact ih (k + 1) m' (fun j h1 h2 => hw j (by omega) (by omega)) fun j h1 h2 => ht j (by omega) (by omega)

theorem bitrevFrom_within (v : Env) (w : RevWork) (m : Port) {W T : Nat → Prop} {G : Ending → Prop}
    (hw : ∀ j, w.next ≤ j → j < v.regs.arg1.toNat → W (v.regs.srcAddr.toNat + j))
    (ht : ∀ j, w.next ≤ j → j < v.regs.arg1.toNat → T (v.regs.srcAddr.toNat + j)) :
    (bitrevFrom v w m).Within v W T m Ending.port
      (fun e => e.code = .ok ∧ e.len = none ∧ e.pos = none ∧ e.endian = none) G :=
  (bitrevLoop_within v _ w.next m (fun j h1 h2 => hw j h1 (by omega)) fun j h1 h2 => ht j h1 (by omega)).bind
    fun m' _ _ => .ok ⟨rfl, rfl, rfl, rfl⟩ (Wrote.refl v W m')

/-- R147: with the bytes of the range written, each is replaced by its reverse, and no other changes. -/
theorem bitrevLoop_eq_ok (v : Env) (n k : Nat) (m : Port)
    (h : ∀ j, k ≤ j → j < k + n → v.regs.srcAddr.toNat + j < v.params.memBytes ∧
      (Cells.read m.mem (v.regs.srcAddr.toNat + j)).isSome = true) :
    ∃ m', bitrevLoop v n k m = .ok m' ∧ ∀ a, Cells.read m'.mem a =
      if v.regs.srcAddr.toNat + k ≤ a ∧ a < v.regs.srcAddr.toNat + k + n then (Cells.read m.mem a).map rev8
      else Cells.read m.mem a := by
  induction n generalizing k m with
  | zero => exact ⟨m, rfl, fun a => by rw [if_neg (by omega)]⟩
  | succ n ih =>
    obtain ⟨hlt, hsome⟩ := h k le_rfl (by omega)
    obtain ⟨x, hx⟩ := Option.isSome_iff_exists.mp hsome
    obtain ⟨m', hm', hr⟩ := ih (k + 1)
      { mem := Cells.write m.mem (v.regs.srcAddr.toNat + k) (rev8 x),
        log := (v.regs.srcAddr.toNat + k, rev8 x) :: m.log } fun j h1 h2 =>
      ⟨(h j (by omega) (by omega)).1, by
        rw [Cells.read_write_of_ne _ _ (by omega)]; exact (h j (by omega) (by omega)).2⟩
    refine ⟨m', by simp [bitrevLoop, memRead_eq_ok hlt hx, memWrite_eq_ok m _ hlt, hm'], fun a => ?_⟩
    rw [hr]
    by_cases ha : a = v.regs.srcAddr.toNat + k
    · subst ha; rw [if_neg (by omega), if_pos (by omega)]; simp [hx]
    · rw [Cells.read_write_of_ne _ _ ha]
      by_cases hin : v.regs.srcAddr.toNat + (k + 1) ≤ a ∧ a < v.regs.srcAddr.toNat + (k + 1) + n
      · rw [if_pos hin, if_pos (by omega)]
      · rw [if_neg hin, if_neg (by omega)]

end Sys2Proof.Machine
end

