-- ==== Sys2Proof/Laws/Sparse.lean ====
section
/-! SUPPORT. What SC_DECODE and its blocks do (spec/42_sparse_decode.md): where they write, how they end, and
what a finished decode leaves (R128, R129, R170). -/

namespace Sys2Proof.Machine

/-- The bytes of the decoded buffer. -/
def inBuffer (v : Env) (w : ScWork) (a : Nat) : Prop :=
  v.regs.dstAddr.toNat ≤ a ∧ a < v.regs.dstAddr.toNat + bytesNeeded w.length

theorem inBuffer_bit (v : Env) (w : ScWork) {i : Nat} (h : i < 8 * bytesNeeded w.length) :
    inBuffer v w (v.regs.dstAddr.toNat + i / 8) := ⟨by omega, by omega⟩

theorem inBuffer_congr {v : Env} {w w' : ScWork} (h : w'.length = w.length) (a : Nat) :
    inBuffer v w' a ↔ inBuffer v w a := by simp [inBuffer, h]

/-- Two working states of one decode: header fields alike. -/
def SameStream (w w' : ScWork) : Prop := w'.length = w.length ∧ w'.endian = w.endian ∧ w'.lenBytes = w.lenBytes

theorem copyRaw_within (v : Env) (n pos k : Nat) (m : Port) {W T : Nat → Prop}
    (hs : ∀ a, inSource v a → T a) (hp : pos ≤ v.regs.srcLen.toNat)
    (hw : ∀ j, k ≤ j → j < k + n → W (v.regs.dstAddr.toNat + j))
    (ht : ∀ j, k ≤ j → j < k + n → T (v.regs.dstAddr.toNat + j)) :
    (copyRaw v n pos k m).Within v W T m id (fun _ => pos + n ≤ v.regs.srcLen.toNat) (StreamErr v) := by
  induction n generalizing pos k m with
  | zero => exact .ok hp (Wrote.refl v W m)
  | succ n ih =>
    refine (readInput_within v .truncated pos m hs hp (by decide)).bind fun b hb _ => ?_
    refine (memWrite_within v m _ _ (hw k le_rfl (by omega)) (ht k le_rfl (by omega))).bind fun m' _ _ => ?_
    exact (ih (pos + 1) (k + 1) m' (by omega) (fun j h1 h2 => hw j (by omega) (by omega))
      fun j h1 h2 => ht j (by omega) (by omega)).mono (fun _ h => h) (fun _ h => h) (fun _ h => by omega) fun _ h => h

theorem setIndices_within (v : Env) (k n : Nat) (w : ScWork) (m : Port) {W T : Nat → Prop}
    (hs : ∀ a, inSource v a → T a) (hp : w.pos ≤ v.regs.srcLen.toNat)
    (hw : ∀ a, inBuffer v w a → W a) (ht : ∀ a, inBuffer v w a → T a) :
    (setIndices v k n w m).Within v W T m (fun r => r.2)
      (fun r => r.1 = { w with pos := w.pos + k * n } ∧ w.pos + k * n ≤ v.regs.srcLen.toNat) (StreamErr v) := by
  induction n generalizing w m with
  | zero => exact .ok ⟨by simp, by simpa using hp⟩ (Wrote.refl v W m)
  | succ n ih =>
    refine (readLittleEndian_within v .truncated k w.pos m hs hp (by decide)).bind fun i hi _ => ?_
    split_ifs with hlt
    · exact streamError_within v .badBlock (w.pos + k) m hi.1 (by decide)
    · have hb : inBuffer v w (v.regs.dstAddr.toNat + (8 * w.offset + i) / 8) :=
        inBuffer_bit v w (by unfold bytesNeeded; omega)
      refine (setBit_within v _ w.endian _ true m (hw _ hb) (ht _ hb)).bind fun m' _ _ => ?_
      refine (ih { w with pos := w.pos + k } m' hi.1 hw ht).mono (fun _ h => h) (fun _ h => h) (fun r h => ?_)
        fun _ h => h
      have : w.pos + k + k * n = w.pos + k * (n + 1) := by rw [Nat.mul_succ]; omega
      simpa [this] using h

theorem indexCount_within (v : Env) (count : Option Nat) (w : ScWork) (m : Port) {W T : Nat → Prop}
    (hs : ∀ a, inSource v a → T a) (hp : w.pos ≤ v.regs.srcLen.toNat) :
    (indexCount v count w m).Within v W T m (fun _ => m)
      (fun r => SameStream w r.2 ∧ w.pos ≤ r.2.pos ∧ r.2.pos ≤ v.regs.srcLen.toNat ∧ r.2.offset = w.offset)
      (StreamErr v) := by
  unfold indexCount
  cases count with
  | some c => exact .ok ⟨⟨rfl, rfl, rfl⟩, le_rfl, hp, rfl⟩ (Wrote.refl v W m)
  | none =>
    refine (readInput_within v .truncated w.pos m hs hp (by decide)).bind fun c hc _ => ?_
    exact .ok ⟨⟨rfl, rfl, rfl⟩, by simp, by simp; omega, rfl⟩ (Wrote.refl v W m)

theorem rawBlock_within (v : Env) (size : Nat) (w : ScWork) (m : Port) {W T : Nat → Prop}
    (hs : ∀ a, inSource v a → T a) (hp : w.pos ≤ v.regs.srcLen.toNat)
    (hw : ∀ a, inBuffer v w a → W a) (ht : ∀ a, inBuffer v w a → T a) :
    (rawBlock v size w m).Within v W T m (fun r => r.2)
      (fun r => SameStream w r.1 ∧ w.pos ≤ r.1.pos ∧ r.1.pos ≤ v.regs.srcLen.toNat) (StreamErr v) := by
  unfold rawBlock
  split_ifs with h
  · exact streamError_within v .badBlock w.pos m hp (by decide)
  · refine (copyRaw_within v size w.pos w.offset m hs hp (fun j h1 h2 => hw _ ⟨by omega, by omega⟩)
      fun j h1 h2 => ht _ ⟨by omega, by omega⟩).bind fun m' hm' _ => ?_
    exact .ok ⟨⟨rfl, rfl, rfl⟩, by simp, hm'⟩ (Wrote.refl v W m')

theorem indexBlock_within (v : Env) (k : Nat) (count : Option Nat) (w : ScWork) (m : Port) {W T : Nat → Prop}
    (hs : ∀ a, inSource v a → T a) (hp : w.pos ≤ v.regs.srcLen.toNat)
    (hw : ∀ a, inBuffer v w a → W a) (ht : ∀ a, inBuffer v w a → T a) :
    (indexBlock v k count w m).Within v W T m (fun r => r.2)
      (fun r => SameStream w r.1 ∧ w.pos ≤ r.1.pos ∧ r.1.pos ≤ v.regs.srcLen.toNat) (StreamErr v) := by
  refine (indexCount_within v count w m hs hp).bind fun cw hc _ => ?_
  obtain ⟨⟨hl, he, hn⟩, h1, h2, _⟩ := hc
  refine (setIndices_within v k cw.1 cw.2 m hs h2 (fun a ha => hw a ((inBuffer_congr hl a).mp ha))
    fun a ha => ht a ((inBuffer_congr hl a).mp ha)).bind fun r hr _ => ?_
  obtain ⟨hr, hle⟩ := hr
  refine .ok ⟨⟨?_, ?_, ?_⟩, ?_, ?_⟩ (Wrote.refl v W _) <;> simp [hr, hl, he, hn]
  · exact le_trans h1 (Nat.le_add_right _ _)
  · exact hle

/-- How a finished SC_DECODE ends: OK, with L, E and the cursor, and the pad bits 0 (R129, R169). -/
def SparseOk (v : Env) (w : ScWork) (e : Ending) : Prop :=
  e.code = .ok ∧ e.len = some w.length ∧ e.endian = some w.endian ∧
    (∃ p, e.pos = some p ∧ w.pos ≤ p ∧ p ≤ v.regs.srcLen.toNat) ∧
    ∀ j, w.length ≤ j → j < 8 * bytesNeeded w.length →
      viewBit e.port.mem v.regs.dstAddr.toNat w.endian j = some false

theorem sparseDone_sat (v : Env) (w : ScWork) (m : Port) {T : Nat → Prop} {R : Ending → Prop}
    (hp : w.pos ≤ v.regs.srcLen.toNat) (ht : ∀ a, inBuffer v w a → T a) :
    (sparseDone v w m).Sat (fun e => SparseOk v w e ∧ Wrote v (inBuffer v w) m e.port) R (FaultFrom v T m) := by
  have hin : ∀ j, w.length ≤ j → j < w.length + (List.replicate (8 * bytesNeeded w.length - w.length) false).length →
      inBuffer v w (v.regs.dstAddr.toNat + j / 8) := fun j h1 h2 => by
    simp only [List.length_replicate] at h2
    exact inBuffer_bit v w (by omega)
  have h := setBits_within (G := fun _ => False) v v.regs.dstAddr.toNat w.endian
    (List.replicate (8 * bytesNeeded w.length - w.length) false) w.length m hin fun j h1 h2 => ht _ (hin j h1 h2)
  unfold sparseDone
  cases hx : setBits v v.regs.dstAddr.toNat w.endian w.length
      (List.replicate (8 * bytesNeeded w.length - w.length) false) m with
  | ok m' =>
    rw [hx] at h
    refine ⟨⟨rfl, rfl, rfl, ⟨w.pos, rfl, le_rfl, hp⟩, fun j h1 h2 => ?_⟩, h.2⟩
    have := (setBits_read hx).1 j
    rw [if_pos (by simp only [List.length_replicate]; omega), List.getElem?_replicate, if_pos (by omega)] at this
    exact this
  | raise e => rw [hx] at h; exact h.1.elim
  | fault f p => rw [hx] at h; exact h

theorem SparseOk.congr {v : Env} {w w' : ScWork} {e : Ending} (h : SparseOk v w' e) (hs : SameStream w w')
    (hp : w.pos ≤ w'.pos) : SparseOk v w e := by
  obtain ⟨h1, h2, h3, ⟨p, h4, h5, h6⟩, h7⟩ := h
  obtain ⟨hl, he, -⟩ := hs
  rw [hl] at h2 h7
  rw [he] at h3 h7
  exact ⟨h1, h2, h3, ⟨p, h4, by omega, h6⟩, h7⟩

theorem sparseCovered_sat (v : Env) (w : ScWork) (m : Port) {T : Nat → Prop} {R : Ending → Prop}
    (hs : ∀ a, inSource v a → T a) (hp : w.pos ≤ v.regs.srcLen.toNat) (ht : ∀ a, inBuffer v w a → T a) :
    (sparseCovered v w m).Sat (fun e => SparseOk v w e ∧ Wrote v (inBuffer v w) m e.port) R (FaultFrom v T m) := by
  unfold sparseCovered
  split_ifs with h
  · exact sparseDone_sat v w m hp ht
  · refine Act.Sat.bind (memRead_sat v m _ (hs _ (inSource_of_lt (k := w.pos) (by omega)))) fun b _ => ?_
    split_ifs with hb
    · refine (sparseDone_sat v { w with pos := w.pos + 1 } m (by simp; omega) ht).mono (fun e he => ?_)
        (fun _ h => h) fun _ h => h
      exact ⟨he.1.congr ⟨rfl, rfl, rfl⟩ (by simp), he.2⟩
    · exact sparseDone_sat v w m hp ht

/-- The bytes an SC_DECODE may change: the decoded buffer and, after an error, the destination region. -/
def sparseWrites (v : Env) (w : ScWork) (a : Nat) : Prop := inBuffer v w a ∨ v.regs.destination.holds a = true

/-- How a decode in the block loop ends by an error (R127, R170). -/
def SparseErr (v : Env) (w : ScWork) (m : Port) (e : Ending) : Prop :=
  StreamErr v e ∧ Wrote v (sparseWrites v w) m e.port

/-- How a decode in the block loop ends well (R128, R129, R169). -/
def SparseEnd (v : Env) (w : ScWork) (m : Port) (e : Ending) : Prop :=
  SparseOk v w e ∧ Wrote v (inBuffer v w) m e.port

/-- What a turn of the block loop comes to. -/
def BlockNext.Sat (v : Env) (T : Nat → Prop) (w : ScWork) (m : Port) (pos : Nat) : BlockNext → Prop
  | .loop w' m' => SameStream w w' ∧ pos ≤ w'.pos ∧ w'.pos ≤ v.regs.srcLen.toNat ∧ Wrote v (inBuffer v w) m m'
  | .ended x => x.Sat (SparseEnd v w m) (SparseErr v w m) (FaultFrom v T m)

theorem spoil_sparseErr {v : Env} {w : ScWork} {m : Port} {e : Ending} (h : StreamErr v e)
    (hw : Wrote v (inBuffer v w) m e.port) : SparseErr v w m { e with port := e.port.spoil v } :=
  ⟨h, (hw.mono fun _ h => .inl h).trans ((spoil_wrote v e.port).mono fun _ h => .inr h)⟩

theorem BlockNext.ofAct_sat {v : Env} {T : Nat → Prop} {w : ScWork} {m : Port} {x : Act (ScWork × Port)}
    (h : x.Within v (inBuffer v w) T m (fun r => r.2)
      (fun r => SameStream w r.1 ∧ w.pos ≤ r.1.pos ∧ r.1.pos ≤ v.regs.srcLen.toNat) (StreamErr v)) :
    (BlockNext.ofAct v x).Sat v T w m w.pos := by
  cases x with
  | ok r => exact ⟨h.1.1, h.1.2.1, h.1.2.2, h.2⟩
  | raise e => exact spoil_sparseErr h.1 h.2
  | fault f p => exact h

/-- One block, its header read: the loop goes on with the cursor no earlier, or the command ends. -/
theorem sparseBlock_sat (v : Env) (c : BlockClass) (w : ScWork) (m : Port) {T : Nat → Prop}
    (hs : ∀ a, inSource v a → T a) (hp : w.pos ≤ v.regs.srcLen.toNat) (ht : ∀ a, inBuffer v w a → T a) :
    (sparseBlock v c w m).Sat v T w m w.pos := by
  cases c with
  | term => exact (sparseDone_sat v w m hp ht).mono (fun _ h => h) (fun _ h => h) fun _ h => h
  | raw size => exact BlockNext.ofAct_sat (rawBlock_within v size w m hs hp (fun _ h => h) ht)
  | sparse k count => exact BlockNext.ofAct_sat (indexBlock_within v k count w m hs hp (fun _ h => h) ht)
  | reserved => exact BlockNext.ofAct_sat (streamError_within v .badBlock w.pos m hp (by decide))

/-- The head of the loop: a header byte of the input, or the end of the command. -/
theorem sparseHead_cases (v : Env) (w : ScWork) (m : Port) {T : Nat → Prop}
    (hs : ∀ a, inSource v a → T a) (hp : w.pos ≤ v.regs.srcLen.toNat) (ht : ∀ a, inBuffer v w a → T a) :
    (∃ h, sparseHead v w m = .header h ∧ w.covered = false ∧ w.pos < v.regs.srcLen.toNat ∧
        Cells.read m.mem (v.regs.srcAddr.toNat + w.pos) = some h) ∨
      ∃ x, sparseHead v w m = .ended x ∧ x.Sat (SparseEnd v w m) (SparseErr v w m) (FaultFrom v T m) := by
  unfold sparseHead
  split_ifs with hc
  · exact .inr ⟨_, rfl, sparseCovered_sat v w m hs hp ht⟩
  · have h := readInput_within (W := inBuffer v w) v .truncated w.pos m hs hp (by decide)
    cases hr : readInput v .truncated w.pos m with
    | ok b => rw [hr] at h; exact .inl ⟨b, rfl, by simpa using hc, h.1⟩
    | raise e => rw [hr] at h; exact .inr ⟨_, rfl, spoil_sparseErr h.1 h.2⟩
    | fault f p => rw [hr] at h; exact .inr ⟨_, rfl, h⟩

/-- One turn: back at the head with at least one byte more consumed, or the end of the command. -/
theorem sparseTurn_sat (v : Env) (w : ScWork) (m : Port) {T : Nat → Prop}
    (hs : ∀ a, inSource v a → T a) (hp : w.pos ≤ v.regs.srcLen.toNat) (ht : ∀ a, inBuffer v w a → T a) :
    (sparseTurn v w m).Sat v T w m (w.pos + 1) := by
  unfold sparseTurn
  rcases sparseHead_cases v w m hs hp ht with ⟨h, hh, -, hlt, -⟩ | ⟨x, hx, hsat⟩
  · rw [hh]
    have hb := sparseBlock_sat v (blockClass h) { w with pos := w.pos + 1 } m hs (by simp; omega) ht
    dsimp only at hb ⊢
    cases hn : sparseBlock v (blockClass h) { w with pos := w.pos + 1 } m with
    | loop w' m' => rw [hn] at hb; exact hb
    | ended x =>
      rw [hn] at hb
      exact Act.Sat.mono hb (fun e he => ⟨he.1.congr ⟨rfl, rfl, rfl⟩ (by simp), he.2⟩) (fun _ h => h) fun _ h => h
  · rw [hx]; exact hsat

/-- R163's loop ends as its turns end: OK with the pad bits 0, or with an error. -/
theorem sparseLoop_sat (v : Env) (n : Nat) (w : ScWork) (m : Port) {T : Nat → Prop}
    (hs : ∀ a, inSource v a → T a) (hp : w.pos ≤ v.regs.srcLen.toNat) (hn : v.regs.srcLen.toNat ≤ w.pos + n)
    (ht : ∀ a, inBuffer v w a → T a) :
    (sparseLoop v n w m).Sat (SparseEnd v w m) (SparseErr v w m) (FaultFrom v T m) := by
  induction n generalizing w m with
  | zero =>
    unfold sparseLoop
    rcases sparseHead_cases v w m hs hp ht with ⟨h, -, -, hlt, -⟩ | ⟨x, hx, hsat⟩
    · omega
    · rw [hx]; exact hsat
  | succ n ih =>
    unfold sparseLoop
    have h := sparseTurn_sat v w m hs hp ht
    cases hx : sparseTurn v w m with
    | ended x => rw [hx] at h; exact h
    | loop w' m' =>
      rw [hx] at h
      obtain ⟨hs', h1, h2, hw⟩ := h
      have hb : ∀ a, inBuffer v w' a ↔ inBuffer v w a := inBuffer_congr hs'.1
      refine (ih w' m' h2 (by omega) fun a ha => ht a ((hb a).mp ha)).mono (fun e he => ?_) (fun e he => ?_)
        fun f hf => hf.mono (fun _ h => h) hw.kept
      · exact ⟨he.1.congr hs' (by omega), hw.trans (he.2.mono fun a ha => (hb a).mp ha)⟩
      · exact ⟨he.1, (hw.mono fun _ h => .inl h).trans (he.2.mono fun a ha => by
          rcases ha with ha | ha
          · exact .inl ((hb a).mp ha)
          · exact .inr ha)⟩

/-- Once the loop has a bound that covers the input left, a larger one changes nothing (R300). -/
theorem sparseLoop_bound (v : Env) (n n' : Nat) (w : ScWork) (m : Port) (hp : w.pos ≤ v.regs.srcLen.toNat)
    (hn : v.regs.srcLen.toNat ≤ w.pos + n) (hn' : v.regs.srcLen.toNat ≤ w.pos + n') :
    sparseLoop v n w m = sparseLoop v n' w m := by
  have hall : ∀ a, inSource v a → (fun _ : Nat => True) a := fun _ _ => trivial
  have hzero : ∀ (n' : Nat) (w : ScWork) (m : Port), v.regs.srcLen.toNat ≤ w.pos → w.pos ≤ v.regs.srcLen.toNat →
      sparseLoop v 0 w m = sparseLoop v n' w m := by
    intro n' w m h1 h2
    rcases sparseHead_cases v w m hall h2 (fun _ _ => trivial) with ⟨h, -, -, hlt, -⟩ | ⟨x, hx, -⟩
    · omega
    · cases n' with
      | zero => rfl
      | succ k => simp [sparseLoop, sparseTurn, hx]
  induction n generalizing n' w m with
  | zero => exact hzero n' w m (by omega) hp
  | succ n ih =>
    cases n' with
    | zero => exact (hzero (n + 1) w m (by omega) hp).symm
    | succ n' =>
      simp only [sparseLoop]
      have h := sparseTurn_sat v w m hall hp fun _ _ => trivial
      cases hx : sparseTurn v w m with
      | ended x => rfl
      | loop w' m' => rw [hx] at h; obtain ⟨-, h1, h2, -⟩ := h; exact ih n' w' m' h2 (by omega) (by omega)

/-- R161: a header that goes on is inside the input and starts the decode at offset 0. -/
theorem sparseHeader_within (v : Env) (m : Port) {W T : Nat → Prop} (hs : ∀ a, inSource v a → T a) :
    (sparseHeader v m).Within v W T m (fun _ => m)
      (fun w => w.offset = 0 ∧ w.pos = 1 + w.lenBytes ∧ w.pos ≤ v.regs.srcLen.toNat) (StreamErr v) := by
  refine (readInput_within v .truncated 0 m hs (Nat.zero_le _) (by decide)).bind fun h hh _ => ?_
  split_ifs with hbad
  · exact streamError_within v .badHeader 1 m (by omega) (by decide)
  · refine (readLittleEndian_within v .truncated _ 1 m hs (by omega) (by decide)).bind fun l hl _ => ?_
    exact .ok ⟨rfl, rfl, hl.1⟩ (Wrote.refl v W m)

/-- R162: past the capacity check the decoded buffer fits the destination region and is zeroed. -/
theorem sparseOpen_within (v : Env) (w : ScWork) (m : Port) {T : Nat → Prop}
    (hp : w.pos ≤ v.regs.srcLen.toNat) (ht : ∀ a, v.regs.destination.holds a = true → T a) :
    (sparseOpen v w m).Within v (fun a => v.regs.destination.holds a = true) T m id
      (fun _ => w.length ≤ 2 ^ 32 - 1 ∧ bytesNeeded w.length ≤ v.regs.dstCap.toNat) (StreamErr v) := by
  unfold sparseOpen
  split_ifs with h
  · exact streamError_within v .capacity w.pos m hp (by decide)
  · have hin : ∀ x, v.regs.dstAddr.toNat ≤ x →
        x < v.regs.dstAddr.toNat + (List.replicate (bytesNeeded w.length) (0 : Byte)).length →
        v.regs.destination.holds x = true := fun x h1 h2 => by
      simp only [List.length_replicate] at h2
      simp only [Region.holds_iff, Regs.destination]; omega
    exact (memWriteBytes_within v _ _ m hin fun x h1 h2 => ht x (hin x h1 h2)).mono (fun _ h => h) (fun _ h => h)
      (fun _ _ => by omega) fun _ h => h

/-- The bytes an SC_DECODE or VL_DECODE touches: its two regions. -/
def decoderTouches (v : Env) (a : Nat) : Prop := inSource v a ∨ v.regs.destination.holds a = true

/-- How an SC_DECODE that passed its checks ends well: OK; only the bytes of the decoded buffer changed, and
its pad bits are 0 (R128, R129). -/
def DecodeEnd (v : Env) (m : Port) (e : Ending) : Prop :=
  e.code = .ok ∧ ∃ n big, e.len = some n ∧ n ≤ 2 ^ 32 - 1 ∧ e.endian = some big ∧
    (∃ p, e.pos = some p ∧ p ≤ v.regs.srcLen.toNat) ∧ bytesNeeded n ≤ v.regs.dstCap.toNat ∧
    Wrote v (fun a => v.regs.dstAddr.toNat ≤ a ∧ a < v.regs.dstAddr.toNat + bytesNeeded n) m e.port ∧
    ∀ j, n ≤ j → j < 8 * bytesNeeded n → viewBit e.port.mem v.regs.dstAddr.toNat big j = some false

/-- How an SC_DECODE or VL_DECODE ends by an error in decoding (R127). -/
def DecodeErr (v : Env) (m : Port) (e : Ending) : Prop :=
  StreamErr v e ∧ Wrote v (fun a => v.regs.destination.holds a = true) m e.port

theorem destination_of_lt {v : Env} {a n : Nat} (h : n ≤ v.regs.dstCap.toNat) (h1 : v.regs.dstAddr.toNat ≤ a)
    (h2 : a < v.regs.dstAddr.toNat + n) : v.regs.destination.holds a = true := by
  simp only [Region.holds_iff, Regs.destination]; omega

/-- SC_DECODE before its block loop: the loop's working state and the zeroed buffer, or an error. -/
theorem sparseStart_sat (v : Env) (m : Port) :
    (sparseStart v m).Sat
      (fun r => r.1.offset = 0 ∧ r.1.pos ≤ v.regs.srcLen.toNat ∧ r.1.length ≤ 2 ^ 32 - 1 ∧
        bytesNeeded r.1.length ≤ v.regs.dstCap.toNat ∧ Wrote v (inBuffer v r.1) m r.2)
      (DecodeErr v m) (FaultFrom v (decoderTouches v) m) := by
  refine Act.Sat.spoil (R := DecodeErr v m) ?_
    (fun e he => ⟨he.1, he.2.trans (spoil_wrote v e.port)⟩)
  have hh := sparseHeader_within (W := fun a => v.regs.destination.holds a = true) (T := decoderTouches v) v m
    fun _ h => .inl h
  cases hx : sparseHeader v m with
  | raise e => rw [hx] at hh; exact hh
  | fault f p => rw [hx] at hh; exact hh
  | ok w =>
    rw [hx] at hh
    obtain ⟨⟨h0, -, hp⟩, -⟩ := hh
    have ho := sparseOpen_within (T := decoderTouches v) v w m hp fun _ h => .inr h
    rw [Act.bind_ok]
    cases hy : sparseOpen v w m with
    | raise e => rw [hy] at ho; exact ho
    | fault f p => rw [hy] at ho; exact ho
    | ok m' =>
      rw [hy] at ho
      obtain ⟨⟨hl, hcap⟩, -⟩ := ho
      have hnot : ¬ (2 ^ 32 - 1 < w.length ∨ v.regs.dstCap.toNat < bytesNeeded w.length) := by omega
      have hw := memWriteBytes_within (W := inBuffer v w) (T := fun _ => True) (G := fun _ => True) v
        (List.replicate (bytesNeeded w.length) 0) v.regs.dstAddr.toNat m
        (fun x h1 h2 => ⟨h1, by simpa using h2⟩) fun _ _ _ => trivial
      simp only [sparseOpen, if_neg hnot] at hy
      rw [hy] at hw
      exact ⟨h0, hp, hl, hcap, hw.2⟩

/-- SC_DECODE past its checks, from memory `m`. -/
theorem sparseRun_sat (v : Env) (m : Port)
    (hok : decoderRegionsOk v.params v.regs.streamSource v.regs.destination = true) :
    (sparseRun v m).Sat (DecodeEnd v m) (DecodeErr v m) (FaultFrom v (decoderTouches v) m) := by
  unfold sparseRun
  simp only [hok, Bool.not_true, Bool.false_eq_true, if_false]
  have hst := sparseStart_sat v m
  cases hx : sparseStart v m with
  | raise e => rw [hx] at hst; exact hst
  | fault f p => rw [hx] at hst; exact hst
  | ok r =>
    rw [hx] at hst
    obtain ⟨-, hp, hl, hcap, hw⟩ := hst
    have hbuf : ∀ a, inBuffer v r.1 a → v.regs.destination.holds a = true :=
      fun a ha => destination_of_lt hcap ha.1 ha.2
    refine (sparseLoop_sat (T := decoderTouches v) v _ r.1 r.2 (fun _ h => .inl h) hp (by omega)
      fun a ha => .inr (hbuf a ha)).mono (fun e he => ?_) (fun e he => ?_)
      fun f hf => hf.mono (fun _ h => h) hw.kept
    · obtain ⟨⟨h1, h2, h3, ⟨p, h4, -, h5⟩, h6⟩, h7⟩ := he
      exact ⟨h1, r.1.length, r.1.endian, h2, hl, h3, ⟨p, h4, h5⟩, hcap, hw.trans h7, h6⟩
    · refine ⟨he.1, (hw.mono hbuf).trans (he.2.mono fun a ha => ?_)⟩
      rcases ha with ha | ha
      · exact hbuf a ha
      · exact ha

end Sys2Proof.Machine
end

