-- ==== Sys2Proof/Laws/Varlen.lean ====
section
/-! SUPPORT. What VL_DECODE does (spec/44_varlen_decode.md): its capacity check, its loop, and what a
finished decode leaves (R128, R129, R225). -/

namespace Sys2Proof.Machine

@[simp] theorem length_dataBits (b : Byte) (n : Nat) : (dataBits b n).length = n := by simp [dataBits]

/-- What R223's check leaves true of the working state. -/
def VarlenFits (v : Env) (w : VlWork) : Prop :=
  w.bits.length ≤ 8 * v.regs.dstCap.toNat + w.pad ∧ w.bits.length - w.pad ≤ 2 ^ 32 - 1 ∧
    w.pos ≤ v.regs.srcLen.toNat

theorem varlenCapacity_within (v : Env) (w : VlWork) (m : Port) {W T : Nat → Prop}
    (hp : w.pos ≤ v.regs.srcLen.toNat) :
    (varlenCapacity v w m).Within v W T m (fun _ => m) (fun w' => w' = w ∧ VarlenFits v w) (StreamErr v) := by
  unfold varlenCapacity
  split_ifs with h
  · exact streamError_within v .capacity w.pos m hp (by decide)
  · exact .ok ⟨rfl, by omega, by omega, hp⟩ (Wrote.refl v W m)

theorem varlenFirst_within (v : Env) (m : Port) {W T : Nat → Prop} (hs : ∀ a, inSource v a → T a) :
    (varlenFirst v m).Within v W T m (fun _ => m) (VarlenFits v) (StreamErr v) := by
  refine (readInput_within v .underflow 0 m hs (Nat.zero_le _) (by decide)).bind fun b hb _ => ?_
  dsimp only
  split_ifs with h
  · exact streamError_within v .badHeader 1 m (by omega) (by decide)
  · exact (varlenCapacity_within v _ m (by simp; omega)).mono (fun _ h => h) (fun _ h => h)
      (fun _ h => h.1 ▸ h.2) fun _ h => h

theorem varlenNext_within (v : Env) (w : VlWork) (m : Port) {W T : Nat → Prop} (hs : ∀ a, inSource v a → T a)
    (hp : w.pos ≤ v.regs.srcLen.toNat) :
    (varlenNext v w m).Within v W T m (fun _ => m) (fun w' => VarlenFits v w' ∧ w'.pos = w.pos + 1)
      (StreamErr v) := by
  refine (readInput_within v .underflow w.pos m hs hp (by decide)).bind fun b hb _ => ?_
  exact (varlenCapacity_within v _ m (by simp; omega)).mono (fun _ h => h) (fun _ h => h)
    (fun _ h => by obtain ⟨rfl, h⟩ := h; exact ⟨h, rfl⟩) fun _ h => h

/-- R222's loop: the state it goes on with still fits. -/
theorem varlenLoop_within (v : Env) (n : Nat) (w : VlWork) (m : Port) {W T : Nat → Prop}
    (hs : ∀ a, inSource v a → T a) (hw : VarlenFits v w) (hn : v.regs.srcLen.toNat ≤ w.pos + n) :
    (varlenLoop v n w m).Within v W T m (fun _ => m) (VarlenFits v) (StreamErr v) := by
  induction n generalizing w with
  | zero =>
    unfold varlenLoop
    split_ifs with h
    · have := hw.2.2
      exact ⟨⟨rfl, rfl, by simp, w.pos, rfl, by omega, fun _ => by omega⟩, Wrote.refl v W m⟩
    · exact .ok hw (Wrote.refl v W m)
  | succ n ih =>
    unfold varlenLoop
    split_ifs with h
    · exact (varlenNext_within v w m hs hw.2.2).bind fun w' hw' _ => ih w' hw'.1 (by omega)
    · exact .ok hw (Wrote.refl v W m)

/-- R224: the output goes on only if every byte of it exists; its pad bits are 0. -/
theorem varlenOutput_sat (v : Env) (dend : Bool) (w : VlWork) (m : Port) {T : Nat → Prop} {R : Ending → Prop}
    (hw : VarlenFits v w) (ht : ∀ a, v.regs.destination.holds a = true → T a) :
    (varlenOutput v dend w m).Sat (DecodeEnd v m) R (FaultFrom v T m) := by
  obtain ⟨h1, h2, h3⟩ := hw
  obtain ⟨n, hn⟩ : ∃ n, n = w.bits.length - w.pad := ⟨_, rfl⟩
  have hcap : bytesNeeded n ≤ v.regs.dstCap.toNat := by unfold bytesNeeded; omega
  have hin : ∀ x, v.regs.dstAddr.toNat ≤ x →
      x < v.regs.dstAddr.toNat + (List.replicate (bytesNeeded n) (0 : Byte)).length →
      v.regs.dstAddr.toNat ≤ x ∧ x < v.regs.dstAddr.toNat + bytesNeeded n := fun x h1 h2 => by
    simp only [List.length_replicate] at h2; omega
  have hb := memWriteBytes_within (G := fun _ => False) (T := T) v (List.replicate (bytesNeeded n) 0)
    v.regs.dstAddr.toNat m hin fun x h1 h2 => ht x (destination_of_lt hcap h1 (hin x h1 h2).2)
  unfold varlenOutput
  simp only [← hn]
  cases hx : memWriteBytes v v.regs.dstAddr.toNat (List.replicate (bytesNeeded n) 0) m with
  | raise e => rw [hx] at hb; exact hb.1.elim
  | fault f p => rw [hx] at hb; exact hb
  | ok m1 =>
    rw [hx] at hb
    have hlen : (w.bits.take n).length = n := by simp; omega
    have hbit : ∀ j, 0 ≤ j → j < 0 + (w.bits.take n).length →
        v.regs.dstAddr.toNat ≤ v.regs.dstAddr.toNat + j / 8 ∧
          v.regs.dstAddr.toNat + j / 8 < v.regs.dstAddr.toNat + bytesNeeded n := fun j _ h => by
      rw [hlen] at h; have := view_byte_lt (show j < n by omega); omega
    have hs := setBits_within (G := fun _ => False) (T := T)
      (W := fun a => v.regs.dstAddr.toNat ≤ a ∧ a < v.regs.dstAddr.toNat + bytesNeeded n) v v.regs.dstAddr.toNat dend (w.bits.take n) 0 m1 hbit
      fun j h1 h2 => ht _ (destination_of_lt hcap (hbit j h1 h2).1 (hbit j h1 h2).2)
    rw [Act.bind_ok]
    cases hy : setBits v v.regs.dstAddr.toNat dend 0 (w.bits.take n) m1 with
    | raise e => rw [hy] at hs; exact hs.1.elim
    | fault f p => rw [hy] at hs; exact FaultFrom.mono hs (fun _ h => h) hb.2.kept
    | ok m2 =>
      rw [hy] at hs
      refine ⟨rfl, n, dend, rfl, by omega, rfl, ⟨w.pos, rfl, h3⟩, hcap, hb.2.trans hs.2, fun j hj1 hj2 => ?_⟩
      have hv := (setBits_read hy).1 j
      rw [if_neg (by omega)] at hv
      rw [hv, viewBit_eq, memWriteBytes_read hx, if_pos (by simp; omega), List.getElem?_replicate, if_pos (by omega)]
      simp

theorem varlenFrom_sat (v : Env) (dend : Bool) (w : VlWork) (m : Port) (hw : VarlenFits v w) :
    (varlenFrom v dend w m).Sat (DecodeEnd v m) (DecodeErr v m) (FaultFrom v (decoderTouches v) m) := by
  unfold varlenFrom
  have hl := varlenLoop_within (W := fun a => v.regs.destination.holds a = true) (T := decoderTouches v) v
    (v.regs.srcLen.toNat - w.pos) w m (fun _ h => .inl h) hw (by omega)
  refine Act.Sat.bind (Q := VarlenFits v) (Act.Sat.spoil (Q := VarlenFits v) (R := DecodeErr v m) ?_ ?_) ?_
  · exact Act.Sat.mono hl (fun _ h => h.1) (fun _ h => h) fun _ h => h
  · exact fun e he => ⟨he.1, he.2.trans (spoil_wrote v e.port)⟩
  · exact fun w' hw' => varlenOutput_sat v dend w' m hw' fun _ h => .inr h

/-- VL_DECODE past its checks, from memory `m`. -/
theorem varlenRun_sat (dend : Bool) (v : Env) (m : Port)
    (hok : decoderRegionsOk v.params v.regs.streamSource v.regs.destination = true) :
    (varlenRun dend v m).Sat (DecodeEnd v m) (DecodeErr v m) (FaultFrom v (decoderTouches v) m) := by
  unfold varlenRun
  simp only [hok, Bool.not_true, Bool.false_eq_true, if_false]
  have hf := varlenFirst_within (W := fun a => v.regs.destination.holds a = true) (T := decoderTouches v) v m
    fun _ h => .inl h
  refine Act.Sat.bind (Q := VarlenFits v) (Act.Sat.spoil (Q := VarlenFits v) (R := DecodeErr v m) ?_ ?_) ?_
  · exact Act.Sat.mono hf (fun _ h => h.1) (fun _ h => h) fun _ h => h
  · exact fun e he => ⟨he.1, he.2.trans (spoil_wrote v e.port)⟩
  · exact fun w hw => varlenFrom_sat v dend w m hw

end Sys2Proof.Machine
end

