-- ==== Sys2Proof/Laws/Huffman.lean ====
section
/-! SUPPORT. What HUF_DECODE does (spec/43_huffman_decode.md): its table checks, its code loop, where it
writes, and what every ending leaves (R128, R193, R198). -/

namespace Sys2Proof.Machine

/-- The bytes of HUF_DECODE's source view. -/
def inView (v : Env) (a : Nat) : Prop := v.regs.viewSource.holds a = true

theorem inView_of_lt {v : Env} {i : Nat} (h : i < v.regs.srcLen.toNat) : inView v (v.regs.srcAddr.toNat + i / 8) := by
  have := view_byte_lt h
  simp [inView, Region.holds, Regs.viewSource, this]

/-- The bytes HUF_DECODE touches: its view and its destination region. -/
def huffmanTouches (v : Env) (a : Nat) : Prop := inView v a ∨ v.regs.destination.holds a = true

theorem readHcount_sat (v : Env) (l : Nat) (m : Port) {T : Nat → Prop} {R : Ending → Prop} :
    (readHcount v m l).Sat (fun c => ∃ x, Cells.read v.hcount l = some x ∧ c = x.toNat) R (FaultFrom v T m) := by
  unfold readHcount
  cases h : Cells.read v.hcount l with
  | some x => exact ⟨x, rfl, rfl⟩
  | none => exact .inr (.inl ⟨l, rfl, h⟩)

theorem readHsym_sat (v : Env) (j : Nat) (m : Port) {T : Nat → Prop} {R : Ending → Prop} :
    (readHsym v m j).Sat (fun x => Cells.read v.hsym j = some x) R (FaultFrom v T m) := by
  unfold readHsym
  cases h : Cells.read v.hsym j with
  | some x => exact rfl
  | none => exact .inr (.inr (.inl ⟨j, rfl, h⟩))

/-- What a BAD_TABLE ending leaves to be written (R193). -/
def BadTable (m : Port) (e : Ending) : Prop :=
  e = { code := .badTable, len := some 0, pos := some 0, endian := none, port := m }

/-- Reading counts gives those entries, in order. -/
theorem readCounts_sat (v : Env) (n l : Nat) (m : Port) {T : Nat → Prop} {R : Ending → Prop} :
    (readCounts v m n l).Sat (fun cs => cs.length = n ∧
      ∀ k, k < n → ∃ x, Cells.read v.hcount (l + k) = some x ∧ cs[k]? = some x.toNat) R (FaultFrom v T m) := by
  induction n generalizing l with
  | zero => exact ⟨rfl, fun _ h => absurd h (Nat.not_lt_zero _)⟩
  | succ n ih =>
    refine Act.Sat.bind (readHcount_sat v l m) fun c hc => ?_
    refine Act.Sat.bind (ih (l + 1)) fun cs hcs => ?_
    refine ⟨by simp [hcs.1], fun k hk => ?_⟩
    cases k with
    | zero => obtain ⟨x, hx, rfl⟩ := hc; exact ⟨x, by simpa using hx, by simp⟩
    | succ k =>
      obtain ⟨x, hx, hk'⟩ := hcs.2 k (by omega)
      exact ⟨x, by rw [← hx]; congr 1; omega, by simpa using hk'⟩

/-- Tables that pass R193's checks. -/
def GoodTables (v : Env) : Prop :=
  v.regs.hufNsym.toNat ≠ 0 ∧ v.regs.hufNsym.toNat ≤ v.params.hufMaxsym ∧
    ∃ m cs, readCounts v m v.params.hufMaxlen 1 = .ok cs ∧ cs.sum = v.regs.hufNsym.toNat ∧
      notOverSubscribed 1 cs = true

/-- R193's checks pass good tables, raise BAD_TABLE, or fault on an unwritten entry. -/
theorem checkTables_sat (v : Env) (m : Port) {T : Nat → Prop} :
    (checkTables v m).Sat (fun _ => GoodTables v) (BadTable m) (FaultFrom v T m) := by
  unfold checkTables
  split_ifs with h1
  · exact rfl
  · refine Act.Sat.bind (readHcount_sat v 0 m) fun c0 _ => ?_
    split_ifs with h2
    · exact rfl
    · have hc := readCounts_sat (T := T) (R := BadTable m) v v.params.hufMaxlen 1 m
      cases hx : readCounts v m v.params.hufMaxlen 1 with
      | raise e => rw [hx] at hc; exact hc
      | fault f p => rw [hx] at hc; exact hc
      | ok cs =>
        rw [Act.bind_ok]
        split_ifs with h3 h4
        · exact rfl
        · exact rfl
        · exact ⟨by omega, by omega, m, cs, hx, not_not.mp h3, by simpa using h4⟩

/-- What an error inside a code leaves: the symbols written, and where the code began (R198). -/
def CodeErr (count start : Nat) (e : Ending) : Prop :=
  (e.code = .underflow ∨ e.code = .badCode ∨ e.code = .capacity) ∧ e.len = some count ∧ e.pos = some start ∧
    e.endian = none

/-- R194: one symbol. The cursor moves by at least a bit, and nothing is written. -/
theorem decodeSymbol_within (v : Env) (send : Bool) (n : Nat) (w : HufWork) (m : Port) {W T : Nat → Prop}
    (hs : ∀ a, inView v a → T a) :
    (decodeSymbol v send n w m).Within v W T m (fun _ => m)
      (fun r => r.2.count = w.count ∧ r.2.start = w.start ∧ w.pos < r.2.pos ∧ r.2.pos ≤ v.regs.srcLen.toNat)
      (CodeErr w.count w.start) := by
  induction n generalizing w with
  | zero => exact ⟨⟨.inr (.inl rfl), rfl, rfl, rfl⟩, Wrote.refl v W m⟩
  | succ n ih =>
    unfold decodeSymbol
    split_ifs with h
    · exact ⟨⟨.inl rfl, rfl, rfl, rfl⟩, Wrote.refl v W m⟩
    · refine (Act.Within.of_read (getBit_sat v _ send m w.pos (hs _ (inView_of_lt (by omega))))).bind fun bit _ _ => ?_
      dsimp only
      refine (Act.Within.of_read (readHcount_sat v w.len m)).bind fun cnt _ _ => ?_
      split_ifs with hlt
      · refine (Act.Within.of_read (readHsym_sat v _ m)).bind fun sym _ _ => ?_
        exact .ok ⟨rfl, rfl, by simp, by simp; omega⟩ (Wrote.refl v W m)
      · exact (ih _).mono (fun _ h => h) (fun _ h => h)
          (fun r h => ⟨h.1, h.2.1, by have := h.2.2.1; simp at this; omega, h.2.2.2⟩) fun _ h => h

/-- The output bytes of `t` symbols. -/
def inSymbols (v : Env) (width t : Nat) (a : Nat) : Prop :=
  v.regs.dstAddr.toNat ≤ a ∧ a < v.regs.dstAddr.toNat + width * t

@[simp] theorem length_symbolBytes (sym : Word) (w : Nat) : (symbolBytes sym w).length = w := by simp [symbolBytes]

/-- R196: the symbol is written whole inside the destination region, or CAPACITY. -/
theorem emitSymbol_within (v : Env) (width : Nat) (sym : Word) (w : HufWork) (m : Port) {T : Nat → Prop}
    (ht : ∀ a, v.regs.destination.holds a = true → T a) :
    (emitSymbol v width sym w m).Within v (inSymbols v width (w.count + 1)) T m (fun r => r.2)
      (fun r => r.1 = { w with count := w.count + 1 } ∧ width * (w.count + 1) ≤ v.regs.dstCap.toNat)
      (fun e => CodeErr w.count w.start e ∧ e.port = m) := by
  unfold emitSymbol
  split_ifs with h
  · exact ⟨⟨⟨.inr (.inr rfl), rfl, rfl, rfl⟩, rfl⟩, Wrote.refl v _ m⟩
  · have hlt : ∀ x, v.regs.dstAddr.toNat + width * w.count ≤ x →
        x < v.regs.dstAddr.toNat + width * w.count + (symbolBytes sym width).length →
        inSymbols v width (w.count + 1) x := fun x h1 h2 => by
      rw [length_symbolBytes] at h2
      refine ⟨by omega, ?_⟩
      rw [Nat.mul_succ]; omega
    refine (memWriteBytes_within v _ _ m hlt fun x h1 h2 =>
      ht x (destination_of_lt (by omega) (hlt x h1 h2).1 (hlt x h1 h2).2)).bind fun m' _ _ => ?_
    exact .ok ⟨rfl, by omega⟩ (Wrote.refl v _ m')

/-- How a HUF_DECODE that passed its checks ends, well or not: it has written the bytes of `t` symbols and
no other, RES_LEN is `t`, and RES_INFO stays (R128, R195, R198). -/
def SymbolsEnd (v : Env) (width t0 : Nat) (m : Port) (e : Ending) : Prop :=
  ∃ t, t0 ≤ t ∧ e.len = some t ∧ e.endian = none ∧ (∃ p, e.pos = some p ∧ p ≤ v.regs.srcLen.toNat) ∧
    (t0 < t → width * t ≤ v.regs.dstCap.toNat) ∧ Wrote v (inSymbols v width t) m e.port

/-- A good ending: OK, with every bit consumed (R195). -/
def SymbolsOk (v : Env) (width t0 : Nat) (m : Port) (e : Ending) : Prop :=
  e.code = .ok ∧ e.pos = some v.regs.srcLen.toNat ∧ SymbolsEnd v width t0 m e

/-- A bad ending (R198). -/
def SymbolsErr (v : Env) (width t0 : Nat) (m : Port) (e : Ending) : Prop :=
  (e.code = .underflow ∨ e.code = .badCode ∨ e.code = .capacity) ∧ SymbolsEnd v width t0 m e

theorem inSymbols_mono {v : Env} {width t t' : Nat} (h : t ≤ t') (a : Nat) (ha : inSymbols v width t a) :
    inSymbols v width t' a := ⟨ha.1, lt_of_lt_of_le ha.2 (by have := Nat.mul_le_mul_left width h; omega)⟩

theorem CodeErr.symbolsErr {v : Env} {width : Nat} {m : Port} {count start : Nat} {e : Ending}
    (h : CodeErr count start e) (hp : start ≤ v.regs.srcLen.toNat) (he : e.port = m) :
    SymbolsErr v width count m e :=
  ⟨h.1, count, le_rfl, h.2.1, h.2.2.2, ⟨start, h.2.2.1, hp⟩, fun h => absurd h (lt_irrefl _),
    by rw [he]; exact Wrote.refl v _ m⟩

theorem SymbolsEnd.trans {v : Env} {width t0 : Nat} {m m' : Port} {e : Ending}
    (h : SymbolsEnd v width (t0 + 1) m' e) (hcap : width * (t0 + 1) ≤ v.regs.dstCap.toNat)
    (hw : Wrote v (inSymbols v width (t0 + 1)) m m') : SymbolsEnd v width t0 m e := by
  obtain ⟨t, ht, hl, he, hp, hc, hwt⟩ := h
  refine ⟨t, by omega, hl, he, hp, fun _ => ?_, (hw.mono fun a ha => inSymbols_mono ht a ha).trans hwt⟩
  rcases Nat.eq_or_lt_of_le ht with rfl | hlt
  · exact hcap
  · exact hc hlt

/-- One symbol of R195's loop. -/
theorem symbolTurn_sat (v : Env) (send : Bool) (width n : Nat) (w : HufWork) (m : Port) (k : HufWork × Port → Act Ending)
    (hw : w.start ≤ v.regs.srcLen.toNat)
    (hk : ∀ (w' : HufWork) (m' : Port), w'.count = w.count + 1 → w.pos < w'.pos → w'.pos ≤ v.regs.srcLen.toNat →
      (k (w', m')).Sat (SymbolsOk v width (w.count + 1) m') (SymbolsErr v width (w.count + 1) m')
        (FaultFrom v (huffmanTouches v) m')) :
    ((decodeSymbol v send n w m).bind fun r => (emitSymbol v width r.1 r.2 m).bind k).Sat
      (SymbolsOk v width w.count m) (SymbolsErr v width w.count m) (FaultFrom v (huffmanTouches v) m) := by
  have hd := decodeSymbol_within (W := fun _ => False) (T := huffmanTouches v) v send n w m fun _ h => .inl h
  cases hx : decodeSymbol v send n w m with
  | raise e =>
    rw [hx] at hd
    refine ⟨hd.1.1, w.count, le_rfl, hd.1.2.1, hd.1.2.2.2, ⟨_, hd.1.2.2.1, hw⟩,
      fun h => absurd h (lt_irrefl _), hd.2.mono fun _ h => h.elim⟩
  | fault f p => rw [hx] at hd; exact hd
  | ok r =>
    rw [hx] at hd
    obtain ⟨⟨hcount, hstart, hp1, hp2⟩, -⟩ := hd
    rw [Act.bind_ok]
    have he := emitSymbol_within (T := huffmanTouches v) v width r.1 r.2 m fun _ h => .inr h
    cases hy : emitSymbol v width r.1 r.2 m with
    | raise e =>
      rw [hy] at he
      have := he.1.1.symbolsErr (v := v) (width := width) (by rw [hstart]; exact hw) he.1.2
      rwa [hcount] at this
    | fault f p => rw [hy] at he; exact he
    | ok r' =>
      rw [hy] at he
      obtain ⟨⟨hr', hcap⟩, hwr⟩ := he
      rw [hcount] at hcap hwr
      rw [Act.bind_ok]
      refine (hk r'.1 r'.2 (by simp [hr', hcount]) (by simp [hr', hp1]) (by simp [hr', hp2])).mono
        (fun e he => ⟨he.1, he.2.1, he.2.2.trans hcap hwr⟩) (fun e he => ⟨he.1, he.2.trans hcap hwr⟩)
        fun f hf => hf.mono (fun _ h => h) hwr.kept

/-- R195's loop. -/
theorem huffmanLoop_sat (v : Env) (send : Bool) (width n : Nat) (w : HufWork) (m : Port)
    (hp : w.pos ≤ v.regs.srcLen.toNat) (hn : v.regs.srcLen.toNat ≤ w.pos + n) :
    (huffmanLoop v send width n w m).Sat (SymbolsOk v width w.count m) (SymbolsErr v width w.count m)
      (FaultFrom v (huffmanTouches v) m) := by
  have hdone : ∀ w : HufWork, w.pos = v.regs.srcLen.toNat → (huffmanDone w m).Sat (SymbolsOk v width w.count m)
      (SymbolsErr v width w.count m) (FaultFrom v (huffmanTouches v) m) := fun w hw =>
    ⟨rfl, by simp [hw], w.count, le_rfl, rfl, rfl, ⟨w.pos, rfl, hw.le⟩, fun h => absurd h (lt_irrefl _),
      Wrote.refl v _ m⟩
  induction n generalizing w m with
  | zero => exact hdone w (by omega)
  | succ n ih =>
    unfold huffmanLoop
    split_ifs with h
    · refine symbolTurn_sat v send width _ w.startCode m _ hp fun w' m' h1 h2 h3 => ?_
      have h2 : w.pos < w'.pos := h2
      have h1 : w'.count = w.count + 1 := h1
      have := ih w' m' h3 (by omega) fun w hw => ⟨rfl, by simp [hw], w.count, le_rfl, rfl, rfl, ⟨w.pos, rfl, hw.le⟩,
        fun h => absurd h (lt_irrefl _), Wrote.refl v _ m'⟩
      rwa [h1] at this
    · exact hdone w (by omega)

/-- HUF_DECODE past its checks on SYMW and the regions, from memory `m` (R193 to R198). -/
theorem huffmanRun_sat (send : Bool) (symw : BitVec 2) (v : Env) (m : Port) {width : Nat}
    (hwidth : symbolWidth symw = some width)
    (hok : decoderRegionsOk v.params v.regs.viewSource v.regs.destination = true) :
    (huffmanRun send symw v m).Sat (SymbolsOk v width 0 m)
      (fun e => BadTable m e ∨ SymbolsErr v width 0 m e) (FaultFrom v (huffmanTouches v) m) := by
  unfold huffmanRun
  simp only [hwidth, hok, Bool.not_true, Bool.false_eq_true, if_false]
  refine Act.Sat.bind ((checkTables_sat v m).mono (fun _ h => h) (fun _ h => .inl h) fun _ h => h) fun _ _ => ?_
  exact (huffmanLoop_sat v send width _ HufWork.initial m (Nat.zero_le _) (by omega)).mono (fun _ h => h)
    (fun _ h => .inr h) fun _ h => h

end Sys2Proof.Machine
end

