-- ==== Sys2Proof/Laws/Commands.lean ====
section
/-! SUPPORT. What each command does as a whole, and all of them together: R121's function of the latched
command, the tables and MEM writes only the write set of spec/20_memory.md R70 and touches only the in-use
regions. -/

namespace Sys2Proof.Machine

/-- An ending that changes nothing but the error code (R124). -/
def Rejected (code : ErrCode) (m : Port) (e : Ending) : Prop :=
  e = { code := code, len := none, pos := none, endian := none, port := m }

theorem Act.reject_eq {α : Type} (code : ErrCode) (m : Port) :
    (Act.reject code m : Act α) = .raise { code := code, len := none, pos := none, endian := none, port := m } := rfl

/-- POPCOUNT past its checks: OK, and no byte, RES_POS or RES_INFO changes (R140). -/
theorem popcountRun_sat (send : Bool) (v : Env) (m : Port) {R : Ending → Prop}
    (hb : v.regs.viewSource.inBounds v.params = true) (ha : popcountArgsOk v.regs = true) :
    (popcountRun send v m).Sat (fun e => e.code = .ok ∧ e.pos = none ∧ e.endian = none ∧ e.port = m) R
      (FaultFrom v (inView v) m) := by
  unfold popcountRun
  simp only [hb, ha, Bool.not_true, Bool.false_eq_true, if_false]
  simp only [popcountArgsOk, Bool.and_eq_true, decide_eq_true_eq] at ha
  have h := popcountFrom_within (W := fun _ => False) (G := fun _ => False) v send
    { next := v.regs.arg0.toNat, count := 0 } m (T := inView v) fun i hi => inView_of_lt (by omega)
  exact Act.Sat.mono h (fun _ h => h.1) (fun _ h => h.1.elim) fun _ h => h

/-- The bytes BITREV may change. -/
def inRange (v : Env) (a : Nat) : Prop := v.regs.bitrevRange.holds a = true

theorem inRange_of_lt {v : Env} {j : Nat} (h1 : v.regs.arg0.toNat ≤ j) (h2 : j < v.regs.arg1.toNat) :
    inRange v (v.regs.srcAddr.toNat + j) := by
  simp only [inRange, Region.holds_iff, Regs.bitrevRange]; omega

/-- BITREV past its checks: OK, no result register changes, and only its range does (R147). -/
theorem bitrevRun_sat (v : Env) (m : Port) {R : Ending → Prop}
    (hb : v.regs.viewSource.inBounds v.params = true) (ha : bitrevArgsOk v.regs = true) :
    (bitrevRun v m).Sat
      (fun e => (e.code = .ok ∧ e.len = none ∧ e.pos = none ∧ e.endian = none) ∧ Wrote v (inRange v) m e.port) R
      (FaultFrom v (inRange v) m) := by
  unfold bitrevRun
  simp only [hb, ha, Bool.not_true, Bool.false_eq_true, if_false]
  have h := bitrevFrom_within (G := fun _ => False) v { next := v.regs.arg0.toNat } m
    (W := inRange v) (T := inRange v) (fun j h1 h2 => inRange_of_lt h1 h2) fun j h1 h2 => inRange_of_lt h1 h2
  exact Act.Sat.mono h (fun _ h => h) (fun _ h => h.1.elim) fun _ h => h

/-- The write set of the command of an environment, as a predicate. -/
def inWriteSet (v : Env) (c : Latched) (a : Nat) : Prop := (writeSet v.params c).holds a = true

/-- The in-use regions (R70). -/
def inUse (v : Env) (c : Latched) (a : Nat) : Prop :=
  (readSet v.params c).holds a = true ∨ (writeSet v.params c).holds a = true

theorem latched_op_cases (op : BitVec 4) :
    op = 1 ∨ op = 2 ∨ op = 3 ∨ op = 4 ∨ op = 5 ∨ (op = 0 ∨ 6 ≤ op.toNat) := by
  revert op; decide

theorem latchedRun_reserved {c : Latched} (h : c.op = 0 ∨ 6 ≤ c.op.toNat) : latchedRun c = reservedRun := by
  obtain ⟨op, send, dend, symw, regs⟩ := c
  revert h
  simp only [latchedRun]
  revert op
  have key : ∀ op : BitVec 4, (op = 0 ∨ 6 ≤ op.toNat) →
      op.toNat ≠ 1 ∧ op.toNat ≠ 2 ∧ op.toNat ≠ 3 ∧ op.toNat ≠ 4 ∧ op.toNat ≠ 5 := by decide
  intro op h
  obtain ⟨h1, h2, h3, h4, h5⟩ := key op h
  split <;> simp_all

/-- R121's function: whatever the command, it writes only its write set, and its faults come from the
in-use regions and the tables. -/
theorem latchedRun_within (c : Latched) (v : Env) (m : Port) (hr : v.regs = c.regs) :
    (latchedRun c v m).Within v (inWriteSet v c) (inUse v c) m Ending.port (fun _ => True) (fun _ => True) := by
  obtain ⟨op, send, dend, symw, regs⟩ := c
  simp only at hr
  subst hr
  have hself : ∀ code : ErrCode, (Act.reject code m : Act Ending).Within v (inWriteSet v ⟨op, send, dend, symw, v.regs⟩)
      (inUse v ⟨op, send, dend, symw, v.regs⟩) m Ending.port (fun _ => True) (fun _ => True) :=
    fun code => ⟨trivial, Wrote.refl v _ m⟩
  rcases latched_op_cases op with rfl | rfl | rfl | rfl | rfl | h
  · change (sparseRun v m).Within _ _ _ _ _ _ _
    by_cases hok : decoderRegionsOk v.params v.regs.streamSource v.regs.destination = true
    · have hw : ∀ a, v.regs.destination.holds a = true → inWriteSet v ⟨1, send, dend, symw, v.regs⟩ a := fun a ha => by
        simpa [inWriteSet, writeSet, passesLaunchChecks, hok] using ha
      refine Act.Sat.mono (sparseRun_sat v m hok) (fun e he => ?_) (fun e he => ⟨trivial, he.2.mono hw⟩)
        fun f hf => hf.mono (fun a ha => ?_) fun _ h => h
      · obtain ⟨-, n, big, -, -, -, -, hcap, hwr, -⟩ := he
        exact ⟨trivial, hwr.mono fun a ha => hw a (destination_of_lt hcap ha.1 ha.2)⟩
      · rcases ha with ha | ha
        · left; simpa [readSet, passesLaunchChecks, hok, inSource] using ha
        · right; exact hw a ha
    · have : sparseRun v m = .reject .badArg m := by simp [sparseRun, hok]
      rw [this]; exact hself _
  · change (varlenRun dend v m).Within _ _ _ _ _ _ _
    by_cases hok : decoderRegionsOk v.params v.regs.streamSource v.regs.destination = true
    · have hw : ∀ a, v.regs.destination.holds a = true → inWriteSet v ⟨2, send, dend, symw, v.regs⟩ a := fun a ha => by
        simpa [inWriteSet, writeSet, passesLaunchChecks, hok] using ha
      refine Act.Sat.mono (varlenRun_sat dend v m hok) (fun e he => ?_) (fun e he => ⟨trivial, he.2.mono hw⟩)
        fun f hf => hf.mono (fun a ha => ?_) fun _ h => h
      · obtain ⟨-, n, big, -, -, -, -, hcap, hwr, -⟩ := he
        exact ⟨trivial, hwr.mono fun a ha => hw a (destination_of_lt hcap ha.1 ha.2)⟩
      · rcases ha with ha | ha
        · left; simpa [readSet, passesLaunchChecks, hok, inSource] using ha
        · right; exact hw a ha
    · have : varlenRun dend v m = .reject .badArg m := by simp [varlenRun, hok]
      rw [this]; exact hself _
  · change (huffmanRun send symw v m).Within _ _ _ _ _ _ _
    cases hs : symbolWidth symw with
    | none =>
      have : huffmanRun send symw v m = .reject .badArg m := by simp [huffmanRun, hs]
      rw [this]; exact hself _
    | some width =>
      by_cases hok : decoderRegionsOk v.params v.regs.viewSource v.regs.destination = true
      · have hw : ∀ a, v.regs.destination.holds a = true → inWriteSet v ⟨3, send, dend, symw, v.regs⟩ a := fun a ha => by
          simpa [inWriteSet, writeSet, passesLaunchChecks, hs, hok] using ha
        have hend : ∀ e, SymbolsEnd v width 0 m e →
            True ∧ Wrote v (inWriteSet v ⟨3, send, dend, symw, v.regs⟩) m e.port := by
          rintro e ⟨t, -, -, -, -, hcap, hwr⟩
          refine ⟨trivial, hwr.mono fun a ha => hw a ?_⟩
          rcases Nat.eq_zero_or_pos t with rfl | hpos
          · have := ha.1; have := ha.2; omega
          · exact destination_of_lt (hcap hpos) ha.1 ha.2
        refine Act.Sat.mono (huffmanRun_sat send symw v m hs hok) (fun e he => hend e he.2.2) (fun e he => ?_)
          fun f hf => hf.mono (fun a ha => ?_) fun _ h => h
        · rcases he with rfl | he
          · exact ⟨trivial, Wrote.refl v _ m⟩
          · exact hend e he.2
        · rcases ha with ha | ha
          · left; simpa [readSet, passesLaunchChecks, hs, hok, inView] using ha
          · right; exact hw a ha
      · have : huffmanRun send symw v m = .reject .badArg m := by simp [huffmanRun, hs, hok]
        rw [this]; exact hself _
  · change (popcountRun send v m).Within _ _ _ _ _ _ _
    by_cases hb : v.regs.viewSource.inBounds v.params = true
    · by_cases ha : popcountArgsOk v.regs = true
      · refine Act.Sat.mono (popcountRun_sat (R := fun _ => False) send v m hb ha)
          (fun e he => ⟨trivial, by rw [he.2.2.2]; exact Wrote.refl v _ m⟩) (fun _ h => h.elim)
          fun f hf => hf.mono (fun a h => .inl ?_) fun _ h => h
        simpa [readSet, passesLaunchChecks, hb, ha, inView] using h
      · have : popcountRun send v m = .reject .badArg m := by simp [popcountRun, hb, ha]
        rw [this]; exact hself _
    · have : popcountRun send v m = .reject .badArg m := by simp [popcountRun, hb]
      rw [this]; exact hself _
  · change (bitrevRun v m).Within _ _ _ _ _ _ _
    by_cases hb : v.regs.viewSource.inBounds v.params = true
    · by_cases ha : bitrevArgsOk v.regs = true
      · have hw : ∀ a, inRange v a → inWriteSet v ⟨5, send, dend, symw, v.regs⟩ a := fun a h => by
          simpa [inWriteSet, writeSet, passesLaunchChecks, hb, ha, inRange] using h
        exact Act.Sat.mono (bitrevRun_sat (R := fun _ => False) v m hb ha)
          (fun e he => ⟨trivial, he.2.mono hw⟩) (fun _ h => h.elim)
          fun f hf => hf.mono (fun a h => .inr (hw a h)) fun _ h => h
      · have : bitrevRun v m = .reject .badArg m := by simp [bitrevRun, hb, ha]
        rw [this]; exact hself _
    · have : bitrevRun v m = .reject .badArg m := by simp [bitrevRun, hb]
      rw [this]; exact hself _
  · rw [latchedRun_reserved (by simpa using h)]
    exact hself .badCmd

/-- The in-use regions of any command exist (R125). -/
theorem inUse_lt (v : Env) (c : Latched) (hr : v.regs = c.regs) (a : Nat) (h : inUse v c a) : a < v.params.memBytes := by
  obtain ⟨op, send, dend, symw, regs⟩ := c
  simp only at hr
  subst hr
  unfold inUse readSet writeSet at h
  by_cases hp : passesLaunchChecks v.params ⟨op, send, dend, symw, v.regs⟩ = true
  · simp only [hp, if_true] at h
    rcases latched_op_cases op with rfl | rfl | rfl | rfl | rfl | hop
    · simp [passesLaunchChecks, decoderRegionsOk, Region.inBounds] at hp
      simp [Region.holds, Regs.streamSource, Regs.destination] at h hp; omega
    · simp [passesLaunchChecks, decoderRegionsOk, Region.inBounds] at hp
      simp [Region.holds, Regs.streamSource, Regs.destination] at h hp; omega
    · simp [passesLaunchChecks, decoderRegionsOk, Region.inBounds] at hp
      simp [Region.holds, Regs.viewSource, Regs.destination] at h hp; omega
    · simp [passesLaunchChecks, Region.inBounds] at hp
      simp [Region.holds, Regs.viewSource, Region.empty] at h hp; omega
    · simp [passesLaunchChecks, Region.inBounds, bitrevArgsOk] at hp
      simp [Region.holds, Regs.viewSource, Regs.bitrevRange] at h hp; omega
    · have key : ∀ op : BitVec 4, (op = 0 ∨ 6 ≤ op.toNat) →
        op.toNat ≠ 1 ∧ op.toNat ≠ 2 ∧ op.toNat ≠ 3 ∧ op.toNat ≠ 4 ∧ op.toNat ≠ 5 := by decide
      obtain ⟨h1, h2, h3, h4, h5⟩ := key op hop
      rcases h with h | h <;> split at h <;> simp_all [Region.holds, Region.empty]
  · simp [hp, Region.holds, Region.empty] at h

end Sys2Proof.Machine
end

