-- ==== Sys2Proof/Laws/State.lean ====
section
/-! SUPPORT. One lemma for each field and each update of State, true by rfl, so that no later proof
unfolds a record update; and the STATUS flags after each update of STATUS. -/

namespace Sys2Proof.Machine

@[simp] theorem launch_params (op : BitVec 4) (f : CtrlBits) (s : State) :
    (launch op f s).params = s.params := rfl
@[simp] theorem launch_ctrl (op : BitVec 4) (f : CtrlBits) (s : State) :
    (launch op f s).ctrl = { op := op, bits := f } := rfl
@[simp] theorem launch_status (op : BitVec 4) (f : CtrlBits) (s : State) :
    (launch op f s).status = s.status.atLaunch := rfl
@[simp] theorem launch_regs (op : BitVec 4) (f : CtrlBits) (s : State) : (launch op f s).regs = s.regs := rfl
@[simp] theorem launch_results (op : BitVec 4) (f : CtrlBits) (s : State) :
    (launch op f s).results = s.results := rfl
@[simp] theorem launch_hcount (op : BitVec 4) (f : CtrlBits) (s : State) :
    (launch op f s).hcount = s.hcount := rfl
@[simp] theorem launch_hsym (op : BitVec 4) (f : CtrlBits) (s : State) : (launch op f s).hsym = s.hsym := rfl
@[simp] theorem launch_mem (op : BitVec 4) (f : CtrlBits) (s : State) : (launch op f s).mem = s.mem := rfl
@[simp] theorem launch_phase (op : BitVec 4) (f : CtrlBits) (s : State) :
    (launch op f s).phase = .busy
        { cmd := { op := op, send := f.send, dend := f.dend, symw := f.symw, regs := s.regs },
          work := .fresh, atLaunch := s.mem, delay := Config.completionDelay s.draws, id := s.draws } := rfl
@[simp] theorem launch_host (op : BitVec 4) (f : CtrlBits) (s : State) : (launch op f s).host = s.host := rfl
@[simp] theorem launch_replies (op : BitVec 4) (f : CtrlBits) (s : State) :
    (launch op f s).replies = s.replies := rfl
@[simp] theorem launch_draws (op : BitVec 4) (f : CtrlBits) (s : State) :
    (launch op f s).draws = s.draws + 1 := rfl
@[simp] theorem launch_powerCycles (op : BitVec 4) (f : CtrlBits) (s : State) :
    (launch op f s).powerCycles = s.powerCycles := rfl

@[simp] theorem finishWith_params (e : Ending) (s : State) : (finishWith e s).params = s.params := rfl
@[simp] theorem finishWith_ctrl (e : Ending) (s : State) : (finishWith e s).ctrl = s.ctrl := rfl
@[simp] theorem finishWith_status (e : Ending) (s : State) :
    (finishWith e s).status = s.status.atCompletion e.code := rfl
@[simp] theorem finishWith_regs (e : Ending) (s : State) : (finishWith e s).regs = s.regs := rfl
@[simp] theorem finishWith_results (e : Ending) (s : State) :
    (finishWith e s).results = s.results.after e := rfl
@[simp] theorem finishWith_hcount (e : Ending) (s : State) : (finishWith e s).hcount = s.hcount := rfl
@[simp] theorem finishWith_hsym (e : Ending) (s : State) : (finishWith e s).hsym = s.hsym := rfl
@[simp] theorem finishWith_mem (e : Ending) (s : State) : (finishWith e s).mem = e.port.mem := rfl
@[simp] theorem finishWith_phase (e : Ending) (s : State) : (finishWith e s).phase = .idle := rfl
@[simp] theorem finishWith_host (e : Ending) (s : State) : (finishWith e s).host = s.host := rfl
@[simp] theorem finishWith_replies (e : Ending) (s : State) : (finishWith e s).replies = s.replies := rfl
@[simp] theorem finishWith_draws (e : Ending) (s : State) : (finishWith e s).draws = s.draws := rfl
@[simp] theorem finishWith_powerCycles (e : Ending) (s : State) :
    (finishWith e s).powerCycles = s.powerCycles := rfl

@[simp] theorem ignoredWrite_params (s : State) : (ignoredWrite s).params = s.params := rfl
@[simp] theorem ignoredWrite_ctrl (s : State) : (ignoredWrite s).ctrl = s.ctrl := rfl
@[simp] theorem ignoredWrite_status (s : State) :
    (ignoredWrite s).status = { s.status with wign := true } := rfl
@[simp] theorem ignoredWrite_regs (s : State) : (ignoredWrite s).regs = s.regs := rfl
@[simp] theorem ignoredWrite_results (s : State) : (ignoredWrite s).results = s.results := rfl
@[simp] theorem ignoredWrite_hcount (s : State) : (ignoredWrite s).hcount = s.hcount := rfl
@[simp] theorem ignoredWrite_hsym (s : State) : (ignoredWrite s).hsym = s.hsym := rfl
@[simp] theorem ignoredWrite_mem (s : State) : (ignoredWrite s).mem = s.mem := rfl
@[simp] theorem ignoredWrite_phase (s : State) : (ignoredWrite s).phase = s.phase := rfl
@[simp] theorem ignoredWrite_host (s : State) : (ignoredWrite s).host = s.host := rfl
@[simp] theorem ignoredWrite_replies (s : State) : (ignoredWrite s).replies = s.replies := rfl
@[simp] theorem ignoredWrite_draws (s : State) : (ignoredWrite s).draws = s.draws := rfl
@[simp] theorem ignoredWrite_powerCycles (s : State) : (ignoredWrite s).powerCycles = s.powerCycles := rfl

@[simp] theorem storeCtrl_params (op : BitVec 4) (f : CtrlBits) (s : State) :
    (storeCtrl op f s).params = s.params := rfl
@[simp] theorem storeCtrl_ctrl (op : BitVec 4) (f : CtrlBits) (s : State) :
    (storeCtrl op f s).ctrl = { op := op, bits := f } := rfl
@[simp] theorem storeCtrl_status (op : BitVec 4) (f : CtrlBits) (s : State) :
    (storeCtrl op f s).status = s.status := rfl
@[simp] theorem storeCtrl_regs (op : BitVec 4) (f : CtrlBits) (s : State) :
    (storeCtrl op f s).regs = s.regs := rfl
@[simp] theorem storeCtrl_results (op : BitVec 4) (f : CtrlBits) (s : State) :
    (storeCtrl op f s).results = s.results := rfl
@[simp] theorem storeCtrl_hcount (op : BitVec 4) (f : CtrlBits) (s : State) :
    (storeCtrl op f s).hcount = s.hcount := rfl
@[simp] theorem storeCtrl_hsym (op : BitVec 4) (f : CtrlBits) (s : State) :
    (storeCtrl op f s).hsym = s.hsym := rfl
@[simp] theorem storeCtrl_mem (op : BitVec 4) (f : CtrlBits) (s : State) :
    (storeCtrl op f s).mem = s.mem := rfl
@[simp] theorem storeCtrl_phase (op : BitVec 4) (f : CtrlBits) (s : State) :
    (storeCtrl op f s).phase = s.phase := rfl
@[simp] theorem storeCtrl_host (op : BitVec 4) (f : CtrlBits) (s : State) :
    (storeCtrl op f s).host = s.host := rfl
@[simp] theorem storeCtrl_replies (op : BitVec 4) (f : CtrlBits) (s : State) :
    (storeCtrl op f s).replies = s.replies := rfl
@[simp] theorem storeCtrl_draws (op : BitVec 4) (f : CtrlBits) (s : State) :
    (storeCtrl op f s).draws = s.draws := rfl
@[simp] theorem storeCtrl_powerCycles (op : BitVec 4) (f : CtrlBits) (s : State) :
    (storeCtrl op f s).powerCycles = s.powerCycles := rfl

@[simp] theorem resetRegisters_params (s : State) : (resetRegisters s).params = s.params := rfl
@[simp] theorem resetRegisters_ctrl (s : State) : (resetRegisters s).ctrl = .zero := rfl
@[simp] theorem resetRegisters_status (s : State) : (resetRegisters s).status = .zero := rfl
@[simp] theorem resetRegisters_regs (s : State) : (resetRegisters s).regs = .zero := rfl
@[simp] theorem resetRegisters_results (s : State) : (resetRegisters s).results = .zero := rfl
@[simp] theorem resetRegisters_hcount (s : State) : (resetRegisters s).hcount = s.hcount := rfl
@[simp] theorem resetRegisters_hsym (s : State) : (resetRegisters s).hsym = s.hsym := rfl
@[simp] theorem resetRegisters_mem (s : State) : (resetRegisters s).mem = s.mem := rfl
@[simp] theorem resetRegisters_phase (s : State) : (resetRegisters s).phase = .idle := rfl
@[simp] theorem resetRegisters_host (s : State) : (resetRegisters s).host = s.host := rfl
@[simp] theorem resetRegisters_replies (s : State) : (resetRegisters s).replies = s.replies := rfl
@[simp] theorem resetRegisters_draws (s : State) : (resetRegisters s).draws = s.draws := rfl
@[simp] theorem resetRegisters_powerCycles (s : State) : (resetRegisters s).powerCycles = s.powerCycles := rfl

@[simp] theorem powerUp_params (s : State) : (powerUp s).params = s.params := rfl
@[simp] theorem powerUp_ctrl (s : State) : (powerUp s).ctrl = .zero := rfl
@[simp] theorem powerUp_status (s : State) : (powerUp s).status = .zero := rfl
@[simp] theorem powerUp_regs (s : State) : (powerUp s).regs = .zero := rfl
@[simp] theorem powerUp_results (s : State) : (powerUp s).results = .zero := rfl
@[simp] theorem powerUp_hcount (s : State) : (powerUp s).hcount = [] := rfl
@[simp] theorem powerUp_hsym (s : State) : (powerUp s).hsym = [] := rfl
@[simp] theorem powerUp_mem (s : State) : (powerUp s).mem = [] := rfl
@[simp] theorem powerUp_phase (s : State) : (powerUp s).phase = .idle := rfl
@[simp] theorem powerUp_host (s : State) : (powerUp s).host = s.host := rfl
@[simp] theorem powerUp_replies (s : State) : (powerUp s).replies = s.replies := rfl
@[simp] theorem powerUp_draws (s : State) : (powerUp s).draws = s.draws := rfl
@[simp] theorem powerUp_powerCycles (s : State) : (powerUp s).powerCycles = s.powerCycles + 1 := rfl

@[simp] theorem reply_params (w : Word) (s : State) : (reply w s).params = s.params := rfl
@[simp] theorem reply_ctrl (w : Word) (s : State) : (reply w s).ctrl = s.ctrl := rfl
@[simp] theorem reply_status (w : Word) (s : State) : (reply w s).status = s.status := rfl
@[simp] theorem reply_regs (w : Word) (s : State) : (reply w s).regs = s.regs := rfl
@[simp] theorem reply_results (w : Word) (s : State) : (reply w s).results = s.results := rfl
@[simp] theorem reply_hcount (w : Word) (s : State) : (reply w s).hcount = s.hcount := rfl
@[simp] theorem reply_hsym (w : Word) (s : State) : (reply w s).hsym = s.hsym := rfl
@[simp] theorem reply_mem (w : Word) (s : State) : (reply w s).mem = s.mem := rfl
@[simp] theorem reply_phase (w : Word) (s : State) : (reply w s).phase = s.phase := rfl
@[simp] theorem reply_host (w : Word) (s : State) : (reply w s).host = s.host := rfl
@[simp] theorem reply_replies (w : Word) (s : State) : (reply w s).replies = w :: s.replies := rfl
@[simp] theorem reply_draws (w : Word) (s : State) : (reply w s).draws = s.draws := rfl
@[simp] theorem reply_powerCycles (w : Word) (s : State) : (reply w s).powerCycles = s.powerCycles := rfl

@[simp] theorem takeEvent_params (rest : List HostOp) (s : State) :
    (takeEvent rest s).params = s.params := rfl
@[simp] theorem takeEvent_ctrl (rest : List HostOp) (s : State) : (takeEvent rest s).ctrl = s.ctrl := rfl
@[simp] theorem takeEvent_status (rest : List HostOp) (s : State) :
    (takeEvent rest s).status = s.status := rfl
@[simp] theorem takeEvent_regs (rest : List HostOp) (s : State) : (takeEvent rest s).regs = s.regs := rfl
@[simp] theorem takeEvent_results (rest : List HostOp) (s : State) :
    (takeEvent rest s).results = s.results := rfl
@[simp] theorem takeEvent_hcount (rest : List HostOp) (s : State) :
    (takeEvent rest s).hcount = s.hcount := rfl
@[simp] theorem takeEvent_hsym (rest : List HostOp) (s : State) : (takeEvent rest s).hsym = s.hsym := rfl
@[simp] theorem takeEvent_mem (rest : List HostOp) (s : State) : (takeEvent rest s).mem = s.mem := rfl
@[simp] theorem takeEvent_phase (rest : List HostOp) (s : State) :
    (takeEvent rest s).phase = s.phase.countDown := rfl
@[simp] theorem takeEvent_host (rest : List HostOp) (s : State) : (takeEvent rest s).host = rest := rfl
@[simp] theorem takeEvent_replies (rest : List HostOp) (s : State) :
    (takeEvent rest s).replies = s.replies := rfl
@[simp] theorem takeEvent_draws (rest : List HostOp) (s : State) : (takeEvent rest s).draws = s.draws := rfl
@[simp] theorem takeEvent_powerCycles (rest : List HostOp) (s : State) :
    (takeEvent rest s).powerCycles = s.powerCycles := rfl

@[simp] theorem Status.atLaunch_done (st : Status) : (st.atLaunch).done = false := rfl
@[simp] theorem Status.atLaunch_wign (st : Status) : (st.atLaunch).wign = st.wign := rfl
@[simp] theorem Status.atLaunch_err (st : Status) : (st.atLaunch).err = .ok := rfl

@[simp] theorem Status.atCompletion_done (st : Status) (e : ErrCode) : (st.atCompletion e).done = true := rfl
@[simp] theorem Status.atCompletion_wign (st : Status) (e : ErrCode) : (st.atCompletion e).wign = st.wign := rfl
@[simp] theorem Status.atCompletion_err (st : Status) (e : ErrCode) : (st.atCompletion e).err = e := rfl

@[simp] theorem Status.writeOneToClear_done (st : Status) (w : Word) : (st.writeOneToClear w).done = (st.done && !w.getLsbD 1) := rfl
@[simp] theorem Status.writeOneToClear_wign (st : Status) (w : Word) : (st.writeOneToClear w).wign = (st.wign && !w.getLsbD 2) := rfl
@[simp] theorem Status.writeOneToClear_err (st : Status) (w : Word) : (st.writeOneToClear w).err = st.err := rfl

@[simp] theorem State.env_params (s : State) (b : Busy) : (s.env b).params = s.params := rfl
@[simp] theorem State.env_regs (s : State) (b : Busy) : (s.env b).regs = b.cmd.regs := rfl
@[simp] theorem State.env_hcount (s : State) (b : Busy) : (s.env b).hcount = s.hcount := rfl
@[simp] theorem State.env_hsym (s : State) (b : Busy) : (s.env b).hsym = s.hsym := rfl
@[simp] theorem State.env_id (s : State) (b : Busy) : (s.env b).id = b.id := rfl
@[simp] theorem State.port_mem (s : State) : s.port.mem = s.mem := rfl
@[simp] theorem State.port_log (s : State) : s.port.log = [] := rfl

@[simp] theorem Phase.countDown_idle : Phase.idle.countDown = .idle := rfl
@[simp] theorem Phase.countDown_busy (b : Busy) :
    (Phase.busy b).countDown = .busy { b with delay := b.delay - 1 } := rfl
@[simp] theorem Phase.isBusy_idle : Phase.idle.isBusy = false := rfl
@[simp] theorem Phase.isBusy_busy (b : Busy) : (Phase.busy b).isBusy = true := rfl

end Sys2Proof.Machine
end

