-- ==== Sys2Proof/Laws/Step.lean ====
section
/-! SUPPORT. What one step can be: the engine's turn as the latched command's function or a block of the
sparse stream, and the host's event; the cases every claim about `step` goes through. -/

namespace Sys2Proof.Machine

/-! ### Fetching the latched command -/

theorem ofWord_commandBits (start : Bool) (op : BitVec 4) (f : CtrlBits) : .ofWord (commandBits start op f) = f := by
  obtain ⟨ie, symw, dend, send⟩ := f
  revert start op ie symw dend send
  decide +kernel

theorem op_commandBits (start : Bool) (op : BitVec 4) (f : CtrlBits) : (commandBits start op f).extractLsb' 0 4 = op := by
  obtain ⟨ie, symw, dend, send⟩ := f
  revert start op ie symw dend send
  decide +kernel

/-- The command a latched word decodes to, as R121's function of OP. -/
theorem exec_commandBits (op : BitVec 4) (f : CtrlBits) (s : State) (b : Busy) (h : s.phase = .busy b) (r : Regs) :
    exec (decodeWord (commandBits true op f)) s =
      complete (latchedRun { op := op, send := f.send, dend := f.dend, symw := f.symw, regs := r } (s.env b) s.port) s := by
  have h0 : decodeWord (commandBits true op f) = (match op.toNat with
      | 0 => .reservedOp0 f | 1 => .scDecode f | 2 => .vlDecode f | 3 => .hufDecode f | 4 => .popcount f
      | 5 => .bitrev f | 6 => .reservedOp67 0 f | 7 => .reservedOp67 1 f
      | n => .reservedOp8F (BitVec.ofNat 3 n) f) := by
    obtain ⟨ie, symw, dend, send⟩ := f
    revert op ie symw dend send
    decide +kernel
  rw [h0]
  have key : ∀ (run : Env → Port → Act Ending) (o : BitVec 4), runCommand o f run s = complete (run (s.env b) s.port) s :=
    fun run o => runCommand_busy h
  simp only [latchedRun]
  split <;> simp only [exec, execReservedOp0, execScDecode, execVlDecode, execHufDecode, execPopcount, execBitrev,
    execReservedOp67, execReservedOp8F, key]
  all_goals simp only [*]

/-- The engine's turn on a command just launched: the completion R121 describes. -/
theorem engineStep_fresh {s : State} {b : Busy} (h : s.phase = .busy b) (hf : b.work = .fresh) :
    engineStep b s = complete (latchedRun b.cmd (s.env b) s.port) s := by
  simp only [engineStep, hf, commandWord]
  exact exec_commandBits b.cmd.op _ s b h b.cmd.regs

/-- The latched command run while BUSY is R121's function of it. -/
theorem exec_latchedInstr {s : State} {b : Busy} (h : s.phase = .busy b) :
    exec (latchedInstr b s) s = complete (latchedRun b.cmd (s.env b) s.port) s :=
  exec_commandBits b.cmd.op _ s b h b.cmd.regs

/-- A byte of MEM after a command holds its value before it, or one of the values the command writes there. -/
theorem latchedRun_final {s t : State} {b : Busy} (h : exec (latchedInstr b s) s = .next t) (hb : s.phase = .busy b) {a : Nat}
    {x : Byte} (hx : Cells.read t.mem a = some x) :
    Cells.read s.mem a = some x ∨ x ∈ writtenValues (latchedRun b.cmd (s.env b) s.port) a := by
  rw [exec_latchedInstr hb] at h
  have hw := latchedRun_within b.cmd (s.env b) s.port rfl
  have key : ∀ e, latchedRun b.cmd (s.env b) s.port = .ok e ∨ latchedRun b.cmd (s.env b) s.port = .raise e →
      Wrote (s.env b) (inWriteSet (s.env b) b.cmd) s.port e.port ∧
        (latchedRun b.cmd (s.env b) s.port).lastPort = e.port := by
    rintro e (he | he) <;> rw [he] at hw ⊢ <;> exact ⟨hw.2, rfl⟩
  rcases complete_cases (latchedRun b.cmd (s.env b) s.port) s with ⟨e, he, hn⟩ | ⟨f, p, -, hn⟩
  · rw [hn] at h
    cases h
    obtain ⟨hw, hl⟩ := key e he
    rcases hw.final a with h1 | ⟨y, h1, hy⟩
    · exact .inl (h1.symm.trans hx)
    · cases (h1.symm.trans hx)
      right
      simp only [writtenValues, hl, List.mem_map, List.mem_filter, decide_eq_true_eq]
      exact ⟨(a, x), ⟨hy, rfl⟩, rfl⟩
  · rw [hn] at h
    cases h

/-- The block a header instruction stands for (R84). -/
def headerClass : Instr → Option BlockClass
  | .scTerm => some .term
  | .scRawLow h => some (.raw (rawSize h.toNat))
  | .scRawHigh h => some (.raw (rawSize (0x80 + h.toNat)))
  | .scSparse1 c => some (.sparse 1 (some c.toNat))
  | .scSparse2 => some (.sparse 2 none)
  | .scSparse3 => some (.sparse 3 none)
  | .scSparse4 => some (.sparse 4 none)
  | .scReservedC0 _ | .scReservedC5 | .scReservedC6 _ => some .reserved
  | .scReservedC8 _ | .scReservedD0 _ | .scReservedE0 _ => some .reserved
  | .scDecode _ | .vlDecode _ | .hufDecode _ | .popcount _ | .bitrev _ => none
  | .reservedOp0 _ | .reservedOp67 _ _ | .reservedOp8F _ _ | .ctrlStore _ _ => none

theorem headerClass_decodeHeader (h : Byte) : headerClass (decodeHeader h) = some (blockClass h) := by
  revert h; decide +kernel

/-- A header instruction's meaning is its block's. -/
theorem exec_of_headerClass {i : Instr} {c : BlockClass} (h : headerClass i = some c) (s : State) :
    exec i s = runBlock c s := by
  cases i <;> simp only [headerClass, Option.some.injEq, reduceCtorEq] at h <;> subst h <;> rfl

/-- A header byte's meaning is the block R163 names. -/
theorem exec_decodeHeader (h : Byte) (s : State) : exec (decodeHeader h) s = runBlock (blockClass h) s :=
  exec_of_headerClass (headerClass_decodeHeader h) s

/-- A block run at a state in the block loop. -/
theorem runBlock_busy {s : State} {b : Busy} {w : ScWork} (c : BlockClass) (h : s.phase = .busy b)
    (hw : b.work = .sc w) : runBlock c s =
      match sparseBlock (s.env b) c w s.port with
      | .loop w' m => .next { s with mem := m.mem, phase := .busy { b with work := .sc w' } }
      | .ended x => complete x s := by
  simp only [runBlock, h, hw] <;> rfl

/-- One step in the block loop is one turn of R163's loop. -/
theorem blockStep_eq {s : State} {b : Busy} {w : ScWork} : blockStep b w s =
      match sparseTurn (s.env b) w s.port with
      | .loop w' m => .next { s with mem := m.mem, phase := .busy { b with work := .sc w' } }
      | .ended x => complete x s := by
  unfold blockStep sparseTurn
  cases hh : sparseHead (s.env b) w s.port with
  | ended x => rfl
  | header h =>
    simp only [exec_decodeHeader, runBlock]
    change (match sparseBlock (s.env b) (blockClass h) { w with pos := w.pos + 1 } s.port with
      | .loop w' m => _ | .ended x => _) = _
    cases sparseBlock (s.env b) (blockClass h) { w with pos := w.pos + 1 } s.port with
    | loop w' m => rfl
    | ended x => cases x <;> rfl

/-! ### What a step can be -/

/-- A step that is a host event, or the engine's turn, or nothing (R265). -/
theorem step_cases (s : State) :
    (s.phase = .idle ∧ s.host = [] ∧ step s = .next s) ∨
    (∃ op rest, s.host = op :: rest ∧ step s = hostStep op (takeEvent rest s)) ∨
    ∃ b, s.phase = .busy b ∧ step s = engineStep b s := by
  unfold step
  cases hp : s.phase with
  | idle =>
    cases hh : s.host with
    | nil => exact .inl ⟨rfl, rfl, rfl⟩
    | cons op rest => exact .inr (.inl ⟨op, rest, rfl, rfl⟩)
  | busy b =>
    cases hh : s.host with
    | nil => exact .inr (.inr ⟨b, rfl, rfl⟩)
    | cons op rest =>
      dsimp only
      split_ifs
      · exact .inr (.inr ⟨b, rfl, rfl⟩)
      · exact .inr (.inl ⟨op, rest, rfl, rfl⟩)

/-- The engine's turn from fresh or from inside a command: a completion, or a turn of the block loop. -/
theorem engineStep_cases (b : Busy) (s : State) (hb : s.phase = .busy b) :
    (b.work = .fresh ∧ engineStep b s = complete (latchedRun b.cmd (s.env b) s.port) s) ∨
    (∃ w, b.work = .sc w ∧ engineStep b s = blockStep b w s) ∨
    (∃ w, b.work = .vl w ∧ engineStep b s = complete (varlenFrom (s.env b) b.cmd.dend w s.port) s) ∨
    (∃ w, b.work = .huf w ∧
      engineStep b s = complete (huffmanFrom (s.env b) b.cmd.send ((symbolWidth b.cmd.symw).getD 1) w s.port) s) ∨
    (∃ w, b.work = .pop w ∧ engineStep b s = complete (popcountFrom (s.env b) b.cmd.send w s.port) s) ∨
    ∃ w, b.work = .rev w ∧ engineStep b s = complete (bitrevFrom (s.env b) w s.port) s := by
  cases hw : b.work with
  | fresh => exact .inl ⟨rfl, engineStep_fresh hb hw⟩
  | sc w => exact .inr (.inl ⟨w, rfl, by simp only [engineStep, hw]⟩)
  | vl w => exact .inr (.inr (.inl ⟨w, rfl, by simp only [engineStep, hw]⟩))
  | huf w => exact .inr (.inr (.inr (.inl ⟨w, rfl, by simp only [engineStep, hw]⟩)))
  | pop w => exact .inr (.inr (.inr (.inr (.inl ⟨w, rfl, by simp only [engineStep, hw]⟩))))
  | rev w => exact .inr (.inr (.inr (.inr (.inr ⟨w, rfl, by simp only [engineStep, hw]⟩))))

/-- Every command ends: from a launch the engine answers a next state that is a completion, or a model fault. -/
theorem complete_is (x : Act Ending) (s : State) :
    (∃ e, complete x s = .next (finishWith e s)) ∨ ∃ f, complete x s = .fault f := by
  rcases complete_cases x s with ⟨e, -, h⟩ | ⟨f, -, -, h⟩
  · exact .inl ⟨e, h⟩
  · exact .inr ⟨f, h⟩

end Sys2Proof.Machine
end

