-- ==== Sys2Proof/Laws/Log.lean ====
section
/-! SUPPORT. The engine's log of written values is only for the draws of spec/20_memory.md R70(e): from two ports with the same MEM
every action of SC_DECODE comes out the same but for the log. So a decode cut into block steps, each starting a new log, is the
decode in one step. -/

namespace Sys2Proof.Machine

/-- Two endings alike but for the log. -/
def Ending.Like (e f : Ending) : Prop :=
  e.code = f.code ∧ e.len = f.len ∧ e.pos = f.pos ∧ e.endian = f.endian ∧ e.port.mem = f.port.mem

/-- Two actions that come out alike. -/
def Act.Like {α : Type} (r : α → α → Prop) : Act α → Act α → Prop
  | .ok a, .ok b => r a b
  | .raise e, .raise f => e.Like f
  | .fault f _, .fault g _ => f = g
  | _, _ => False

/-- Ports with the same MEM. -/
def Port.Like (m m' : Port) : Prop := m.mem = m'.mem

/-- Working states equal, ports alike. -/
def LoopLike (x y : ScWork × Port) : Prop := x.1 = y.1 ∧ x.2.Like y.2

theorem Act.Like.bind {α β : Type} {r : α → α → Prop} {q : β → β → Prop} {x y : Act α} {k l : α → Act β}
    (h : x.Like r y) (hk : ∀ a b, r a b → (k a).Like q (l b)) : (x.bind k).Like q (y.bind l) := by
  cases x <;> cases y <;> first | exact h.elim | exact hk _ _ h | exact h

/-- A read gives the same value from ports alike. -/
theorem memRead_like (v : Env) {m m' : Port} (h : m.Like m') (a : Nat) : (memRead v m a).Like Eq (memRead v m' a) := by
  simp only [memRead, show m.mem = m'.mem from h]
  split_ifs
  · cases Cells.read m'.mem a <;> exact rfl
  · exact rfl

theorem memWrite_like (v : Env) {m m' : Port} (h : m.Like m') (a : Nat) (b : Byte) :
    (memWrite v m a b).Like Port.Like (memWrite v m' a b) := by
  unfold memWrite
  split_ifs
  · exact show Cells.write m.mem a b = Cells.write m'.mem a b by rw [show m.mem = m'.mem from h]
  · exact rfl

theorem setBit_like (v : Env) (base : Nat) (big : Bool) (i : Nat) (b : Bool) {m m' : Port} (h : m.Like m') :
    (setBit v base big i b m).Like Port.Like (setBit v base big i b m') :=
  Act.Like.bind (memRead_like v h _) fun _ _ hxy => hxy ▸ memWrite_like v h _ _

theorem setBits_like (v : Env) (base : Nat) (big : Bool) (bs : List Bool) (i : Nat) {m m' : Port} (h : m.Like m') :
    (setBits v base big i bs m).Like Port.Like (setBits v base big i bs m') := by
  induction bs generalizing i m m' with
  | nil => exact h
  | cons b bs ih => exact Act.Like.bind (setBit_like v base big i b h) fun _ _ h' => ih (i + 1) h'

theorem streamError_like {α : Type} {r : α → α → Prop} (code : ErrCode) (pos : Nat) {m m' : Port} (h : m.Like m') :
    (Act.streamError code pos m : Act α).Like r (Act.streamError code pos m') := ⟨rfl, rfl, rfl, rfl, h⟩

theorem readInput_like (v : Env) (eos : ErrCode) (pos : Nat) {m m' : Port} (h : m.Like m') :
    (readInput v eos pos m).Like Eq (readInput v eos pos m') := by
  unfold readInput
  split_ifs
  · exact streamError_like eos pos h
  · exact memRead_like v h _

theorem readLittleEndian_like (v : Env) (eos : ErrCode) (n pos : Nat) {m m' : Port} (h : m.Like m') :
    (readLittleEndian v eos n pos m).Like Eq (readLittleEndian v eos n pos m') := by
  induction n generalizing pos with
  | zero => exact rfl
  | succ n ih =>
    refine Act.Like.bind (readInput_like v eos pos h) fun _ _ hxy => ?_
    exact Act.Like.bind (ih (pos + 1)) fun a b hab => by rw [hxy, hab]; exact rfl

theorem copyRaw_like (v : Env) (n pos k : Nat) {m m' : Port} (h : m.Like m') :
    (copyRaw v n pos k m).Like Port.Like (copyRaw v n pos k m') := by
  induction n generalizing pos k m m' with
  | zero => exact h
  | succ n ih =>
    refine Act.Like.bind (readInput_like v .truncated pos h) fun x _ hxy => ?_
    subst hxy
    exact Act.Like.bind (memWrite_like v h _ x) fun _ _ h' => ih (pos + 1) (k + 1) h'

theorem setIndices_like (v : Env) (k n : Nat) (w : ScWork) {m m' : Port} (h : m.Like m') :
    (setIndices v k n w m).Like LoopLike (setIndices v k n w m') := by
  induction n generalizing w m m' with
  | zero => exact ⟨rfl, h⟩
  | succ n ih =>
    refine Act.Like.bind (readLittleEndian_like v .truncated k w.pos h) fun _ _ hxy => ?_
    subst hxy
    split_ifs
    · exact streamError_like _ _ h
    · exact Act.Like.bind (setBit_like v _ _ _ _ h) fun _ _ h' => ih _ h'

theorem spoil_like (v : Env) {m m' : Port} (h : m.Like m') : (m.spoil v).Like (m'.spoil v) := by
  unfold Port.spoil
  generalize spoiledBytes v v.regs.destination = cs
  induction cs generalizing m m' with
  | nil => exact h
  | cons c cs ih => exact ih (show Cells.write m.mem c.1 c.2 = Cells.write m'.mem c.1 c.2 by rw [show m.mem = m'.mem from h])

theorem spoilOnError_like {α : Type} {r : α → α → Prop} (v : Env) {x y : Act α} (h : x.Like r y) :
    (Act.spoilOnError v x).Like r (Act.spoilOnError v y) := by
  cases x <;> cases y <;> first | exact h.elim | exact h | exact ⟨h.1, h.2.1, h.2.2.1, h.2.2.2.1, spoil_like v h.2.2.2.2⟩

theorem sparseDone_like (v : Env) (w : ScWork) {m m' : Port} (h : m.Like m') :
    (sparseDone v w m).Like Ending.Like (sparseDone v w m') :=
  Act.Like.bind (setBits_like v _ _ _ _ h) fun _ _ h' => ⟨rfl, rfl, rfl, rfl, h'⟩

/-- Two turns of the block loop that come out alike. -/
def BlockNext.Like : BlockNext → BlockNext → Prop
  | .loop w m, .loop w' m' => w = w' ∧ m.Like m'
  | .ended x, .ended y => x.Like Ending.Like y
  | _, _ => False

theorem BlockNext.ofAct_like (v : Env) {x y : Act (ScWork × Port)} (h : x.Like LoopLike y) :
    (BlockNext.ofAct v x).Like (BlockNext.ofAct v y) := by
  have key := spoilOnError_like v h
  cases x <;> cases y <;> first | exact h.elim | exact h | exact key

theorem sparseBlock_like (v : Env) (c : BlockClass) (w : ScWork) {m m' : Port} (h : m.Like m') :
    (sparseBlock v c w m).Like (sparseBlock v c w m') := by
  cases c with
  | term => exact sparseDone_like v w h
  | reserved => exact BlockNext.ofAct_like v (streamError_like .badBlock w.pos h)
  | raw size =>
    refine BlockNext.ofAct_like v ?_
    unfold rawBlock
    split_ifs
    · exact streamError_like _ _ h
    · exact Act.Like.bind (copyRaw_like v _ _ _ h) fun _ _ h' => ⟨rfl, h'⟩
  | sparse k count =>
    refine BlockNext.ofAct_like v (Act.Like.bind (r := Eq) ?_ fun a b hab => ?_)
    · cases count with
      | some c => exact rfl
      | none => exact Act.Like.bind (readInput_like v .truncated w.pos h) fun a b hab => by rw [hab]; exact rfl
    · subst hab
      exact Act.Like.bind (setIndices_like v k _ _ h) fun _ _ hxy => ⟨by rw [hxy.1], hxy.2⟩

theorem sparseTurn_like (v : Env) (w : ScWork) {m m' : Port} (h : m.Like m') :
    (sparseTurn v w m).Like (sparseTurn v w m') := by
  unfold sparseTurn sparseHead
  split_ifs with hc
  · change Act.Like _ _ _
    unfold sparseCovered
    split_ifs
    · exact sparseDone_like v w h
    · exact Act.Like.bind (memRead_like v h _) fun a b hab => by
        subst hab; exact sparseDone_like v _ h
  · have hr := readInput_like v .truncated w.pos h
    have key := spoilOnError_like v hr
    cases hx : readInput v .truncated w.pos m <;> cases hy : readInput v .truncated w.pos m' <;>
      rw [hx, hy] at hr <;> rw [hx, hy] at key
    case ok.ok => cases hr; exact sparseBlock_like v _ _ h
    case raise.raise => exact ⟨key.1, key.2.1, key.2.2.1, key.2.2.2.1, key.2.2.2.2⟩
    case fault.fault => exact hr
    all_goals exact hr.elim

/-- A completion does not show the log. -/
theorem complete_like {x y : Act Ending} (h : x.Like Ending.Like y) (s : State) : complete x s = complete y s := by
  have key : ∀ e f : Ending, e.Like f → finishWith e s = finishWith f s := by
    rintro ⟨c, l, p, g, m⟩ ⟨c', l', p', g', m'⟩ ⟨h1, h2, h3, h4, h5⟩
    simp only at h1 h2 h3 h4 h5
    subst h1 h2 h3 h4
    simp [finishWith, Results.after, h5]
  cases x <;> cases y <;> first | exact h.elim | exact congrArg _ (key _ _ h) | exact congrArg _ h

end Sys2Proof.Machine
end

