-- ==== Sys2Proof/Laws/PerInstr.lean ====
section
/-! SUPPORT. One family of statements per instruction: `RowMatch` says that the encoding of a well-formed instruction belongs to
its own row of spec/opcode_table.json, by that row's mask and match. -/

namespace Sys2Proof.Laws.RowMatch

open Sys2Proof

/-- The mask and match of each instruction's row (spec/opcode_table.json). -/
def rowOf : Instr → Code × Code
  | .scDecode _ => (.word 0x8000000F, .word 0x80000001)
  | .vlDecode _ => (.word 0x8000000F, .word 0x80000002)
  | .hufDecode _ => (.word 0x8000000F, .word 0x80000003)
  | .popcount _ => (.word 0x8000000F, .word 0x80000004)
  | .bitrev _ => (.word 0x8000000F, .word 0x80000005)
  | .reservedOp0 _ => (.word 0x8000000F, .word 0x80000000)
  | .reservedOp67 _ _ => (.word 0x8000000E, .word 0x80000006)
  | .reservedOp8F _ _ => (.word 0x80000008, .word 0x80000008)
  | .ctrlStore _ _ => (.word 0x80000000, .word 0x00000000)
  | .scTerm => (.header 0xFF, .header 0x00)
  | .scRawLow _ => (.header 0x80, .header 0x00)
  | .scRawHigh _ => (.header 0xE0, .header 0x80)
  | .scSparse1 _ => (.header 0xE0, .header 0xA0)
  | .scSparse2 => (.header 0xFF, .header 0xC2)
  | .scSparse3 => (.header 0xFF, .header 0xC3)
  | .scSparse4 => (.header 0xFF, .header 0xC4)
  | .scReservedC0 _ => (.header 0xFE, .header 0xC0)
  | .scReservedC5 => (.header 0xFF, .header 0xC5)
  | .scReservedC6 _ => (.header 0xFE, .header 0xC6)
  | .scReservedC8 _ => (.header 0xF8, .header 0xC8)
  | .scReservedD0 _ => (.header 0xF0, .header 0xD0)
  | .scReservedE0 _ => (.header 0xE0, .header 0xE0)

/-- A code belongs to a row. -/
def inRow : Code → Code × Code → Bool
  | .word w, (.word mask, .word pattern) => rowMatches w mask pattern
  | .header h, (.header mask, .header pattern) => rowMatches h mask pattern
  | _, _ => false

/-- The encoding of a well-formed instruction is one of its row's. -/
def Statement (i : Instr) : Prop := i.wellFormed = true → inRow (encode i) (rowOf i) = true

theorem scDecode (f : CtrlBits) : Statement (.scDecode f) := by
  obtain ⟨ie, symw, dend, send⟩ := f
  unfold Statement
  revert ie symw dend send
  decide +kernel

theorem vlDecode (f : CtrlBits) : Statement (.vlDecode f) := by
  obtain ⟨ie, symw, dend, send⟩ := f
  unfold Statement
  revert ie symw dend send
  decide +kernel

theorem hufDecode (f : CtrlBits) : Statement (.hufDecode f) := by
  obtain ⟨ie, symw, dend, send⟩ := f
  unfold Statement
  revert ie symw dend send
  decide +kernel

theorem popcount (f : CtrlBits) : Statement (.popcount f) := by
  obtain ⟨ie, symw, dend, send⟩ := f
  unfold Statement
  revert ie symw dend send
  decide +kernel

theorem bitrev (f : CtrlBits) : Statement (.bitrev f) := by
  obtain ⟨ie, symw, dend, send⟩ := f
  unfold Statement
  revert ie symw dend send
  decide +kernel

theorem reservedOp0 (f : CtrlBits) : Statement (.reservedOp0 f) := by
  obtain ⟨ie, symw, dend, send⟩ := f
  unfold Statement
  revert ie symw dend send
  decide +kernel

theorem reservedOp67 (lo : BitVec 1) (f : CtrlBits) : Statement (.reservedOp67 lo f) := by
  obtain ⟨ie, symw, dend, send⟩ := f
  unfold Statement
  revert lo ie symw dend send
  decide +kernel

theorem reservedOp8F (lo : BitVec 3) (f : CtrlBits) : Statement (.reservedOp8F lo f) := by
  obtain ⟨ie, symw, dend, send⟩ := f
  unfold Statement
  revert lo ie symw dend send
  decide +kernel

theorem ctrlStore (op : BitVec 4) (f : CtrlBits) : Statement (.ctrlStore op f) := by
  obtain ⟨ie, symw, dend, send⟩ := f
  unfold Statement
  revert op ie symw dend send
  decide +kernel

theorem scRawLow (h : BitVec 7) : Statement (.scRawLow h) := by
  unfold Statement
  revert h
  decide +kernel

theorem scRawHigh (h : BitVec 5) : Statement (.scRawHigh h) := by
  unfold Statement
  revert h
  decide +kernel

theorem scSparse1 (c : BitVec 5) : Statement (.scSparse1 c) := by
  unfold Statement
  revert c
  decide +kernel

theorem scReservedC0 (lo : BitVec 1) : Statement (.scReservedC0 lo) := by
  unfold Statement
  revert lo
  decide +kernel

theorem scReservedC6 (lo : BitVec 1) : Statement (.scReservedC6 lo) := by
  unfold Statement
  revert lo
  decide +kernel

theorem scReservedC8 (lo : BitVec 3) : Statement (.scReservedC8 lo) := by
  unfold Statement
  revert lo
  decide +kernel

theorem scReservedD0 (lo : BitVec 4) : Statement (.scReservedD0 lo) := by
  unfold Statement
  revert lo
  decide +kernel

theorem scReservedE0 (lo : BitVec 5) : Statement (.scReservedE0 lo) := by
  unfold Statement
  revert lo
  decide +kernel

theorem scTerm : Statement .scTerm := by
  unfold Statement
  decide

theorem scSparse2 : Statement .scSparse2 := by
  unfold Statement
  decide

theorem scSparse3 : Statement .scSparse3 := by
  unfold Statement
  decide

theorem scSparse4 : Statement .scSparse4 := by
  unfold Statement
  decide

theorem scReservedC5 : Statement .scReservedC5 := by
  unfold Statement
  decide

end Sys2Proof.Laws.RowMatch
end

