-- ==== Sys2Proof/Laws/Words.lean ====
section
/-! SUPPORT. Command words by their fields, and the REG map by its ranges: what `decodeWord` and `regAt` give,
said once, so that no later proof goes through their rows. -/

namespace Sys2Proof.Machine

/-! ### Command words -/

/-- The bits the decoder tests: START and OP. -/
theorem startAndOp (w : Word) :
    w &&& 0x8000000F = BitVec.ofBool (w.getLsbD 31) ++ 0#27 ++ w.extractLsb' 0 4 := by
  apply BitVec.eq_of_getLsbD_eq
  intro i hi
  simp only [BitVec.getLsbD_and, BitVec.getLsbD_append, BitVec.getLsbD_extractLsb', BitVec.getLsbD_ofBool]
  interval_cases i <;> simp

/-- The instruction a word is, by START and OP (R81, R82). -/
def instrOf (start : Bool) (op : BitVec 4) (f : CtrlBits) : Instr :=
  if start then
    match op.toNat with
    | 0 => .reservedOp0 f | 1 => .scDecode f | 2 => .vlDecode f | 3 => .hufDecode f | 4 => .popcount f
    | 5 => .bitrev f | 6 => .reservedOp67 0 f | 7 => .reservedOp67 1 f
    | n => .reservedOp8F (BitVec.ofNat 3 n) f
  else .ctrlStore op f

theorem rowMatches_and {w mask mask' pattern : Word} (h : mask' &&& mask = mask) :
    rowMatches w mask pattern = rowMatches (w &&& mask') mask pattern := by
  simp only [rowMatches, BitVec.and_assoc, h]

theorem extract_low {w : Word} (n : Nat) (h : n ≤ 4) :
    w.extractLsb' 0 n = (w.extractLsb' 0 4).extractLsb' 0 n := by
  apply BitVec.eq_of_getLsbD_eq
  intro i hi
  simp only [BitVec.getLsbD_extractLsb']
  simp [hi, show i < 4 by omega]

/-- Every command word is the instruction its START and OP name (R81, R82). -/
theorem decodeWord_eq (w : Word) : decodeWord w = instrOf (w.getLsbD 31) (w.extractLsb' 0 4) (.ofWord w) := by
  unfold decodeWord
  rw [rowMatches_and (w := w) (mask := 0x8000000F) (mask' := 0x8000000F) (by decide),
    rowMatches_and (w := w) (mask := 0x8000000F) (mask' := 0x8000000F) (by decide),
    rowMatches_and (w := w) (mask := 0x8000000F) (mask' := 0x8000000F) (by decide),
    rowMatches_and (w := w) (mask := 0x8000000F) (mask' := 0x8000000F) (by decide),
    rowMatches_and (w := w) (mask := 0x8000000F) (mask' := 0x8000000F) (by decide),
    rowMatches_and (w := w) (mask := 0x8000000F) (mask' := 0x8000000F) (by decide),
    rowMatches_and (w := w) (mask := 0x8000000E) (mask' := 0x8000000F) (by decide),
    rowMatches_and (w := w) (mask := 0x80000008) (mask' := 0x8000000F) (by decide),
    extract_low (w := w) 1 (by decide), extract_low (w := w) 3 (by decide), startAndOp]
  generalize w.getLsbD 31 = start
  generalize w.extractLsb' 0 4 = op
  generalize CtrlBits.ofWord w = f
  revert start op
  obtain ⟨ie, symw, dend, send⟩ := f
  revert ie symw dend send
  decide +kernel

/-- A word with START = 1 while IDLE launches (R120). -/
theorem exec_start {s : State} {w : Word} (hi : s.phase = .idle) (hw : w.getLsbD 31 = true) :
    exec (decodeWord w) s = .next (launch (w.extractLsb' 0 4) (.ofWord w) s) := by
  have key : ∀ (o : BitVec 4) (f : CtrlBits) (run : Env → Port → Act Ending),
      runCommand o f run s = .next (launch o f s) := fun o f run => runCommand_idle hi
  have eight : ∀ op : BitVec 4, op.toNat ∉ List.range 8 → 0b1#1 ++ BitVec.ofNat 3 op.toNat = op := by decide
  rw [decodeWord_eq, hw]
  generalize CtrlBits.ofWord w = f
  generalize w.extractLsb' 0 4 = op
  simp only [instrOf, if_true]
  have ofNat : ∀ (op : BitVec 4) (n : Nat), op.toNat = n → BitVec.ofNat 4 n = op := fun op n h => by rw [← h]; simp
  split
  case h_9 => simp only [exec, execReservedOp8F, key]; rw [eight op (by simp [List.range, List.range.loop]; tauto)]
  all_goals rename_i h; rw [← ofNat op _ h]; simp only [exec, execReservedOp0, execScDecode, execVlDecode,
    execHufDecode, execPopcount, execBitrev, execReservedOp67, key]; rfl

/-- A word with START = 0 stores its fields (R25). -/
theorem decodeWord_store {w : Word} (hw : w.getLsbD 31 = false) :
    decodeWord w = .ctrlStore (w.extractLsb' 0 4) (.ofWord w) := by
  rw [decodeWord_eq, hw]; rfl

/-! ### The REG map (R21) -/

/-- Above the named registers the map is the two windows. -/
theorem regAtWord_windows (j : Nat) : regAtWord (j + 16) =
    if 0x40 ≤ j + 16 ∧ j + 16 < 0x140 then .hcount (j + 16 - 0x40)
    else if 0x400 ≤ j + 16 ∧ j + 16 < 0x1400 then .hsym (j + 16 - 0x400)
    else .reserved := rfl

theorem regAtWord_hcount {k : Nat} (h1 : 0x40 ≤ k) (h2 : k < 0x140) : regAtWord k = .hcount (k - 0x40) := by
  obtain ⟨j, rfl⟩ : ∃ j, k = j + 16 := ⟨k - 16, by omega⟩
  rw [regAtWord_windows, if_pos ⟨h1, h2⟩]

theorem regAtWord_hsym {k : Nat} (h1 : 0x400 ≤ k) (h2 : k < 0x1400) : regAtWord k = .hsym (k - 0x400) := by
  obtain ⟨j, rfl⟩ : ∃ j, k = j + 16 := ⟨k - 16, by omega⟩
  rw [regAtWord_windows, if_neg (by omega), if_pos ⟨h1, h2⟩]

theorem regAtWord_reserved {k : Nat} (h : (16 ≤ k ∧ k < 0x40) ∨ (0x140 ≤ k ∧ k < 0x400) ∨ 0x1400 ≤ k) :
    regAtWord k = .reserved := by
  obtain ⟨j, rfl⟩ : ∃ j, k = j + 16 := ⟨k - 16, by omega⟩
  rw [regAtWord_windows, if_neg (by omega), if_neg (by omega)]

/-- The HCOUNT window. -/
theorem regAt_hcount {l : Nat} (h : l ≤ 255) : regAt (0x100 + 4 * l) = .hcount l := by
  rw [regAt, if_pos (by omega), show (0x100 + 4 * l) / 4 = 0x40 + l by omega, regAtWord_hcount (by omega) (by omega)]
  congr 1; omega

/-- The HSYM window. -/
theorem regAt_hsym {j : Nat} (h : j < 4096) : regAt (0x1000 + 4 * j) = .hsym j := by
  have h1 : (0x1000 + 4 * j) / 4 = 0x400 + j := by omega
  have h2 : 0x400 + j - 0x400 = j := by omega
  rw [regAt, if_pos (by omega), h1, regAtWord_hsym (by omega) (by omega), h2]

/-- A multiple of 4 in the HCOUNT window. -/
theorem regAt_hcount_window {o : Nat} (h4 : o % 4 = 0) (h1 : 0x100 ≤ o) (h2 : o ≤ 0x4FC) :
    regAt o = .hcount ((o - 0x100) / 4) := by
  have h := regAt_hcount (l := (o - 0x100) / 4) (by omega)
  rwa [show 0x100 + 4 * ((o - 0x100) / 4) = o by omega] at h

/-- A multiple of 4 in the HSYM window. -/
theorem regAt_hsym_window {o : Nat} (h4 : o % 4 = 0) (h1 : 0x1000 ≤ o) (h2 : o ≤ 0x4FFC) :
    regAt o = .hsym ((o - 0x1000) / 4) := by
  have h := regAt_hsym (j := (o - 0x1000) / 4) (by omega)
  rwa [show 0x1000 + 4 * ((o - 0x1000) / 4) = o by omega] at h

/-- Everything else is reserved. -/
theorem regAt_reserved {o : Nat}
    (h : o % 4 ≠ 0 ∨ (0x40 ≤ o ∧ o < 0x100) ∨ (0x500 ≤ o ∧ o < 0x1000) ∨ 0x5000 ≤ o) : regAt o = .reserved := by
  unfold regAt
  split_ifs with hc
  · exact regAtWord_reserved (by omega)
  · rfl

/-- The sixteen named registers, by offset. -/
theorem regAt_named {o : Nat} (h4 : o % 4 = 0) (h : o < 0x40) : o = 0x00 ∧ regAt o = .id ∨ o = 0x04 ∧ regAt o = .ctrl ∨
    o = 0x08 ∧ regAt o = .status ∨ o = 0x0C ∧ regAt o = .srcAddr ∨ o = 0x10 ∧ regAt o = .srcLen ∨
    o = 0x14 ∧ regAt o = .dstAddr ∨ o = 0x18 ∧ regAt o = .dstCap ∨ o = 0x1C ∧ regAt o = .arg0 ∨
    o = 0x20 ∧ regAt o = .arg1 ∨ o = 0x24 ∧ regAt o = .arg2 ∨ o = 0x28 ∧ regAt o = .hufNsym ∨
    o = 0x2C ∧ regAt o = .resLen ∨ o = 0x30 ∧ regAt o = .resPos ∨ o = 0x34 ∧ regAt o = .resInfo ∨
    o = 0x38 ∧ regAt o = .param0 ∨ o = 0x3C ∧ regAt o = .param1 := by
  obtain ⟨k, hk, rfl⟩ : ∃ k, k < 16 ∧ o = 4 * k := ⟨o / 4, by omega, by omega⟩
  clear h h4
  revert k
  decide

end Sys2Proof.Machine
end

