-- ==== Sys2Proof/Tests/Slice0.lean ====
section
/-! SUPPORT. Tests: ill-formed terms refused, words and bytes of every family written out from spec/30_encoding.md, one step of
every instruction with the results of spec/95_test_vectors.md, and for every statement with hypotheses a state that meets them. -/

namespace Sys2Proof.Tests

open Sys2Proof Sys2Proof.Machine

/-! ### Building small states -/

/-- MEM with bytes from an address on. -/
def memAt : Nat → List Byte → List Host.Cell
  | _, [] => []
  | a, b :: bs => (a, b) :: memAt (a + 1) bs

def regsOf (sa sl da dc a0 a1 a2 ns : Word) : Regs :=
  { srcAddr := sa, srcLen := sl, dstAddr := da, dstCap := dc, arg0 := a0, arg1 := a1, arg2 := a2, hufNsym := ns }

def noBits : CtrlBits := { ie := false, symw := 0, dend := false, send := false }
def bigSource : CtrlBits := { ie := false, symw := 0, dend := false, send := true }
def bigDest : CtrlBits := { ie := true, symw := 0, dend := true, send := false }

/-- The parameters of the tests. -/
def params : Params := { memBytes := 160, hufMaxlen := 4, hufMaxsym := 8 }

def idleState (mem : List Host.Cell) (r : Regs) : State :=
  { State.poweredOn params 0 [] with mem := mem, regs := r }

def busyWith (work : Work) (op : BitVec 4) (f : CtrlBits) (r : Regs) (mem : List Host.Cell) : Busy :=
  { cmd := { op := op, send := f.send, dend := f.dend, symw := f.symw, regs := r }, work := work, atLaunch := mem,
    delay := 2, id := 0 }

/-- A block whose engine runs a command, WIGN set so that a test sees it kept. -/
def busyState (work : Work) (op : BitVec 4) (f : CtrlBits) (r : Regs) (mem : List Host.Cell) : State :=
  { idleState mem r with
    ctrl := { op := op, bits := f }
    status := { done := false, wign := true, err := .ok }
    phase := .busy (busyWith work op f r mem) }

/-- What a test reads of a next state: ERR, RES_LEN, RES_POS, RES_INFO, and some bytes of MEM. -/
structure Shown where
  err : ErrCode
  len : Word
  pos : Word
  endian : Bool
  bytes : List (Option Byte)
deriving DecidableEq, Repr

/-- What a test reads of an outcome, with `n` bytes of MEM at `a`. -/
def shown (a n : Nat) (o : Host.Outcome State Fault Refusal) : Option Shown :=
  match o with
  | .next t => some { err := t.status.err, len := t.results.len, pos := t.results.pos, endian := t.results.endian,
                      bytes := (List.range n).map fun k => Cells.read t.mem (a + k) }
  | .fault _ | .refused _ => none

def faultOf (o : Host.Outcome State Fault Refusal) : Option Fault :=
  match o with
  | .fault f => some f
  | .next _ | .refused _ => none

def refusalOf (o : Host.Outcome State Fault Refusal) : Option Refusal :=
  match o with
  | .refused r => some r
  | .next _ | .fault _ => none

/-- The working state an outcome leaves in the block loop. -/
def workOf (o : Host.Outcome State Fault Refusal) : Option Work :=
  match o with
  | .next t => match t.phase with
    | .busy b => some b.work
    | .idle => none
  | .fault _ | .refused _ => none

/-! ### Well-formedness, decoding and encoding -/

theorem test_illformed_raw_zero : (Instr.scRawLow 0).wellFormed = false := by decide

/-- R80: bit 31, OP 1, no fields. -/
theorem test_decode_sc : decodeWord 0b10000000000000000000000000000001 = .scDecode noBits := by decide

/-- R220: DEND is bit 5, IE bit 8. -/
theorem test_decode_vl : decodeWord 0b10000000000000000000000100100010 = .vlDecode bigDest := by decide

/-- R190: SYMW is bits [7:6], SEND bit 4. -/
theorem test_decode_huf : decodeWord 0b10000000000000000000000010010011 =
    .hufDecode { ie := false, symw := 2, dend := false, send := true } := by decide

theorem test_decode_popcount : decodeWord 0b10000000000000000000000000010100 = .popcount bigSource := by decide

theorem test_decode_bitrev : decodeWord 0b10000000000000000000000000000101 = .bitrev noBits := by decide

theorem test_decode_reserved : decodeWord 0b10000000000000000000000000000000 = .reservedOp0 noBits ∧
    decodeWord 0b10000000000000000000000000000110 = .reservedOp67 0 noBits ∧
    decodeWord 0b10000000000000000000000000001000 = .reservedOp8F 0 noBits := by decide

/-- R82: bits [30:9] are ignored. -/
theorem test_decode_ignored_bits : decodeWord 0b11111111111111111111111000000101 = .bitrev noBits := by decide

/-- R25: START = 0. -/
theorem test_decode_store : decodeWord 0b00000000000000000000000100000001 =
    .ctrlStore 1 { ie := true, symw := 0, dend := false, send := false } := by decide

theorem test_decode_term : decodeHeader 0b00000000 = .scTerm := by decide
theorem test_decode_raw : decodeHeader 0b00000001 = .scRawLow 1 ∧ decodeHeader 0b01111111 = .scRawLow 127 ∧
    decodeHeader 0b10000000 = .scRawHigh 0 ∧ decodeHeader 0b10011111 = .scRawHigh 31 := by decide
theorem test_decode_sparse1 : decodeHeader 0b10100000 = .scSparse1 0 ∧ decodeHeader 0b10111111 = .scSparse1 31 := by
  decide
theorem test_decode_sparse : decodeHeader 0b11000010 = .scSparse2 ∧ decodeHeader 0b11000011 = .scSparse3 ∧
    decodeHeader 0b11000100 = .scSparse4 := by decide
theorem test_decode_reserved_headers : decodeHeader 0b11000001 = .scReservedC0 1 ∧
    decodeHeader 0b11000101 = .scReservedC5 ∧ decodeHeader 0b11000111 = .scReservedC6 1 ∧
    decodeHeader 0b11001111 = .scReservedC8 7 ∧ decodeHeader 0b11011111 = .scReservedD0 15 ∧
    decodeHeader 0b11111111 = .scReservedE0 31 := by decide

/-- R61: the word's lowest byte comes first. -/
theorem test_decode_bytes : decode .commandWord [0x22, 0x01, 0x00, 0x80, 0xFF] = .ok (.vlDecode bigDest, [0xFF]) := by
  decide
theorem test_decode_cut : decode .commandWord [0x22, 0x01, 0x00] = .error .cutCommandWord := by decide
theorem test_decode_empty : decode .blockHeader [] = .error .noBlockHeader := by decide

/-- R98: the words `CMD HUF_DECODE SEND=1 SYMW=1 IE=1` and a plain CTRL write. -/
theorem test_encode_words : encode (.hufDecode { ie := true, symw := 1, dend := false, send := true }) = .word 0x80000153 ∧
    encode (.ctrlStore 5 noBits) = .word 0x00000005 := by decide

theorem test_table_words : decodeTableWord 32 0x80000005 = some (.bitrev noBits) ∧
    decodeTableWord 8 0xC4 = some .scSparse4 ∧ decodeTableWord 16 0 = none := by decide

/-! ### One step of every instruction -/

/-- Vector S-1 (R173): `11 14 A3 01 05 11 00 FF`. -/
def streamS1 : State := busyState .fresh 1 noBits (regsOf 0 8 16 4 0 0 0 0)
  (memAt 0 [0x11, 0x14, 0xA3, 0x01, 0x05, 0x11, 0x00, 0xFF])

theorem test_sc_decode_S1 : shown 16 4 (exec (.scDecode noBits) streamS1) =
    some ⟨.ok, 20, 7, true, [some 0x44, some 0x00, some 0x40, none]⟩ := by decide +kernel

/-- Vector S-9: a raw block cut short. -/
theorem test_sc_decode_S9 : (shown 16 0 (exec (.scDecode noBits)
    (busyState .fresh 1 noBits (regsOf 0 4 16 2 0 0 0 0) (memAt 0 [0x11, 0x10, 0x02, 0xAA])))).map (fun r => (r.err, r.pos)) =
    some (.truncated, 4) := by decide +kernel

/-- R228: `E7 00 5A`, DEND = 1. -/
theorem test_vl_decode_R228 : shown 16 2 (exec (.vlDecode bigDest)
    (busyState .fresh 2 bigDest (regsOf 0 3 16 1 0 0 0 0) (memAt 0 [0xE7, 0x00, 0x5A]))) =
    some ⟨.ok, 5, 2, true, [some 0x70, none]⟩ := by decide +kernel

/-- R227: `50` is BAD_HEADER. -/
theorem test_vl_decode_bad_header : (shown 16 0 (exec (.vlDecode noBits)
    (busyState .fresh 2 noBits (regsOf 0 1 16 1 0 0 0 0) (memAt 0 [0x50])))).map (fun r => (r.err, r.pos)) =
    some (.badHeader, 1) := by decide +kernel

/-- R201: the tables and the 23 bits of "abracadabra". -/
def huffState : State :=
  { busyState .fresh 3 bigSource (regsOf 0 23 16 11 0 0 0 5) (memAt 0 [0x59, 0xCF, 0x58]) with
    hcount := [(0, 0), (1, 1), (2, 1), (3, 1), (4, 2)]
    hsym := [(0, 0x61), (1, 0x62), (2, 0x72), (3, 0x63), (4, 0x64)] }

theorem test_huf_decode_R201 : shown 16 11 (exec (.hufDecode bigSource) huffState) =
    some ⟨.ok, 11, 23, false, [some 0x61, some 0x62, some 0x72, some 0x61, some 0x63, some 0x61, some 0x64, some 0x61,
      some 0x62, some 0x72, some 0x61]⟩ := by decide +kernel

/-- R193: HCOUNT[0] must be 0. -/
theorem test_huf_decode_bad_table : shown 16 0 (exec (.hufDecode bigSource)
    { huffState with hcount := [(0, 1), (1, 1), (2, 1), (3, 1), (4, 2)] }) = some ⟨.badTable, 0, 0, false, []⟩ := by
  decide +kernel

/-- R144: `B4`, positions 0, 3, 6. -/
def popState (f : CtrlBits) : State := busyState .fresh 4 f (regsOf 0x10 8 0 0 0 8 3 0) (memAt 0x10 [0xB4])

theorem test_popcount_R144_big : shown 0x10 1 (exec (.popcount bigSource) (popState bigSource)) =
    some ⟨.ok, 2, 0, false, [some 0xB4]⟩ := by decide +kernel

theorem test_popcount_R144_little : shown 0x10 1 (exec (.popcount noBits) (popState noBits)) =
    some ⟨.ok, 0, 0, false, [some 0xB4]⟩ := by decide +kernel

/-- R149. -/
def revState : State := busyState .fresh 5 noBits (regsOf 0x10 8 0 0 0 1 0 0) (memAt 0x10 [0xB4, 0x01])

theorem test_bitrev_R149 : shown 0x10 2 (exec (.bitrev noBits) revState) =
    some ⟨.ok, 0, 0, false, [some 0x2D, some 0x01]⟩ := by decide +kernel

/-- R146: stop beyond the view. -/
theorem test_bitrev_bad_arg : (shown 0x10 2 (exec (.bitrev noBits)
    (busyState .fresh 5 noBits (regsOf 0x10 8 0 0 0 2 0 0) (memAt 0x10 [0xB4, 0x01])))) =
    some ⟨.badArg, 0, 0, false, [some 0xB4, some 0x01]⟩ := by decide +kernel

/-- Vector K-1: STATUS = 0x92 after OP 0; WIGN was set before, so bit 2 too. -/
theorem test_reserved_op0_K1 : (match exec (.reservedOp0 noBits) (busyState .fresh 0 noBits (regsOf 0 0 0 0 0 0 0 0) []) with
    | .next t => readReg t .status | .fault _ | .refused _ => 0) = 0x96 := by decide +kernel

theorem test_reserved_op67 : (shown 0 0 (exec (.reservedOp67 1 noBits)
    (busyState .fresh 7 noBits (regsOf 0 0 0 0 0 0 0 0) []))).map (fun r => r.err) = some .badCmd := by decide +kernel

theorem test_reserved_op8F : (shown 0 0 (exec (.reservedOp8F 7 noBits)
    (busyState .fresh 15 noBits (regsOf 0 0 0 0 0 0 0 0) []))).map (fun r => r.err) = some .badCmd := by decide +kernel

/-- R25: the fields read back, START as 0. -/
theorem test_ctrl_store : (match exec (.ctrlStore 5 bigDest) (idleState [] (regsOf 0 0 0 0 0 0 0 0)) with
    | .next t => (readReg t .ctrl, t.phase) | .fault _ | .refused _ => (0, .idle)) = (0x125, .idle) := by decide +kernel

/-! The block headers: a stream at 0, its header consumed; the buffer at 64. -/

/-- A block loop whose cursor is just after a block header at 2. -/
def loopWork (length offset : Nat) (big : Bool) : ScWork :=
  { pos := 3, endian := big, lenBytes := 1, length := length, offset := offset }

def loopRegs (len cap : Word) : Regs := regsOf 0 len 64 cap 0 0 0 0

/-- The block loop with its stream and a zeroed buffer of `nb` bytes. -/
def loopState (len cap : Word) (w : ScWork) (stream : List Byte) (nb : Nat) : State :=
  busyState (.sc w) 1 noBits (loopRegs len cap) (memAt 0 stream ++ memAt 64 (List.replicate nb 0))

/-- S-4: the little-endian pad bits cleared: FF becomes 0F at length 12. -/
theorem test_sc_term : shown 64 2 (exec .scTerm
    (busyState (.sc (loopWork 12 2 false)) 1 noBits (loopRegs 3 2) (memAt 64 [0xFF, 0xFF]))) =
    some ⟨.ok, 12, 3, false, [some 0xFF, some 0x0F]⟩ := by decide +kernel

/-- S-2: a raw block of 2 bytes. -/
theorem test_sc_raw_low : (exec (.scRawLow 2) (loopState 6 2 (loopWork 16 0 false) [0x01, 0x10, 0x02, 0xAB, 0xCD, 0x00] 2) |>
    fun o => (shown 64 2 o, workOf o)) = (some ⟨.ok, 0, 0, false, [some 0xAB, some 0xCD]⟩,
      some (.sc { pos := 5, endian := false, lenBytes := 1, length := 16, offset := 2 })) := by decide +kernel

/-- S-19: past the declared length. -/
theorem test_sc_raw_low_past : (shown 64 0 (exec (.scRawLow 2)
    (loopState 5 1 (loopWork 8 0 true) [0x11, 0x08, 0x02, 0xAA, 0xBB] 1))).map (fun r => (r.err, r.pos)) =
    some (.badBlock, 3) := by decide +kernel

/-- R85: header 0x80 asks for 32 * (128 - 31) bytes, past any small buffer. -/
theorem test_sc_raw_high : rawSize 0x80 = 3104 ∧ rawSize 0x9F = 4096 ∧ (shown 64 0 (exec (.scRawHigh 0)
    (loopState 5 1 (loopWork 8 0 true) [0x11, 0x08, 0x80, 0xAA, 0xBB] 1))).map (fun r => (r.err, r.pos)) =
    some (.badBlock, 3) := by decide +kernel

/-- S-33: bit 7, big-endian; O moves by 32. -/
theorem test_sc_sparse1 : (exec (.scSparse1 1) (loopState 5 1 (loopWork 8 0 true) [0x11, 0x08, 0xA1, 0x07, 0xA0] 1) |>
    fun o => (shown 64 1 o, workOf o)) = (some ⟨.ok, 0, 0, false, [some 0x01]⟩,
      some (.sc { pos := 4, endian := true, lenBytes := 1, length := 8, offset := 32 })) := by decide +kernel

/-- S-35: a two-byte index 0x000F; O moves by 8192. -/
theorem test_sc_sparse2 : (exec .scSparse2 (loopState 7 2 (loopWork 16 0 true) [0x11, 0x10, 0xC2, 0x01, 0x0F, 0x00, 0x00] 2) |>
    fun o => (shown 64 2 o, workOf o)) = (some ⟨.ok, 0, 0, false, [some 0x00, some 0x01]⟩,
      some (.sc { pos := 6, endian := true, lenBytes := 1, length := 16, offset := 8192 })) := by decide +kernel

/-- S-36: index 16 = L. -/
theorem test_sc_sparse2_bad : (shown 64 0 (exec .scSparse2
    (loopState 6 2 (loopWork 16 0 true) [0x11, 0x10, 0xC2, 0x01, 0x10, 0x00] 2))).map (fun r => (r.err, r.pos)) =
    some (.badBlock, 6) := by decide +kernel

/-- S-37: a three-byte index 3. -/
theorem test_sc_sparse3 : (exec .scSparse3
    (loopState 8 2 (loopWork 16 0 true) [0x11, 0x10, 0xC3, 0x01, 0x03, 0x00, 0x00, 0x00] 2) |>
    fun o => (shown 64 2 o, workOf o)) = (some ⟨.ok, 0, 0, false, [some 0x10, some 0x00]⟩,
      some (.sc { pos := 7, endian := true, lenBytes := 1, length := 16, offset := 2097152 })) := by decide +kernel

/-- S-38: a four-byte index 8. -/
theorem test_sc_sparse4 : (exec .scSparse4
    (loopState 9 2 (loopWork 16 0 true) [0x11, 0x10, 0xC4, 0x01, 0x08, 0x00, 0x00, 0x00, 0x00] 2) |>
    fun o => (shown 64 2 o, workOf o)) = (some ⟨.ok, 0, 0, false, [some 0x00, some 0x80]⟩,
      some (.sc { pos := 8, endian := true, lenBytes := 1, length := 16, offset := 536870912 })) := by decide +kernel

/-- S-15 to S-18: a reserved header is BAD_BLOCK with RES_POS counting it. -/
def reservedAt (h : Byte) (i : Instr) : Bool :=
  decide (decodeHeader h = i) && decide ((shown 64 0 (exec i (loopState 3 1 (loopWork 8 0 true) [0x11, 0x08, h] 1))).map
    (fun r => (r.err, r.pos)) = some (.badBlock, 3))

theorem test_sc_reserved : reservedAt 0xC0 (.scReservedC0 0) = true ∧ reservedAt 0xC5 .scReservedC5 = true ∧
    reservedAt 0xC6 (.scReservedC6 0) = true ∧ reservedAt 0xC8 (.scReservedC8 0) = true ∧
    reservedAt 0xD0 (.scReservedD0 0) = true ∧ reservedAt 0xFF (.scReservedE0 31) = true := by decide +kernel

/-- A read of what nothing has written (R46, R274). -/
theorem test_unwritten_read : faultOf (exec (.bitrev noBits)
    (busyState .fresh 5 noBits (regsOf 0x10 8 0 0 0 1 0 0) [])) = some (.unwrittenRead .mem 0x10) := by decide +kernel

/-- R70(e): an SC_DECODE that meets an unwritten input byte has zeroed its buffer before, so a host read of it while BUSY may
return 0. -/
theorem test_written_before_fault : 0 ∈ busyReadValues (busyWith .fresh 1 noBits (regsOf 0 3 16 1 0 0 0 0) (memAt 0 [0x11, 0x08]))
    (busyState .fresh 1 noBits (regsOf 0 3 16 1 0 0 0 0) (memAt 0 [0x11, 0x08])) 16 := List.mem_cons_of_mem _ (by decide +kernel)

/-- R61: a read of two bytes returns the lowest address least significant. -/
theorem test_wide_read : (match core.run 2 { idleState [(0, 0xAA), (1, 0xBB)] (regsOf 0 0 0 0 0 0 0 0) with
      host := Script.wideRead 0 2 } with
    | .next t => Script.wideValue 2 t.replies | .fault _ | .refused _ => 0) = 0xBBAA := by decide +kernel

/-- R301: the REG registers observed after reset are R21's reset values, the constants of (256, 4, 8) among them. -/
theorem test_observed_registers : State.reset.observe.registers =
    [0x42410007, 0, 0, 0, 0, 0, 0, 0, 0, 0, 0, 0, 0, 0, 0x00080004, 0xFF] := by decide +kernel

/-- The model's own refusal (log entry 9). -/
theorem test_no_block_loop : refusalOf (exec .scTerm (idleState [] (regsOf 0 0 0 0 0 0 0 0))) = some .noBlockLoop := by
  decide +kernel

/-- The instruction placed by withFetchWord is the one the next step runs. -/
theorem test_fetch : shown 2 1 (step (State.reset.withFetchWord 8 0xA1)) = some ⟨.ok, 0, 0, false, [some 0x01]⟩ ∧
    (shown 0 0 (step (State.reset.withFetchWord 32 0x80000000))).map (fun r => r.err) = some .badCmd := by decide +kernel

/-! ### States that meet the statements' hypotheses -/

/-- An outcome is a next state of which `p` holds. -/
def holdsNext (p : State → Bool) (o : Host.Outcome State Fault Refusal) : Bool :=
  match o with
  | .next t => p t
  | .fault _ | .refused _ => false

theorem next_of_holdsNext {p : State → Bool} {o : Host.Outcome State Fault Refusal} (h : holdsNext p o = true) :
    ∃ t, o = .next t ∧ p t = true := by
  cases o with
  | next t => exact ⟨t, rfl, h⟩
  | fault f => exact absurd h (by simp [holdsNext])
  | refused r => exact absurd h (by simp [holdsNext])

def zeroRegs : Regs := regsOf 0 0 0 0 0 0 0 0
def idle0 : State := idleState [(0, 0xAA)] zeroRegs

def loopS33 : State := loopState 5 1 { loopWork 8 0 true with pos := 2 } [0x11, 0x08, 0xA1, 0x07, 0xA0] 1

theorem witness_DecodeEncode : (Instr.scRawLow 1).wellFormed = true ∧ (Instr.scRawLow 127).wellFormed = true := by decide

/-- Each clause of HeaderClasses at both ends of its range. -/
theorem witness_HeaderClasses : decodeHeader 0x00 = .scTerm ∧ rawForm (decodeHeader 0x01) 1 ∧ rawForm (decodeHeader 0x20) 32 ∧
    rawForm (decodeHeader 0x21) 64 ∧ rawForm (decodeHeader 0x9F) 4096 ∧ sparseForm (decodeHeader 0xA0) [] 1 0 ∧
    sparseForm (decodeHeader 0xBF) [] 1 31 ∧ sparseForm (decodeHeader 0xC2) [255] 2 255 ∧
    sparseForm (decodeHeader 0xC4) [0] 4 0 ∧ reservedForm (decodeHeader 0xC0) ∧ reservedForm (decodeHeader 0xC1) ∧
    reservedForm (decodeHeader 0xC5) ∧ reservedForm (decodeHeader 0xFF) :=
  ⟨by decide, .inl ⟨1, by decide, by decide, by decide, by decide⟩, .inl ⟨32, by decide, by decide, by decide, by decide⟩,
    .inr (.inl ⟨33, by decide, by decide, by decide⟩), .inr (.inr ⟨31, by decide, by decide⟩),
    .inl ⟨0, by decide, rfl, rfl, by decide⟩, .inl ⟨31, by decide, rfl, rfl, by decide⟩,
    .inr (.inl ⟨by decide, rfl, 255, rfl, by decide⟩), .inr (.inr (.inr ⟨by decide, rfl, 0, rfl, by decide⟩)),
    .inl ⟨0, by decide⟩, .inl ⟨1, by decide⟩, .inr (.inl (by decide)),
    .inr (.inr (.inr (.inr (.inr ⟨31, by decide⟩))))⟩

/-- A state for each clause: a host write of CTRL at the head of the list, S-1's command just launched (and with a waiting host),
and S-33's block loop with its header `A1` at the cursor. -/
theorem witness_StepRunsInstruction :
    (({ idle0 with host := [.regWrite 4 0x80000005, .wait] } : State).phase = .idle ∧
      ({ idle0 with host := [.regWrite 4 0x80000005, .wait] } : State).host = .regWrite 4 0x80000005 :: [.wait]) ∧
    (streamS1.phase = .busy (busyWith .fresh 1 noBits streamS1.regs streamS1.mem) ∧
      engineNext (busyWith .fresh 1 noBits streamS1.regs streamS1.mem) streamS1.host = true ∧
      engineNext (busyWith .fresh 1 noBits streamS1.regs streamS1.mem) [.wait] = true) ∧
    (loopS33.phase = .busy (busyWith (.sc { loopWork 8 0 true with pos := 2 }) 1 noBits (loopRegs 5 1) loopS33.mem) ∧
      engineNext (busyWith (.sc { loopWork 8 0 true with pos := 2 }) 1 noBits (loopRegs 5 1) loopS33.mem) loopS33.host = true ∧
      0 < bytesNeeded 8 ∧ 2 < (loopRegs 5 1).srcLen.toNat ∧ (loopRegs 5 1).srcAddr.toNat + 2 < loopS33.params.memBytes ∧
      Cells.read loopS33.mem ((loopRegs 5 1).srcAddr.toNat + 2) = some 0xA1) ∧
    engineNext (busyWith .fresh 1 noBits streamS1.regs streamS1.mem) [.regRead 0] = false ∧ idle0.host = [] := by decide +kernel

theorem witness_Launch : idle0.phase = .idle ∧ (0x80000000 : Word).getLsbD 31 = true ∧
    (0x8000000F : Word).getLsbD 31 = true := by decide +kernel

theorem witness_CtrlStore : idle0.phase = .idle ∧ (0x7FFFFFFF : Word).getLsbD 31 = false ∧
    streamS1.phase = .busy (busyWith .fresh 1 noBits streamS1.regs streamS1.mem) := by decide +kernel

theorem witness_CompletionFlags : ∃ t, exec (.scDecode noBits) streamS1 = .next t ∧ (t.status.done = true) := by
  obtain ⟨t, h1, h2⟩ := next_of_holdsNext (p := fun t => t.status.done) (o := exec (.scDecode noBits) streamS1) (by decide +kernel)
  exact ⟨t, h1, h2⟩

/-- The guarded offsets, the windows at both ends, and the ignored ones where the ranges meet. -/
theorem witness_IgnoredWrites : regAt 0x004 = .ctrl ∧ regAt 0x00C = .srcAddr ∧ regAt 0x028 = .hufNsym ∧
    regAt 0x100 = .hcount 0 ∧ regAt 0x4FC = .hcount 255 ∧ regAt 0x1000 = .hsym 0 ∧ regAt 0x4FFC = .hsym 4095 ∧
    regAt 0x02C = .resLen ∧ regAt 0x03C = .param1 ∧ regAt 0x040 = .reserved ∧ regAt 0x0FC = .reserved ∧
    regAt 0x500 = .reserved ∧ regAt 0xFFC = .reserved ∧ regAt 0x5000 = .reserved ∧ regAt 0x7FFC = .reserved ∧
    regAt 0x8000 = .reserved ∧ regAt 0x005 = .reserved := by decide +kernel

theorem witness_IdentityRegisters : params.legal = true ∧
    ({ memBytes := 2 ^ 32, hufMaxlen := 255, hufMaxsym := 4096 } : Params).legal = true ∧
    ({ memBytes := 1, hufMaxlen := 1, hufMaxsym := 1 } : Params).legal = true := by decide +kernel

theorem witness_OperandReadBack :
    holdsNext (fun t => decide (t.regs.srcAddr = 7)) (hostStep (.regWrite 0x00C 7) idle0) = true ∧
    holdsNext (fun t => decide (t.regs.hufNsym = 7)) (hostStep (.regWrite 0x028 7) idle0) = true := by decide +kernel

/-- The last entry, the first offset above the table, and the last of the window. -/
theorem witness_CountTable :
    holdsNext (fun t => decide (Cells.read t.hcount 4 = some 7)) (hostStep (.regWrite (0x100 + 4 * 4) 0x10007) idle0) = true ∧
    holdsNext (fun t => decide (t = idle0)) (hostStep (.regWrite (0x100 + 4 * 5) 7) idle0) = true ∧
    holdsNext (fun t => decide (t = idle0)) (hostStep (.regWrite (0x100 + 4 * 255) 7) idle0) = true := by decide +kernel

theorem witness_SymbolTable :
    holdsNext (fun t => decide (Cells.read t.hsym 7 = some 9)) (hostStep (.regWrite (0x1000 + 4 * 7) 9) idle0) = true ∧
    holdsNext (fun t => decide (t = idle0)) (hostStep (.regWrite (0x1000 + 4 * 8) 9) idle0) = true ∧
    holdsNext (fun t => decide (t = idle0)) (hostStep (.regWrite (0x1000 + 4 * 4095) 9) idle0) = true := by decide +kernel

theorem witness_ReadsHaveNoSideEffect :
    holdsNext (fun t => decide (t.replies = [0x42410007])) (hostStep (.regRead 0) idle0) = true ∧
    holdsNext (fun t => decide (t.replies = [0xAA])) (hostStep (.memRead 0) idle0) = true := by decide +kernel

/-- POPCOUNT changes RES_LEN. -/
theorem witness_ResultsOnlyAtCompletion : ∃ t, step (popState bigSource) = .next t ∧ t.results ≠ (popState bigSource).results := by
  obtain ⟨t, h1, h2⟩ := next_of_holdsNext (p := fun t => decide (t.results ≠ (popState bigSource).results))
    (o := step (popState bigSource)) (by decide +kernel)
  exact ⟨t, h1, of_decide_eq_true h2⟩

/-- The ends of the range of offsets, and the largest legal parameters. -/
theorem witness_ResetValues : (0x004 ≤ 0x034 ∧ readReg State.reset (regAt 0x004) = 0 ∧ readReg State.reset (regAt 0x034) = 0) ∧
    ({ memBytes := 2 ^ 32, hufMaxlen := 255, hufMaxsym := 4096 } : Params).legal = true ∧
    param0Word { memBytes := 2 ^ 32, hufMaxlen := 255, hufMaxsym := 4096 } = 0x100000FF ∧
    param1Word { memBytes := 2 ^ 32, hufMaxlen := 255, hufMaxsym := 4096 } = 0xFFFFFFFF := by decide +kernel

theorem witness_ResetEvents : idle0.phase = .idle ∧
    holdsNext (fun t => decide (t.mem = [(0, 0xAA)])) (hostStep .reset idle0) = true ∧
    holdsNext (fun t => decide (t.mem = [])) (hostStep .powerOn idle0) = true ∧
    faultOf (hostStep .reset streamS1) = some .resetDuringBusy ∧
    faultOf (hostStep .powerOn streamS1) = some .resetDuringBusy := by decide +kernel

def wide0 : State := idleState [(0, 0xAA), (1, 0xBB)] zeroRegs

/-- The last byte of MEM and the first address above it; a write of two bytes and a read of two. -/
theorem witness_HostMem : holdsNext (fun t => decide (Cells.read t.mem 159 = some 5)) (hostStep (.memWrite 159 5) idle0) = true ∧
    holdsNext (fun t => decide (t = idle0)) (hostStep (.memWrite 160 5) idle0) = true ∧
    ({ idle0 with host := Script.wideWrite 158 2 0x1234 ++ [.wait] } : State).phase = .idle ∧
    ({ wide0 with host := Script.wideRead 0 2 ++ [.wait] } : State).phase = .idle ∧ ([0xAA, 0xBB] : List Byte).length = 2 ∧
    (∀ j, j < 2 → if 0 + j < wide0.params.memBytes then Cells.read wide0.mem (0 + j) = ([0xAA, 0xBB] : List Byte)[j]?
      else ([0xAA, 0xBB] : List Byte)[j]? = some 0) := by decide +kernel

/-- The ends of S-1's read set [0, 8) and write set [16, 20). -/
theorem witness_HostRace : faultOf (hostStep (.memWrite 0 5) streamS1) = some (.hostRace 0) ∧
    faultOf (hostStep (.memWrite 7 5) streamS1) = some (.hostRace 7) ∧
    faultOf (hostStep (.memWrite 19 5) streamS1) = some (.hostRace 19) ∧
    holdsNext (fun t => decide (Cells.read t.mem 8 = some 5)) (hostStep (.memWrite 8 5) streamS1) = true ∧
    holdsNext (fun t => decide (Cells.read t.mem 20 = some 5)) (hostStep (.memWrite 20 5) streamS1) = true := by decide +kernel

/-- Commands that pass and that fail their launch checks, and a BUSY engine for the tie to exec. -/
theorem witness_InUseRegions : passesLaunchChecks params (busyWith .fresh 1 noBits streamS1.regs []).cmd = true ∧
    passesLaunchChecks params (busyWith .fresh 0 noBits streamS1.regs []).cmd = false ∧
    passesLaunchChecks params (busyWith .fresh 5 noBits revState.regs []).cmd = true ∧
    streamS1.phase = .busy (busyWith .fresh 1 noBits streamS1.regs streamS1.mem) ∧
    latchedInstr (busyWith .fresh 1 noBits streamS1.regs streamS1.mem) streamS1 = .scDecode noBits := by decide +kernel

/-- S-1 with a byte of its write set held at launch: a write-set byte, and a read-set byte. -/
theorem witness_BusyReads :
    ({ streamS1 with phase := .busy (busyWith .fresh 1 noBits streamS1.regs (memAt 16 [0x77])) } : State).phase =
      .busy (busyWith .fresh 1 noBits streamS1.regs (memAt 16 [0x77])) ∧ 16 < streamS1.params.memBytes ∧
    (writeSet streamS1.params (busyWith .fresh 1 noBits streamS1.regs (memAt 16 [0x77])).cmd).holds 16 = true ∧
    Cells.read (busyWith .fresh 1 noBits streamS1.regs (memAt 16 [0x77])).atLaunch 16 = some 0x77 ∧
    (writeSet streamS1.params (busyWith .fresh 1 noBits streamS1.regs (memAt 16 [0x77])).cmd).holds 0 = false ∧
    Cells.read streamS1.mem 0 = some 0x11 ∧
    holdsNext (fun t => decide (Cells.read t.mem 16 = some 0x44))
      (exec (latchedInstr (busyWith .fresh 1 noBits streamS1.regs streamS1.mem) streamS1) streamS1) = true := by decide +kernel

def reservedState : State := busyState .fresh 0 noBits zeroRegs []

theorem witness_ReservedOps : reservedState.phase = .busy (busyWith .fresh 0 noBits zeroRegs []) := by decide +kernel

/-- A launched command whose source ends one byte past MEM, as a stream and as a view, and one whose destination does. -/
theorem witness_RegionBounds :
    ((busyState .fresh 1 noBits (regsOf 158 3 0 0 0 0 0 0) []).phase =
        .busy (busyWith .fresh 1 noBits (regsOf 158 3 0 0 0 0 0 0) []) ∧
      (busyState .fresh 1 noBits (regsOf 158 3 0 0 0 0 0 0) []).params.memBytes < (158 : Word).toNat + (3 : Word).toNat) ∧
    ((busyState .fresh 3 noBits (regsOf 158 17 0 0 0 0 0 0) []).phase =
        .busy (busyWith .fresh 3 noBits (regsOf 158 17 0 0 0 0 0 0) []) ∧
      (busyState .fresh 3 noBits (regsOf 158 17 0 0 0 0 0 0) []).params.memBytes <
        (158 : Word).toNat + bytesNeeded (17 : Word).toNat) ∧
    ((busyState .fresh 2 noBits (regsOf 0 0 0xFFFFFFFF 0xFFFFFFFF 0 0 0 0) []).phase =
        .busy (busyWith .fresh 2 noBits (regsOf 0 0 0xFFFFFFFF 0xFFFFFFFF 0 0 0 0) []) ∧
      (busyState .fresh 2 noBits (regsOf 0 0 0xFFFFFFFF 0xFFFFFFFF 0 0 0 0) []).params.memBytes <
        (0xFFFFFFFF : Word).toNat + (0xFFFFFFFF : Word).toNat) := by decide +kernel

/-- Regions that share exactly their last and first byte, and neighbours that share none. -/
theorem witness_Overlap :
    ((busyState .fresh 1 noBits (regsOf 0 8 7 4 0 0 0 0) []).phase = .busy (busyWith .fresh 1 noBits (regsOf 0 8 7 4 0 0 0 0) []) ∧
      (regsOf 0 8 7 4 0 0 0 0).streamSource.holds 7 = true ∧ (regsOf 0 8 7 4 0 0 0 0).destination.holds 7 = true) ∧
    ((regsOf 0 57 7 4 0 0 0 0).viewSource.holds 7 = true ∧ (regsOf 0 57 7 4 0 0 0 0).destination.holds 7 = true) ∧
    ((regsOf 0 8 8 4 0 0 0 0).destination.inBounds params = true ∧ (regsOf 0 8 8 4 0 0 0 0).streamSource.inBounds params = true ∧
      ∀ a, ¬ ((regsOf 0 8 8 4 0 0 0 0).streamSource.holds a = true ∧ (regsOf 0 8 8 4 0 0 0 0).destination.holds a = true)) ∧
    holdsNext (fun t => decide (t.status.err = .ok)) (exec (.scDecode noBits) streamS1) = true :=
  ⟨by decide +kernel, by decide +kernel, ⟨by decide +kernel, by decide +kernel, fun a h => by
    simp [Region.holds, Regs.streamSource, Regs.destination, regsOf] at h; omega⟩, by decide +kernel⟩

/-- Each check with all others passing: step 0, start past stop, stop past SRC_LEN, the same two of BITREV, SYMW = 3. -/
theorem witness_ArgumentChecks :
    ((busyState .fresh 4 noBits (regsOf 0 8 0 0 0 8 0 0) []).phase = .busy (busyWith .fresh 4 noBits (regsOf 0 8 0 0 0 8 0 0) []) ∧
      (regsOf 0 8 0 0 0 8 0 0).arg2 = 0) ∧
    (regsOf 0 8 0 0 8 7 1 0).arg1.toNat < (regsOf 0 8 0 0 8 7 1 0).arg0.toNat ∧
    (regsOf 0 8 0 0 0 9 1 0).srcLen.toNat < (regsOf 0 8 0 0 0 9 1 0).arg1.toNat ∧
    (regsOf 0 8 0 0 1 0 0 0).arg1.toNat < (regsOf 0 8 0 0 1 0 0 0).arg0.toNat ∧
    bytesNeeded (regsOf 0 8 0 0 0 2 0 0).srcLen.toNat < (regsOf 0 8 0 0 0 2 0 0).arg1.toNat ∧
    ({ noBits with symw := 3 } : CtrlBits).symw = 3 := by decide +kernel

theorem witness_RejectedCommands : ∃ t, exec (.reservedOp0 noBits) reservedState = .next t ∧ t.status.err = .badCmd := by
  obtain ⟨t, h1, h2⟩ := next_of_holdsNext (p := fun t => decide (t.status.err = .badCmd))
    (o := exec (.reservedOp0 noBits) reservedState) (by decide +kernel)
  exact ⟨t, h1, of_decide_eq_true h2⟩

/-- The invariant at a launched command and inside the block loop. -/
theorem inv_streamS1 : streamS1.Inv :=
  ⟨by unfold memoriesWf; decide +kernel, ⟨rfl, rfl, rfl, rfl, rfl, rfl, rfl⟩, trivial⟩

theorem inv_loopS33 : loopS33.Inv :=
  ⟨by unfold memoriesWf; decide +kernel, ⟨rfl, rfl, rfl, rfl, rfl, rfl, rfl⟩,
    ⟨rfl, by decide +kernel, by decide +kernel, by decide +kernel, by decide +kernel⟩⟩

theorem witness_EngineStaysInMem : streamS1.Inv ∧ loopS33.Inv := ⟨inv_streamS1, inv_loopS33⟩

def writtenState : State :=
  { busyState .fresh 1 noBits (regsOf 0 8 16 4 0 0 0 0) (memAt 0 (List.replicate 160 0x21)) with
    hcount := [(0, 0), (1, 0), (2, 0), (3, 0), (4, 0)]
    hsym := [(0, 0), (1, 0), (2, 0), (3, 0), (4, 0), (5, 0), (6, 0), (7, 0)] }

theorem witness_EveryCommandCompletes : writtenState.allWritten ∧ (Instr.scDecode noBits).format = .commandWord ∧
    (∀ op f, Instr.scDecode noBits ≠ .ctrlStore op f) ∧
    writtenState.phase = .busy (busyWith .fresh 1 noBits (regsOf 0 8 16 4 0 0 0 0) (memAt 0 (List.replicate 160 0x21))) :=
  ⟨by unfold State.allWritten; decide +kernel, rfl, fun _ _ h => Instr.noConfusion h, rfl⟩

theorem witness_CommandFaults : faultOf (exec (.popcount noBits)
    (busyState .fresh 4 noBits (regsOf 0x10 8 0 0 0 8 3 0) [])) = some (.unwrittenRead .mem 0x10) := by decide +kernel

theorem witness_CommandFrame : holdsNext (fun _ => true) (exec (.scDecode noBits) streamS1) = true ∧
    holdsNext (fun _ => true) (exec (.bitrev noBits) revState) = true ∧
    holdsNext (fun _ => true) (exec (.popcount noBits) (popState noBits)) = true := by decide +kernel

/-- Positions 0, 3, 6 of one byte. -/
theorem witness_PopcountResult : (popState bigSource).phase =
      .busy (busyWith .fresh 4 bigSource (regsOf 0x10 8 0 0 0 8 3 0) (memAt 0x10 [0xB4])) ∧
    (regsOf 0x10 8 0 0 0 8 3 0).viewSource.inBounds (popState bigSource).params = true ∧
    (regsOf 0x10 8 0 0 0 8 3 0).arg2 ≠ 0 ∧
    (regsOf 0x10 8 0 0 0 8 3 0).arg0.toNat ≤ (regsOf 0x10 8 0 0 0 8 3 0).arg1.toNat ∧
    (regsOf 0x10 8 0 0 0 8 3 0).arg1.toNat ≤ (regsOf 0x10 8 0 0 0 8 3 0).srcLen.toNat ∧
    ∀ k, 0 + k * 3 < 8 → (Cells.read (popState bigSource).mem (0x10 + (0 + k * 3) / 8)).isSome = true :=
  ⟨rfl, by decide +kernel, by decide +kernel, by decide +kernel, by decide +kernel, fun k hk => by
    have : (0 + k * 3) / 8 = 0 := by omega
    rw [this]; decide +kernel⟩

theorem witness_BitrevResult : revState.phase = .busy (busyWith .fresh 5 noBits revState.regs revState.mem) ∧
    revState.regs.viewSource.inBounds revState.params = true ∧ revState.regs.arg0.toNat ≤ revState.regs.arg1.toNat ∧
    revState.regs.arg1.toNat ≤ bytesNeeded revState.regs.srcLen.toNat ∧
    writtenRange revState.mem (revState.regs.srcAddr.toNat + revState.regs.arg0.toNat)
      (revState.regs.arg1.toNat - revState.regs.arg0.toNat) := by decide +kernel

theorem witness_BitrevLaws : ∃ t, exec (.bitrev noBits) revState = .next t ∧ t.status.err = .ok ∧ revState.regs.arg0 = 0 ∧
    revState.regs.arg1.toNat = bytesNeeded revState.regs.srcLen.toNat := by
  obtain ⟨t, h1, h2⟩ := next_of_holdsNext (p := fun t => decide (t.status.err = .ok)) (o := exec (.bitrev noBits) revState)
    (by decide +kernel)
  exact ⟨t, h1, of_decide_eq_true h2, by decide +kernel, by decide +kernel⟩

theorem witness_DecoderSuccess : ∃ t, exec (.scDecode noBits) streamS1 = .next t ∧ t.status.err = .ok := by
  obtain ⟨t, h1, h2⟩ := next_of_holdsNext (p := fun t => decide (t.status.err = .ok)) (o := exec (.scDecode noBits) streamS1)
    (by decide +kernel)
  exact ⟨t, h1, of_decide_eq_true h2⟩

/-- S-15, a reserved header, and a VL stream that ends. -/
def streamS15 : State := busyState .fresh 1 noBits (regsOf 0 3 16 1 0 0 0 0) (memAt 0 [0x11, 0x08, 0xC0])

theorem witness_DecoderErrors : ∃ t, exec (.scDecode noBits) streamS15 = .next t ∧ t.status.err = .badBlock := by
  obtain ⟨t, h1, h2⟩ := next_of_holdsNext (p := fun t => decide (t.status.err = .badBlock))
    (o := exec (.scDecode noBits) streamS15) (by decide +kernel)
  exact ⟨t, h1, of_decide_eq_true h2⟩

theorem witness_ErrorCodes : ∃ t, exec (.hufDecode bigSource) huffState = .next t ∧ t.status.err = .ok := by
  obtain ⟨t, h1, h2⟩ := next_of_holdsNext (p := fun t => decide (t.status.err = .ok)) (o := exec (.hufDecode bigSource) huffState)
    (by decide +kernel)
  exact ⟨t, h1, of_decide_eq_true h2⟩

/-! SC_DECODE. -/

/-- A stream at 0 of `bytes`, SRC_LEN `len`, the destination at 16 with capacity `cap`. -/
def streamState (op : BitVec 4) (len cap : Word) (bytes : List Byte) : State :=
  busyState .fresh op noBits (regsOf 0 len 16 cap 0 0 0 0) (memAt 0 bytes)

def streamBusy (op : BitVec 4) (len cap : Word) (bytes : List Byte) : Busy :=
  busyWith .fresh op noBits (regsOf 0 len 16 cap 0 0 0 0) (memAt 0 bytes)

/-- A decoder launched on a stream inside its regions, which MEM holds. -/
def streamReady (op : BitVec 4) (len cap : Word) (bytes : List Byte) : Prop :=
  (streamState op len cap bytes).phase = .busy (streamBusy op len cap bytes) ∧
    decoderRegionsOk (streamState op len cap bytes).params (streamBusy op len cap bytes).cmd.regs.streamSource
      (streamBusy op len cap bytes).cmd.regs.destination = true ∧
    holdsBytes (streamState op len cap bytes).mem (streamBusy op len cap bytes).cmd.regs.srcAddr.toNat bytes

/-- The clauses of SparseHeaderErrors: S-10 (empty), S-12, S-13 (BAD_HEADER), S-11 (cut), S-25 and S-26 (CAPACITY). -/
theorem witness_SparseHeaderErrors : streamReady 1 0 0 [] ∧ streamReady 1 1 1 [0x20] ∧ streamReady 1 1 1 [0x09] ∧
    streamReady 1 2 2 [0x12, 0x10] ∧ streamReady 1 2 2 [0x11, 0x11] ∧
    streamReady 1 6 8 [0x05, 0x00, 0x00, 0x00, 0x00, 0x01] ∧
    (0x20 : Byte).extractLsb' 5 3 ≠ 0 ∧ 8 < ((0x09 : Byte).extractLsb' 0 4).toNat ∧
    (0x12 : Byte).extractLsb' 5 3 = 0 ∧ ([0x10] : List Byte).length < ((0x12 : Byte).extractLsb' 0 4).toNat ∧
    (2 : Nat) < bytesNeeded (leValue [0x11]) ∧ 2 ^ 32 - 1 < leValue [0x00, 0x00, 0x00, 0x00, 0x01] := by
  unfold streamReady
  decide +kernel

/-- S-1's header `11 14`. -/
theorem witness_SparseDecodeIsBlockSteps : streamS1.phase = .busy (busyWith .fresh 1 noBits streamS1.regs streamS1.mem) ∧
    streamS1.host = [] ∧ holdsBytes streamS1.mem streamS1.regs.srcAddr.toNat [0x11, 0x14] ∧
    decoderRegionsOk streamS1.params streamS1.regs.streamSource streamS1.regs.destination = true ∧
    (0x11 : Byte).extractLsb' 5 3 = 0 ∧ ((0x11 : Byte).extractLsb' 0 4).toNat ≤ 8 ∧
    ([0x14] : List Byte).length = ((0x11 : Byte).extractLsb' 0 4).toNat ∧
    ([0x14] : List Byte).length < streamS1.regs.srcLen.toNat ∧ leValue [0x14] ≤ 2 ^ 32 - 1 ∧
    bytesNeeded (leValue [0x14]) ≤ streamS1.regs.dstCap.toNat := by decide +kernel

/-- `11 14 00`, and S-22 `10 00` for L = 0. -/
theorem witness_SparseZeros : streamReady 1 3 3 ([0x11, 0x14] ++ [0x00]) ∧ streamReady 1 2 0 ([0x10] ++ [0x00]) ∧
    (0x11 : Byte).extractLsb' 5 3 = 0 ∧ ((0x11 : Byte).extractLsb' 0 4).toNat = 1 ∧ bytesNeeded (leValue [0x14]) ≤ 3 ∧
    ((0x10 : Byte).extractLsb' 0 4).toNat = 0 ∧ bytesNeeded (leValue []) ≤ 0 := by
  unfold streamReady
  decide +kernel

/-- The head before coverage at the end of the input, at coverage at the end (S-6), and at coverage before `00` (S-1) and `A0` (S-7). -/
def headState (offset pos : Nat) : State :=
  loopState 5 1 { loopWork 8 offset true with pos := pos } [0x11, 0x08, 0xA1, 0x00, 0xA0] 1

def headBusy (offset pos : Nat) : Busy :=
  busyWith (.sc { loopWork 8 offset true with pos := pos }) 1 noBits (loopRegs 5 1) (headState offset pos).mem

theorem witness_SparseLoopHead :
    inBlockLoop (headState 0 5) (headBusy 0 5) { loopWork 8 0 true with pos := 5 } ∧
    inBlockLoop (headState 1 5) (headBusy 1 5) { loopWork 8 1 true with pos := 5 } ∧
    inBlockLoop (headState 1 3) (headBusy 1 3) { loopWork 8 1 true with pos := 3 } ∧
    inBlockLoop (headState 1 4) (headBusy 1 4) { loopWork 8 1 true with pos := 4 } ∧
    Cells.read (headState 1 3).mem 3 = some 0x00 ∧ Cells.read (headState 1 4).mem 4 = some 0xA0 ∧
    writtenRange (headState 1 3).mem 64 (bytesNeeded 8) ∧ engineNext (headBusy 0 5) (headState 0 5).host = true :=
  ⟨⟨rfl, rfl, by decide +kernel, by decide +kernel⟩, ⟨rfl, rfl, by decide +kernel, by decide +kernel⟩,
    ⟨rfl, rfl, by decide +kernel, by decide +kernel⟩, ⟨rfl, rfl, by decide +kernel, by decide +kernel⟩,
    by decide +kernel, by decide +kernel, by decide +kernel, by decide +kernel⟩

/-- A block loop at a block of two bytes: the shared hypotheses of the block statements. -/
def blockState (len : Word) (length : Nat) (stream : List Byte) : State := loopState len 2 (loopWork length 0 true) stream 2

def blockBusy (len : Word) (length : Nat) (stream : List Byte) : Busy :=
  busyWith (.sc (loopWork length 0 true)) 1 noBits (loopRegs len 2) (blockState len length stream).mem

theorem inBlockLoop_blockState {len : Word} {length : Nat} {stream : List Byte}
    (h : decoderRegionsOk params (loopRegs len 2).streamSource (loopRegs len 2).destination = true)
    (hn : bytesNeeded length ≤ 2) : inBlockLoop (blockState len length stream) (blockBusy len length stream)
      (loopWork length 0 true) := ⟨rfl, rfl, h, hn⟩

theorem witness_SparseTerminator : inBlockLoop (blockState 3 12 [0x11, 0x0C, 0x00]) (blockBusy 3 12 [0x11, 0x0C, 0x00])
    (loopWork 12 0 true) ∧ writtenRange (blockState 3 12 [0x11, 0x0C, 0x00]).mem 64 (bytesNeeded 12) :=
  ⟨inBlockLoop_blockState (by decide +kernel) (by decide), by decide +kernel⟩

/-- S-2's raw block; and the other two raw forms at their ends. -/
theorem witness_RawBlock : inBlockLoop (blockState 6 16 [0x01, 0x10, 0x02, 0xAB, 0xCD, 0x00])
      (blockBusy 6 16 [0x01, 0x10, 0x02, 0xAB, 0xCD, 0x00]) (loopWork 16 0 true) ∧ rawForm (.scRawLow 2) 2 ∧
    0 + 2 ≤ bytesNeeded 16 ∧ ([0xAB, 0xCD] : List Byte).length = 2 ∧ 3 + 2 ≤ (6 : Word).toNat ∧
    holdsBytes (blockState 6 16 [0x01, 0x10, 0x02, 0xAB, 0xCD, 0x00]).mem (0 + 3) [0xAB, 0xCD] ∧
    rawForm (.scRawLow 33) 64 ∧ rawForm (.scRawHigh 31) 4096 :=
  ⟨inBlockLoop_blockState (by decide +kernel) (by decide), .inl ⟨2, rfl, by decide, by decide, rfl⟩, by decide, rfl,
    by decide, by decide +kernel, .inr (.inl ⟨33, rfl, by decide, rfl⟩), .inr (.inr ⟨31, rfl, rfl⟩)⟩

/-- A raw block of 3 past 2 bytes, and S-9's block of 2 with one byte left. -/
theorem witness_RawBlockErrors : inBlockLoop (blockState 4 16 [0x11, 0x10, 0x02, 0xAA]) (blockBusy 4 16 [0x11, 0x10, 0x02, 0xAA])
      (loopWork 16 0 true) ∧ rawForm (.scRawLow 3) 3 ∧ bytesNeeded 16 < 0 + 3 ∧ rawForm (.scRawLow 2) 2 ∧
    0 + 2 ≤ bytesNeeded 16 ∧ 3 + ([0xAA] : List Byte).length = (4 : Word).toNat ∧
    holdsBytes (blockState 4 16 [0x11, 0x10, 0x02, 0xAA]).mem 3 [0xAA] :=
  ⟨inBlockLoop_blockState (by decide +kernel) (by decide), .inl ⟨3, rfl, by decide, by decide, rfl⟩, by decide,
    .inl ⟨2, rfl, by decide, by decide, rfl⟩, by decide, by decide, by decide +kernel⟩

/-- Every sparse form, with a block of one index: `A1 0F`, S-35, S-37 and S-38; and a count of 0. -/
theorem witness_SparseBlock :
    (inBlockLoop (blockState 4 16 [0x11, 0x10, 0xA1, 0x0F]) (blockBusy 4 16 [0x11, 0x10, 0xA1, 0x0F]) (loopWork 16 0 true) ∧
      sparseForm (.scSparse1 1) [] 1 1 ∧ 3 + 0 + 1 * 1 ≤ (4 : Word).toNat ∧
      holdsBytes (blockState 4 16 [0x11, 0x10, 0xA1, 0x0F]).mem 3 ([] ++ [[0x0F]].flatten) ∧
      8 * 0 + leValue [0x0F] < 16 ∧ writtenRange (blockState 4 16 [0x11, 0x10, 0xA1, 0x0F]).mem 64 (bytesNeeded 16)) ∧
    (inBlockLoop (blockState 6 16 [0x11, 0x10, 0xC2, 0x01, 0x0F, 0x00]) (blockBusy 6 16 [0x11, 0x10, 0xC2, 0x01, 0x0F, 0x00])
        (loopWork 16 0 true) ∧ sparseForm .scSparse2 [0x01] 2 1 ∧ 3 + 1 + 2 * 1 ≤ (6 : Word).toNat ∧
      holdsBytes (blockState 6 16 [0x11, 0x10, 0xC2, 0x01, 0x0F, 0x00]).mem 3 ([0x01] ++ [[0x0F, 0x00]].flatten) ∧
      8 * 0 + leValue [0x0F, 0x00] < 16 ∧
      writtenRange (blockState 6 16 [0x11, 0x10, 0xC2, 0x01, 0x0F, 0x00]).mem 64 (bytesNeeded 16)) ∧
    (sparseForm .scSparse3 [0x01] 3 1 ∧ 8 * 0 + leValue [0x03, 0x00, 0x00] < 16) ∧
    (sparseForm .scSparse4 [0x01] 4 1 ∧ 8 * 0 + leValue [0x08, 0x00, 0x00, 0x00] < 16) ∧
    sparseForm .scSparse4 [0x00] 4 0 :=
  ⟨⟨inBlockLoop_blockState (by decide +kernel) (by decide), .inl ⟨1, rfl, rfl, rfl, rfl⟩, by decide, by decide +kernel,
      by decide, by decide +kernel⟩,
    ⟨inBlockLoop_blockState (by decide +kernel) (by decide), .inr (.inl ⟨rfl, rfl, 1, rfl, rfl⟩), by decide,
      by decide +kernel, by decide, by decide +kernel⟩,
    ⟨.inr (.inr (.inl ⟨rfl, rfl, 1, rfl, rfl⟩)), by decide⟩, ⟨.inr (.inr (.inr ⟨rfl, rfl, 1, rfl, rfl⟩)), by decide⟩,
    .inr (.inr (.inr ⟨rfl, rfl, 0, rfl, rfl⟩))⟩

/-- S-36 (index 16 = L), a block cut inside its index, and S-40's form: the input ends before the count byte, the byte after it
unwritten. -/
theorem witness_SparseBlockErrors :
    (inBlockLoop (blockState 6 16 [0x11, 0x10, 0xC2, 0x01, 0x10, 0x00]) (blockBusy 6 16 [0x11, 0x10, 0xC2, 0x01, 0x10, 0x00])
        (loopWork 16 0 true) ∧ sparseForm .scSparse2 [0x01] 2 1 ∧
      holdsBytes (blockState 6 16 [0x11, 0x10, 0xC2, 0x01, 0x10, 0x00]).mem 3 ([0x01] ++ [].flatten ++ [0x10, 0x00]) ∧
      writtenRange (blockState 6 16 [0x11, 0x10, 0xC2, 0x01, 0x10, 0x00]).mem 64 (bytesNeeded 16) ∧
      16 ≤ 8 * 0 + leValue [0x10, 0x00] ∧ 3 + 1 + 2 * (0 + 1) ≤ (6 : Word).toNat) ∧
    (inBlockLoop (blockState 5 16 [0x11, 0x10, 0xC2, 0x01, 0x10]) (blockBusy 5 16 [0x11, 0x10, 0xC2, 0x01, 0x10])
        (loopWork 16 0 true) ∧
      holdsBytes (blockState 5 16 [0x11, 0x10, 0xC2, 0x01, 0x10]).mem 3 ([0x01] ++ [].flatten ++ [0x10]) ∧
      writtenRange (blockState 5 16 [0x11, 0x10, 0xC2, 0x01, 0x10]).mem 64 (bytesNeeded 16) ∧
      3 + 1 + 2 * 0 + 1 = (5 : Word).toNat) ∧
    (inBlockLoop (blockState 3 16 [0x11, 0x10, 0xC2]) (blockBusy 3 16 [0x11, 0x10, 0xC2]) (loopWork 16 0 true) ∧
      (loopWork 16 0 true).pos = (3 : Word).toNat ∧ Cells.read (blockState 3 16 [0x11, 0x10, 0xC2]).mem 3 = none) :=
  ⟨⟨inBlockLoop_blockState (by decide +kernel) (by decide), .inr (.inl ⟨rfl, rfl, 1, rfl, rfl⟩), by decide +kernel,
      by decide +kernel, by decide, by decide⟩,
    ⟨inBlockLoop_blockState (by decide +kernel) (by decide), by decide +kernel, by decide +kernel, by decide⟩,
    ⟨inBlockLoop_blockState (by decide +kernel) (by decide), by decide, by decide +kernel⟩⟩

theorem witness_ReservedHeaders : inBlockLoop (blockState 3 16 [0x11, 0x10, 0xC0]) (blockBusy 3 16 [0x11, 0x10, 0xC0])
    (loopWork 16 0 true) ∧ reservedForm (.scReservedC0 0) ∧ reservedForm (.scReservedC6 1) ∧ reservedForm (.scReservedC8 0) ∧
    reservedForm (.scReservedD0 0) ∧ reservedForm (.scReservedE0 31) ∧ reservedForm .scReservedC5 :=
  ⟨inBlockLoop_blockState (by decide +kernel) (by decide), .inl ⟨0, rfl⟩, .inr (.inr (.inl ⟨1, rfl⟩)),
    .inr (.inr (.inr (.inl ⟨0, rfl⟩))), .inr (.inr (.inr (.inr (.inl ⟨0, rfl⟩)))),
    .inr (.inr (.inr (.inr (.inr ⟨31, rfl⟩)))), .inr (.inl rfl)⟩

theorem witness_NoRefusedStep : idle0.phase = .idle ∧ ∃ b, streamS1.phase = .busy b ∧ ∀ w, b.work ≠ .sc w :=
  ⟨rfl, _, rfl, fun _ h => Work.noConfusion h⟩

/-! VL_DECODE. -/

/-- R228's `E7 00 5A`, and `40`, which decodes to no bit. -/
theorem witness_VarlenDecode : streamReady 2 3 1 [0xE7, 0x00, 0x5A] ∧ streamReady 2 1 0 [0x40] ∧
    continuationBits [0xE7, 0x00] ∧ varlenPad 0xE7 = 6 ∧ (varlenData 0xE7 [0x00]).length - varlenPad 0xE7 ≤ 8 * 1 ∧
    continuationBits [0x40] ∧ varlenPad 0x40 = 4 ∧ (varlenData 0x40 []).length - varlenPad 0x40 ≤ 8 * 0 := by
  unfold streamReady continuationBits
  decide +kernel

theorem witness_VarlenBadHeader : streamReady 2 1 1 [0x70] ∧ streamReady 2 1 1 [0x50] ∧ varlenPad 0x70 = 7 ∧
    (0x50 : Byte).getLsbD 7 = false ∧ 4 < varlenPad 0x50 := by
  unfold streamReady
  decide +kernel

/-- `80` alone, and no byte at all. -/
theorem witness_VarlenUnderflow : streamReady 2 1 1 [0x80] ∧ streamReady 2 0 1 [] ∧
    (∀ x ∈ ([0x80] : List Byte), x.getLsbD 7 = true) ∧
    varlenPad 0x80 ≠ 7 ∧ (varlenData 0x80 []).length ≤ 8 * 1 + varlenPad 0x80 := by
  unfold streamReady
  decide +kernel

/-- `38` with DST_CAP = 0. -/
theorem witness_VarlenCapacity : streamReady 2 1 0 [0x38] ∧ varlenPad 0x38 = 3 ∧
    8 * 0 + varlenPad 0x38 < (varlenData 0x38 []).length ∧ (0x38 : Byte).getLsbD 7 = false := by
  unfold streamReady
  decide +kernel

/-! HUF_DECODE: R201's tables. -/

theorem countsHeld_huffState : countsHeld huffState 0 [1, 1, 1, 2] := by
  unfold countsHeld
  decide +kernel

theorem tablesGood_R201 : tablesGood 8 5 0 [1, 1, 1, 2] ∧ codeSpace [1, 1, 1, 2] = 2 ^ 4 := by
  unfold tablesGood
  decide +kernel

/-- Good tables; and bad ones by each check: HUF_NSYM 0 and above HUF_MAXSYM, HCOUNT[0], the sum, over-subscription. -/
theorem witness_HuffmanTables : countsHeld huffState 0 [1, 1, 1, 2] ∧ tablesGood 8 5 0 [1, 1, 1, 2] ∧
    ¬ tablesGood 8 0 0 [0, 0, 0, 0] ∧ ¬ tablesGood 8 9 0 [0, 0, 1, 8] ∧ ¬ tablesGood 8 5 1 [1, 1, 1, 2] ∧
    ¬ tablesGood 8 5 0 [1, 1, 1, 1] ∧ ¬ tablesGood 8 3 0 [3, 0, 0, 0] ∧ bigSource.symw ≠ 3 ∧
    decoderRegionsOk params huffState.regs.viewSource huffState.regs.destination = true := by
  refine ⟨countsHeld_huffState, tablesGood_R201.1, ?_, ?_, ?_, ?_, ?_, ?_, ?_⟩
  all_goals first | (unfold tablesGood; decide +kernel) | decide +kernel

/-- The codes of "abr": `0`, `10`, `110`; 6 bits. -/
def abr : List CodeAt := [{ l := 0, r := 0 }, { l := 1, r := 0 }, { l := 2, r := 0 }]

def abrState (bits : Word) (cap : Word) : State :=
  { huffState with phase := .busy (busyWith .fresh 3 bigSource (regsOf 0 bits 16 cap 0 0 0 5) huffState.mem)
                   regs := regsOf 0 bits 16 cap 0 0 0 5 }

theorem among_abr : ∀ x ∈ abr, x.among [1, 1, 1, 2] := by
  unfold CodeAt.among
  decide +kernel

theorem symbolsHeld_abr (bits cap : Word) : symbolsHeld (abrState bits cap) [1, 1, 1, 2] abr [0x61, 0x62, 0x72] := by
  refine ⟨rfl, fun k x hk => ?_⟩
  match k with
  | 0 | 1 | 2 => simp only [abr] at hk; cases hk; rfl
  | n + 3 => simp [abr] at hk

/-- A HUF_DECODE launched on `bits` coded bits that MEM holds in the big view, with R201's tables. -/
theorem huffReady_abr (bits cap : Word)
    (h : decoderRegionsOk params (regsOf 0 bits 16 cap 0 0 0 5).viewSource (regsOf 0 bits 16 cap 0 0 0 5).destination = true) :
    (abrState bits cap).phase = .busy (busyWith .fresh 3 bigSource (regsOf 0 bits 16 cap 0 0 0 5) huffState.mem) ∧
      bigSource.symw = 0 ∧ countsHeld (abrState bits cap) 0 [1, 1, 1, 2] ∧
      tablesGood (abrState bits cap).params.hufMaxsym 5 0 [1, 1, 1, 2] ∧ (∀ x ∈ abr, x.among [1, 1, 1, 2]) ∧
      symbolsHeld (abrState bits cap) [1, 1, 1, 2] abr [0x61, 0x62, 0x72] ∧
      decoderRegionsOk (abrState bits cap).params (regsOf 0 bits 16 cap 0 0 0 5).viewSource
        (regsOf 0 bits 16 cap 0 0 0 5).destination = true :=
  ⟨rfl, rfl, countsHeld_huffState, tablesGood_R201.1, among_abr, symbolsHeld_abr bits cap, h⟩

/-- The 6 bits of "abr", in the big view of 59; the hypotheses that do not depend on the bits stand in huffReady_abr. -/
theorem witness_HuffmanPrefixDecode :
    (abrState 6 3).phase = .busy (busyWith .fresh 3 bigSource (regsOf 0 6 16 3 0 0 0 5) huffState.mem) ∧
    bigSource.symw = 0 ∧ countsHeld (abrState 6 3) 0 [1, 1, 1, 2] ∧
    tablesGood (abrState 6 3).params.hufMaxsym 5 0 [1, 1, 1, 2] ∧ (∀ x ∈ abr, x.among [1, 1, 1, 2]) ∧
    symbolsHeld (abrState 6 3) [1, 1, 1, 2] abr [0x61, 0x62, 0x72] ∧
    decoderRegionsOk (abrState 6 3).params (regsOf 0 6 16 3 0 0 0 5).viewSource (regsOf 0 6 16 3 0 0 0 5).destination = true ∧
    (abr.flatMap (CodeAt.digits [1, 1, 1, 2])).length = (6 : Word).toNat ∧
    abr.flatMap (CodeAt.digits [1, 1, 1, 2]) = [false, true, false, true, true, false] ∧
    holdsBits (abrState 6 3).mem 0 true 0 (abr.flatMap (CodeAt.digits [1, 1, 1, 2])) ∧ 1 * abr.length ≤ (3 : Word).toNat := by
  obtain ⟨h1, h2, h3, h4, h5, h6, h7⟩ := huffReady_abr 6 3 (by decide +kernel)
  exact ⟨h1, h2, h3, h4, h5, h6, h7, by decide +kernel, by decide +kernel, by unfold holdsBits; decide +kernel, by decide +kernel⟩

/-- R200's table of one symbol, and `bits` ones. -/
def onesState (bits : Word) : State :=
  { busyState .fresh 3 bigSource (regsOf 0 bits 16 4 0 0 0 1) (memAt 0 [0xF0]) with
    hcount := [(0, 0), (1, 1), (2, 0), (3, 0), (4, 0)]
    hsym := [(0, 0x78)] }

/-- CAPACITY: "abr" and then the code `0`, which fits no more, with DST_CAP = 3. UNDERFLOW: no code, then the cut code `1` of the
bit `1`. BAD_CODE: with the table of one symbol (R200), four ones. -/
theorem witness_HuffmanErrors :
    ((abrState 7 3).phase = .busy (busyWith .fresh 3 bigSource (regsOf 0 7 16 3 0 0 0 5) huffState.mem) ∧
      bigSource.symw = 0 ∧ countsHeld (abrState 7 3) 0 [1, 1, 1, 2] ∧
      tablesGood (abrState 7 3).params.hufMaxsym 5 0 [1, 1, 1, 2] ∧ (∀ x ∈ abr, x.among [1, 1, 1, 2]) ∧
      symbolsHeld (abrState 7 3) [1, 1, 1, 2] abr [0x61, 0x62, 0x72] ∧
      decoderRegionsOk (abrState 7 3).params (regsOf 0 7 16 3 0 0 0 5).viewSource (regsOf 0 7 16 3 0 0 0 5).destination = true ∧
      (abr.flatMap (CodeAt.digits [1, 1, 1, 2]) ++ [false]).length = (7 : Word).toNat ∧
      holdsBits (abrState 7 3).mem 0 true 0 (abr.flatMap (CodeAt.digits [1, 1, 1, 2]) ++ [false]) ∧
      1 * abr.length ≤ (3 : Word).toNat ∧ (3 : Word).toNat < 1 * (abr.length + 1) ∧
      CodeAt.among [1, 1, 1, 2] { l := 0, r := 0 } ∧ [false] = CodeAt.digits [1, 1, 1, 2] { l := 0, r := 0 } ++ [] ∧
      (Cells.read (abrState 7 3).hsym (CodeAt.position [1, 1, 1, 2] { l := 0, r := 0 })).isSome = true) ∧
    (symbolsHeld (onesState 4) [1, 0, 0, 0] [] [] ∧ countsHeld (onesState 4) 0 [1, 0, 0, 0] ∧ tablesGood 8 1 0 [1, 0, 0, 0] ∧
      decoderRegionsOk (onesState 4).params (onesState 4).regs.viewSource (onesState 4).regs.destination = true ∧
      holdsBits (onesState 4).mem 0 true 0 [true, true, true, true] ∧ [true, true, true, true].length = (onesState 4).regs.srcLen.toNat ∧
      noCodeBegins [1, 0, 0, 0] [true, true, true, true] 4) ∧
    ((onesState 1).phase = .busy (busyWith .fresh 3 bigSource (regsOf 0 1 16 4 0 0 0 1) (memAt 0 [0xF0])) ∧
      decoderRegionsOk (onesState 1).params (onesState 1).regs.viewSource (onesState 1).regs.destination = true ∧
      holdsBits (onesState 1).mem 0 true 0 [true] ∧ [true].length = (onesState 1).regs.srcLen.toNat ∧ [true] ≠ [] ∧ [true].length < 4 ∧ noCodeBegins [1, 0, 0, 0] [true] 1) := by
  obtain ⟨h1, h2, h3, h4, h5, h6, h7⟩ := huffReady_abr 7 3 (by decide +kernel)
  refine ⟨⟨h1, h2, h3, h4, h5, h6, h7, ?_⟩, ⟨⟨rfl, fun k x hk => by simp at hk⟩, ?_⟩, ?_⟩
  all_goals unfold holdsBits
  · unfold CodeAt.among; decide +kernel
  · unfold countsHeld tablesGood noCodeBegins; decide +kernel
  · unfold noCodeBegins; decide +kernel

theorem witness_CompleteCodeNoBadCode : countsHeld huffState 0 [1, 1, 1, 2] ∧ codeSpace [1, 1, 1, 2] = 2 ^ 4 ∧
    holdsNext (fun _ => true) (exec (.hufDecode bigSource) huffState) = true :=
  ⟨countsHeld_huffState, tablesGood_R201.2, by decide +kernel⟩

/-! Steps. -/

theorem witness_StepKeepsInvariant : (streamS1.Inv ∧ ∃ t, step streamS1 = .next t) ∧ loopS33.Inv ∧ ∃ t, step loopS33 = .next t := by
  obtain ⟨t, h1, -⟩ := next_of_holdsNext (p := fun _ => true) (o := step streamS1) (by decide +kernel)
  obtain ⟨u, h2, -⟩ := next_of_holdsNext (p := fun _ => true) (o := step loopS33) (by decide +kernel)
  exact ⟨⟨inv_streamS1, t, h1⟩, inv_loopS33, u, h2⟩

/-- A host write of each table while IDLE changes it. -/
theorem witness_TablesOnlyByHost :
    (∃ t, step { idle0 with host := [.regWrite 0x104 3] } = .next t ∧ t.hcount ≠ idle0.hcount) ∧
    ∃ t, step { idle0 with host := [.regWrite 0x101C 3] } = .next t ∧ t.hsym ≠ idle0.hsym := by
  obtain ⟨t, h1, h2⟩ := next_of_holdsNext (p := fun t => decide (t.hcount ≠ idle0.hcount))
    (o := step { idle0 with host := [.regWrite 0x104 3] }) (by decide +kernel)
  obtain ⟨u, h3, h4⟩ := next_of_holdsNext (p := fun t => decide (t.hsym ≠ idle0.hsym))
    (o := step { idle0 with host := [.regWrite 0x101C 3] }) (by decide +kernel)
  exact ⟨⟨t, h1, of_decide_eq_true h2⟩, u, h3, of_decide_eq_true h4⟩

/-- A busy engine with a host event before its turn. -/
theorem witness_LatchedCommandHolds :
    engineNext (busyWith .fresh 1 noBits streamS1.regs streamS1.mem) [.regWrite 4 0x80000005] = false ∧
    holdsNext (fun t => t.status.wign && t.phase.isBusy) (step { streamS1 with host := [.regWrite 4 0x80000005] }) = true := by
  decide +kernel

end Sys2Proof.Tests
end

section
/-! Who may change the parameters and the Huffman tables (R7, R9, R20, R40, R41): no step changes the parameters, and HCOUNT and
HSYM change only by a host write of an existing entry while IDLE or by a power-on. -/

namespace Sys2Proof.Machine

/-! ### The REG map backwards -/

/-- An offset is an entry of the HCOUNT window, an entry of the HSYM window, or names no table entry. -/
theorem regAt_window_cases (o : Nat) :
    (∃ l, l ≤ 255 ∧ o = 0x100 + 4 * l ∧ regAt o = .hcount l) ∨ (∃ j, j < 4096 ∧ o = 0x1000 + 4 * j ∧ regAt o = .hsym j) ∨
      (∀ l, regAt o ≠ .hcount l) ∧ ∀ j, regAt o ≠ .hsym j := by
  by_cases hr : o % 4 ≠ 0 ∨ (0x40 ≤ o ∧ o < 0x100) ∨ (0x500 ≤ o ∧ o < 0x1000) ∨ 0x5000 ≤ o
  · simp [regAt_reserved hr]
  obtain hnamed | ⟨h1, h2⟩ | ⟨h1, h2⟩ : o < 0x40 ∨ (0x100 ≤ o ∧ o ≤ 0x4FC) ∨ (0x1000 ≤ o ∧ o ≤ 0x4FFC) := by omega
  · have key := regAt_named (o := o) (by omega) hnamed
    refine .inr (.inr ⟨fun l h => ?_, fun j h => ?_⟩) <;> simp [h] at key
  · exact .inl ⟨(o - 0x100) / 4, by omega, by omega, regAt_hcount_window (by omega) h1 h2⟩
  · exact .inr (.inl ⟨(o - 0x1000) / 4, by omega, by omega, regAt_hsym_window (by omega) h1 h2⟩)

theorem regAt_eq_hcount_iff {o l : Nat} : regAt o = .hcount l ↔ l ≤ 255 ∧ o = 0x100 + 4 * l := by
  refine ⟨fun h => ?_, fun ⟨hl, ho⟩ => ho ▸ regAt_hcount hl⟩
  obtain ⟨k, hk, ho, hr⟩ | ⟨k, -, -, hr⟩ | ⟨hc, -⟩ := regAt_window_cases o
  · cases hr.symm.trans h
    exact ⟨hk, ho⟩
  · cases hr.symm.trans h
  · exact absurd h (hc l)

theorem regAt_eq_hsym_iff {o j : Nat} : regAt o = .hsym j ↔ j < 4096 ∧ o = 0x1000 + 4 * j := by
  refine ⟨fun h => ?_, fun ⟨hj, ho⟩ => ho ▸ regAt_hsym hj⟩
  obtain ⟨k, -, -, hr⟩ | ⟨k, hk, ho, hr⟩ | ⟨-, hs⟩ := regAt_window_cases o
  · cases hr.symm.trans h
  · cases hr.symm.trans h
    exact ⟨hk, ho⟩
  · exact absurd h (hs j)

/-! ### Writes and events that depend on the phase -/

theorem whenIdle_next {s u t : State} (h : whenIdle s u = .next t) :
    (s.phase = .idle ∧ t = u) ∨ t = ignoredWrite s := by
  unfold whenIdle at h
  split at h <;> cases h
  · exact .inl ⟨‹_›, rfl⟩
  · exact .inr rfl

theorem unlessBusy_next {s u t : State} (h : unlessBusy s u = .next t) : s.phase = .idle ∧ t = u := by
  unfold unlessBusy at h
  split at h <;> cases h
  exact ⟨‹_›, rfl⟩

theorem Phase.countDown_eq_idle {p : Phase} : p.countDown = .idle ↔ p = .idle := by
  cases p <;> simp

/-! ### What keeps the parameters and both tables -/

/-- The parameters, HCOUNT and HSYM are the same in both states. -/
structure KeepsTables (s t : State) : Prop where
  params : t.params = s.params
  hcount : t.hcount = s.hcount
  hsym : t.hsym = s.hsym

theorem KeepsTables.refl (s : State) : KeepsTables s s := ⟨rfl, rfl, rfl⟩

theorem complete_keepsTables {x : Act Ending} {s t : State} (h : complete x s = .next t) : KeepsTables s t := by
  rcases complete_is x s with ⟨e, he⟩ | ⟨f, he⟩ <;> rw [he] at h <;> cases h
  exact ⟨rfl, rfl, rfl⟩

theorem blockStep_keepsTables {b : Busy} {w : ScWork} {s t : State} (h : blockStep b w s = .next t) : KeepsTables s t := by
  rw [blockStep_eq] at h
  split at h
  · cases h
    exact ⟨rfl, rfl, rfl⟩
  · exact complete_keepsTables h

/-- The engine only reads the tables (R40, R41). -/
theorem engineStep_keepsTables {b : Busy} {s t : State} (hb : s.phase = .busy b) (h : engineStep b s = .next t) :
    KeepsTables s t := by
  obtain ⟨-, he⟩ | ⟨w, -, he⟩ | ⟨w, -, he⟩ | ⟨w, -, he⟩ | ⟨w, -, he⟩ | ⟨w, -, he⟩ := engineStep_cases b s hb <;>
    rw [he] at h
  case inr.inl => exact blockStep_keepsTables h
  all_goals exact complete_keepsTables h

/-- A CTRL write launches, stores CTRL's fields, or is ignored. -/
theorem writeCtrl_keepsTables {s t : State} {w : Word} (h : writeReg s w .ctrl = .next t) : KeepsTables s t := by
  cases hp : s.phase with
  | idle =>
    simp only [writeReg, hp] at h
    cases hw : w.getLsbD 31 with
    | true =>
      rw [exec_start hp hw] at h
      cases h
      exact ⟨rfl, rfl, rfl⟩
    | false =>
      simp only [decodeWord_store hw, exec, execCtrlStore, hp] at h
      cases h
      exact ⟨rfl, rfl, rfl⟩
  | busy b =>
    simp only [writeReg, hp] at h
    cases h
    exact ⟨rfl, rfl, rfl⟩

theorem whenIdle_keepsTables {s u t : State} (hu : KeepsTables s u) (h : whenIdle s u = .next t) : KeepsTables s t := by
  obtain ⟨-, rfl⟩ | rfl := whenIdle_next h
  · exact hu
  · exact ⟨rfl, rfl, rfl⟩

theorem hostMemRead_keepsTables (s : State) (a : Nat) : KeepsTables s (hostMemRead s a) := by
  unfold hostMemRead
  split
  · split
    · exact ⟨rfl, rfl, rfl⟩
    · split <;> exact ⟨rfl, rfl, rfl⟩
  · exact ⟨rfl, rfl, rfl⟩

theorem hostMemWrite_keepsTables {s t : State} {a : Nat} {x : Byte} (h : hostMemWrite s a x = .next t) : KeepsTables s t := by
  unfold hostMemWrite at h
  split at h
  · split at h
    · cases h
      exact ⟨rfl, rfl, rfl⟩
    · split at h <;> cases h
      exact ⟨rfl, rfl, rfl⟩
  · cases h
    exact .refl s

/-! ### A host write of one table entry -/

@[simp] theorem writeHcount_params (s : State) (l : Nat) (w : Word) : (writeHcount s l w).params = s.params := by
  unfold writeHcount; split <;> rfl

@[simp] theorem writeHcount_hsym (s : State) (l : Nat) (w : Word) : (writeHcount s l w).hsym = s.hsym := by
  unfold writeHcount; split <;> rfl

@[simp] theorem writeHsym_params (s : State) (j : Nat) (w : Word) : (writeHsym s j w).params = s.params := by
  unfold writeHsym; split <;> rfl

@[simp] theorem writeHsym_hcount (s : State) (j : Nat) (w : Word) : (writeHsym s j w).hcount = s.hcount := by
  unfold writeHsym; split <;> rfl

/-- Above HUF_MAXLEN the write is ignored (R40). -/
theorem writeHcount_of_not_le {s : State} {l : Nat} (h : ¬ l ≤ s.params.hufMaxlen) (w : Word) : writeHcount s l w = s :=
  if_neg h

/-- At or above HUF_MAXSYM the write is ignored (R41). -/
theorem writeHsym_of_not_lt {s : State} {j : Nat} (h : ¬ j < s.params.hufMaxsym) (w : Word) : writeHsym s j w = s :=
  if_neg h

/-! ### What changes a table -/

/-- A register write keeps the tables, but for a write of a table entry while IDLE. -/
theorem writeReg_tables {s t : State} {w : Word} {r : RegName} (h : writeReg s w r = .next t) :
    KeepsTables s t ∨ s.phase = .idle ∧
      ((∃ l, r = .hcount l ∧ l ≤ s.params.hufMaxlen ∧ t = writeHcount s l w) ∨
        ∃ j, r = .hsym j ∧ j < s.params.hufMaxsym ∧ t = writeHsym s j w) := by
  cases r with
  | ctrl => exact .inl (writeCtrl_keepsTables h)
  | status => cases h; exact .inl ⟨rfl, rfl, rfl⟩
  | srcAddr | srcLen | dstAddr | dstCap | arg0 | arg1 | arg2 | hufNsym =>
    refine .inl (whenIdle_keepsTables ?_ h)
    exact ⟨rfl, rfl, rfl⟩
  | id | resLen | resPos | resInfo | param0 | param1 | reserved => cases h; exact .inl (.refl s)
  | hcount l =>
    by_cases hl : l ≤ s.params.hufMaxlen
    · obtain ⟨hi, rfl⟩ | rfl := whenIdle_next h
      · exact .inr ⟨hi, .inl ⟨l, rfl, hl, rfl⟩⟩
      · exact .inl ⟨rfl, rfl, rfl⟩
    · refine .inl (whenIdle_keepsTables ?_ h)
      rw [writeHcount_of_not_le hl]
      exact .refl s
  | hsym j =>
    by_cases hj : j < s.params.hufMaxsym
    · obtain ⟨hi, rfl⟩ | rfl := whenIdle_next h
      · exact .inr ⟨hi, .inr ⟨j, rfl, hj, rfl⟩⟩
      · exact .inl ⟨rfl, rfl, rfl⟩
    · refine .inl (whenIdle_keepsTables ?_ h)
      rw [writeHsym_of_not_lt hj]
      exact .refl s

/-- A host event keeps the parameters and the tables, or is a power-on or a write of an existing table entry, each while IDLE. -/
theorem hostStep_tables {op : HostOp} {s t : State} (h : hostStep op s = .next t) :
    KeepsTables s t ∨ s.phase = .idle ∧ (op = .powerOn ∧ t = powerUp s ∨
      (∃ l w, l ≤ 255 ∧ l ≤ s.params.hufMaxlen ∧ op = .regWrite (0x100 + 4 * l) w ∧ t = writeHcount s l w) ∨
      ∃ j w, j < 4096 ∧ j < s.params.hufMaxsym ∧ op = .regWrite (0x1000 + 4 * j) w ∧ t = writeHsym s j w) := by
  cases op with
  | regWrite o w =>
    obtain hk | ⟨hi, ⟨l, hr, hl, ht⟩ | ⟨j, hr, hj, ht⟩⟩ := writeReg_tables h
    · exact .inl hk
    · obtain ⟨hl255, rfl⟩ := regAt_eq_hcount_iff.mp hr
      exact .inr ⟨hi, .inr (.inl ⟨l, w, hl255, hl, rfl, ht⟩)⟩
    · obtain ⟨hj4096, rfl⟩ := regAt_eq_hsym_iff.mp hr
      exact .inr ⟨hi, .inr (.inr ⟨j, w, hj4096, hj, rfl, ht⟩)⟩
  | regRead o => cases h; exact .inl ⟨rfl, rfl, rfl⟩
  | memWrite a x => exact .inl (hostMemWrite_keepsTables h)
  | memRead a => cases h; exact .inl (hostMemRead_keepsTables s a)
  | wait => cases h; exact .inl (.refl s)
  | reset =>
    obtain ⟨-, rfl⟩ := unlessBusy_next h
    exact .inl ⟨rfl, rfl, rfl⟩
  | powerOn =>
    obtain ⟨hi, rfl⟩ := unlessBusy_next h
    exact .inr ⟨hi, .inl ⟨rfl, rfl⟩⟩

/-- A step keeps the parameters and the tables, or takes one of the three table-changing host events while IDLE. -/
theorem step_tables {s t : State} (h : step s = .next t) :
    KeepsTables s t ∨ s.phase = .idle ∧ ∃ rest, (s.host = .powerOn :: rest ∧ t = powerUp (takeEvent rest s)) ∨
      (∃ l w, l ≤ 255 ∧ l ≤ s.params.hufMaxlen ∧ s.host = .regWrite (0x100 + 4 * l) w :: rest ∧
        t = writeHcount (takeEvent rest s) l w) ∨
      ∃ j w, j < 4096 ∧ j < s.params.hufMaxsym ∧ s.host = .regWrite (0x1000 + 4 * j) w :: rest ∧
        t = writeHsym (takeEvent rest s) j w := by
  obtain ⟨-, -, hs⟩ | ⟨op, rest, hh, hs⟩ | ⟨b, hb, hs⟩ := step_cases s <;> rw [hs] at h
  · cases h
    exact .inl (.refl s)
  · obtain hk | ⟨hi, hevent⟩ := hostStep_tables h
    · exact .inl ⟨hk.params, hk.hcount, hk.hsym⟩
    · refine .inr ⟨Phase.countDown_eq_idle.mp hi, rest, ?_⟩
      obtain ⟨rfl, ht⟩ | ⟨l, w, hl255, hl, rfl, ht⟩ | ⟨j, w, hj4096, hj, rfl, ht⟩ := hevent
      · exact .inl ⟨hh, ht⟩
      · exact .inr (.inl ⟨l, w, hl255, hl, hh, ht⟩)
      · exact .inr (.inr ⟨j, w, hj4096, hj, hh, ht⟩)
  · exact .inl (engineStep_keepsTables hb h)

/-- Settles O59, from the cases of `step_tables`. -/
theorem tablesOnlyByHost : Obligations.TablesOnlyByHost := by
  unfold Obligations.TablesOnlyByHost
  intro s t h
  obtain hk | ⟨hi, rest, ⟨hh, rfl⟩ | ⟨l, w, hl255, hl, hh, rfl⟩ | ⟨j, w, hj4096, hj, hh, rfl⟩⟩ := step_tables h
  · exact ⟨hk.params, fun hne => absurd hk.hcount hne, fun hne => absurd hk.hsym hne⟩
  · exact ⟨rfl, fun _ => ⟨hi, rest, .inl hh⟩, fun _ => ⟨hi, rest, .inl hh⟩⟩
  · exact ⟨writeHcount_params _ l w, fun _ => ⟨hi, rest, .inr ⟨l, w, hl255, hl, hh⟩⟩,
      fun hne => absurd (writeHcount_hsym _ l w) hne⟩
  · exact ⟨writeHsym_params _ j w, fun hne => absurd (writeHsym_hcount _ j w) hne,
      fun _ => ⟨hi, rest, .inr ⟨j, w, hj4096, hj, hh⟩⟩⟩

end Sys2Proof.Machine
end

section
/-! The invariant of the machine (R43, R44, R120, R125): it holds after every power-on and every step keeps it. What a host event
and an engine's turn can leave is said once, and each claim about a step goes through those cases. -/

namespace Sys2Proof.Machine

/-! ### What a host event can leave -/

/-- The states the host's event `op` can leave at `s` (R21, R25, R28, R40, R41, R61, R290 to R292). -/
inductive HostEffect (s : State) : HostOp → State → Prop
  | launched {op : HostOp} (hi : s.phase = .idle) (c : BitVec 4) (f : CtrlBits) : HostEffect s op (launch c f s)
  | ctrlStored {op : HostOp} (hi : s.phase = .idle) (c : BitVec 4) (f : CtrlBits) : HostEffect s op (storeCtrl c f s)
  | ignored {op : HostOp} : HostEffect s op (ignoredWrite s)
  | statusWritten {op : HostOp} (w : Word) : HostEffect s op { s with status := s.status.writeOneToClear w }
  | operandWritten {op : HostOp} (hi : s.phase = .idle) (r : Regs) : HostEffect s op { s with regs := r }
  | countWritten {op : HostOp} (hi : s.phase = .idle) (l : Nat) (w : Word) : HostEffect s op (writeHcount s l w)
  | symbolWritten {op : HostOp} (hi : s.phase = .idle) (j : Nat) (w : Word) : HostEffect s op (writeHsym s j w)
  | byteWritten {op : HostOp} {a : Nat} (ha : a < s.params.memBytes) (x : Byte) :
      HostEffect s op { s with mem := Cells.write s.mem a x }
  | replied {op : HostOp} (replies : List Word) (draws : Nat) :
      HostEffect s op { s with replies := replies, draws := draws }
  | unchanged {op : HostOp} : HostEffect s op s
  | registersReset (hi : s.phase = .idle) : HostEffect s .reset (resetRegisters s)
  | poweredUp (hi : s.phase = .idle) : HostEffect s .powerOn (powerUp s)

theorem whenIdle_effect {s u t : State} {op : HostOp} (hu : s.phase = .idle → HostEffect s op u)
    (h : whenIdle s u = .next t) : HostEffect s op t := by
  obtain ⟨hi, rfl⟩ | rfl := whenIdle_next h
  · exact hu hi
  · exact .ignored

/-- A CTRL write launches or stores while IDLE, by its START bit, and is ignored while BUSY (R21c, R25, R120). -/
theorem writeCtrl_effect {s t : State} {w : Word} {op : HostOp} (h : writeReg s w .ctrl = .next t) : HostEffect s op t := by
  cases hp : s.phase with
  | idle =>
    simp only [writeReg, hp] at h
    cases hw : w.getLsbD 31 with
    | true =>
      rw [exec_start hp hw] at h
      cases h
      exact .launched hp _ _
    | false =>
      simp only [decodeWord_store hw, exec, execCtrlStore, hp] at h
      cases h
      exact .ctrlStored hp _ _
  | busy b =>
    simp only [writeReg, hp] at h
    cases h
    exact .ignored

theorem writeReg_effect {s t : State} {w : Word} {r : RegName} {op : HostOp} (h : writeReg s w r = .next t) :
    HostEffect s op t := by
  cases r with
  | ctrl => exact writeCtrl_effect h
  | status => cases h; exact .statusWritten w
  | srcAddr | srcLen | dstAddr | dstCap | arg0 | arg1 | arg2 | hufNsym =>
    exact whenIdle_effect (fun hi => .operandWritten hi _) h
  | hcount l => exact whenIdle_effect (fun hi => .countWritten hi l w) h
  | hsym j => exact whenIdle_effect (fun hi => .symbolWritten hi j w) h
  | id | resLen | resPos | resInfo | param0 | param1 | reserved => cases h; exact .unchanged

theorem hostMemWrite_effect {s t : State} {a : Nat} {x : Byte} {op : HostOp} (h : hostMemWrite s a x = .next t) :
    HostEffect s op t := by
  unfold hostMemWrite at h
  split at h
  · next ha =>
    split at h
    · cases h; exact .byteWritten ha x
    · split at h <;> cases h
      exact .byteWritten ha x
  · cases h; exact .unchanged

theorem hostMemRead_effect (s : State) (a : Nat) (op : HostOp) : HostEffect s op (hostMemRead s a) := by
  unfold hostMemRead
  split
  · split
    · exact .replied _ _
    · split <;> exact .replied _ _
  · exact .replied _ _

theorem hostStep_effect {op : HostOp} {s t : State} (h : hostStep op s = .next t) : HostEffect s op t := by
  cases op with
  | regWrite o w => exact writeReg_effect h
  | regRead o => cases h; exact .replied _ _
  | memWrite a x => exact hostMemWrite_effect h
  | memRead a => cases h; exact hostMemRead_effect s a _
  | wait => cases h; exact .unchanged
  | reset =>
    obtain ⟨hi, rfl⟩ := unlessBusy_next h
    exact .registersReset hi
  | powerOn =>
    obtain ⟨hi, rfl⟩ := unlessBusy_next h
    exact .poweredUp hi

/-! ### What an engine's turn can leave -/

/-- The engine's turn ends the command, or makes one turn of SC_DECODE's block loop (R121, R163). -/
theorem engineStep_next {b : Busy} {s t : State} (hb : s.phase = .busy b) (h : engineStep b s = .next t) :
    (∃ e, t = finishWith e s) ∨ ∃ w w' m, b.work = .sc w ∧ sparseTurn (s.env b) w s.port = .loop w' m ∧
      t = { s with mem := m.mem, phase := .busy { b with work := .sc w' } } := by
  have ended : ∀ x : Act Ending, complete x s = .next t → ∃ e, t = finishWith e s := fun x hx => by
    rcases complete_is x s with ⟨e, he⟩ | ⟨f, he⟩ <;> rw [he] at hx <;> cases hx
    exact ⟨e, rfl⟩
  obtain ⟨-, he⟩ | ⟨w, hw, he⟩ | ⟨w, -, he⟩ | ⟨w, -, he⟩ | ⟨w, -, he⟩ | ⟨w, -, he⟩ := engineStep_cases b s hb <;>
    rw [he] at h
  case inr.inl =>
    rw [blockStep_eq] at h
    cases ht : sparseTurn (s.env b) w s.port with
    | loop w' m =>
      rw [ht] at h
      cases h
      exact .inr ⟨w, w', m, hw, ht, rfl⟩
    | ended x =>
      rw [ht] at h
      exact .inl (ended x h)
  all_goals exact .inl (ended _ h)

/-! ### The invariant at power-on and over host events -/

theorem State.Inv.of_idle {s : State} (hm : memoriesWf s) (hi : s.phase = .idle) : s.Inv :=
  ⟨hm, by simp [latchAgrees, hi], by simp [workAgrees, hi]⟩

theorem poweredOn_inv (p : Params) (n : Nat) (host : List HostOp) : (State.poweredOn p n host).Inv :=
  .of_idle ⟨rfl, rfl, rfl, rfl, rfl, rfl⟩ rfl

/-- Settles O57: nothing is written and the engine is IDLE. -/
theorem resetMeetsInvariant : Obligations.ResetMeetsInvariant :=
  ⟨poweredOn_inv _ _ _, poweredOn_inv⟩

/-- An event taken from the host's list only shortens the delay. -/
theorem takeEvent_inv {s : State} (h : s.Inv) (rest : List HostOp) : (takeEvent rest s).Inv := by
  obtain ⟨hm, hl, hw⟩ := h
  refine ⟨hm, ?_, ?_⟩
  · unfold latchAgrees at hl ⊢
    cases hp : s.phase <;> simp only [takeEvent_phase, hp] at hl ⊢ <;> exact hl
  · unfold workAgrees at hw ⊢
    cases hp : s.phase <;> simp only [takeEvent_phase, hp] at hw ⊢ <;> exact hw

theorem writeHcount_memoriesWf {s : State} (h : memoriesWf s) (l : Nat) (w : Word) : memoriesWf (writeHcount s l w) := by
  obtain ⟨hm, hmb, hc, hcb, hy, hyb⟩ := h
  unfold writeHcount
  split_ifs with hl
  · exact ⟨hm, hmb, Cells.risingFrom_write _ l _ 0 hc (Nat.zero_le l), Cells.below_write _ l _ _ hcb (Nat.lt_succ_of_le hl), hy, hyb⟩
  · exact ⟨hm, hmb, hc, hcb, hy, hyb⟩

theorem writeHsym_memoriesWf {s : State} (h : memoriesWf s) (j : Nat) (w : Word) : memoriesWf (writeHsym s j w) := by
  obtain ⟨hm, hmb, hc, hcb, hy, hyb⟩ := h
  unfold writeHsym
  split_ifs with hj
  · exact ⟨hm, hmb, hc, hcb, Cells.risingFrom_write _ j _ 0 hy (Nat.zero_le j), Cells.below_write _ j _ _ hyb hj⟩
  · exact ⟨hm, hmb, hc, hcb, hy, hyb⟩

@[simp] theorem writeHcount_phase (s : State) (l : Nat) (w : Word) : (writeHcount s l w).phase = s.phase := by
  unfold writeHcount; split <;> rfl

@[simp] theorem writeHsym_phase (s : State) (j : Nat) (w : Word) : (writeHsym s j w).phase = s.phase := by
  unfold writeHsym; split <;> rfl

/-- A new STATUS in which DONE and ERR are no less clear keeps the invariant (R120). -/
theorem State.Inv.with_status {s : State} (h : s.Inv) {st : Status} (hd : s.status.done = false → st.done = false)
    (he : st.err = s.status.err) : State.Inv { s with status := st } := by
  obtain ⟨hm, hl, hw⟩ := h
  refine ⟨hm, ?_, hw⟩
  unfold latchAgrees at hl ⊢
  cases hp : s.phase with
  | idle => simp
  | busy b =>
    simp only [hp] at hl ⊢
    obtain ⟨hop, hsend, hdend, hsymw, hregs, hdone, herr⟩ := hl
    exact ⟨hop, hsend, hdend, hsymw, hregs, hd hdone, he.trans herr⟩

theorem launch_inv {s : State} (h : s.Inv) (op : BitVec 4) (f : CtrlBits) : (launch op f s).Inv :=
  ⟨h.memories, ⟨rfl, rfl, rfl, rfl, rfl, rfl, rfl⟩, trivial⟩

theorem hostEffect_inv {op : HostOp} {s t : State} (h : s.Inv) (he : HostEffect s op t) : t.Inv := by
  cases he with
  | launched hi c f => exact launch_inv h c f
  | ctrlStored hi c f => exact .of_idle h.memories hi
  | ignored => exact h.with_status (fun hd => hd) rfl
  | statusWritten w => exact h.with_status (fun hd => by simp [hd]) rfl
  | operandWritten hi r => exact .of_idle h.memories hi
  | countWritten hi l w => exact .of_idle (writeHcount_memoriesWf h.memories l w) (by simpa using hi)
  | symbolWritten hi j w => exact .of_idle (writeHsym_memoriesWf h.memories j w) (by simpa using hi)
  | byteWritten ha x =>
    obtain ⟨⟨hm, hmb, htables⟩, hl, hw⟩ := h
    exact ⟨⟨Memory.wf_write _ _ x hm, Cells.below_write _ _ x _ hmb ha, htables⟩, hl, hw⟩
  | replied replies draws => exact ⟨h.memories, h.latch, h.work⟩
  | unchanged => exact h
  | registersReset hi => exact .of_idle h.memories rfl
  | poweredUp hi => exact .of_idle ⟨rfl, rfl, rfl, rfl, rfl, rfl⟩ rfl

/-! ### The invariant over engine's turns -/

/-- What the engine writes keeps MEM in canonical form and inside its size. -/
theorem Wrote.memoriesWf {v : Env} {W : Nat → Prop} {s t : State} {m : Port} (hw : Wrote v W s.port m)
    (hv : v.params = s.params) (h : memoriesWf s) (hmem : t.mem = m.mem) (hp : t.params = s.params)
    (hc : t.hcount = s.hcount) (hy : t.hsym = s.hsym) : memoriesWf t := by
  obtain ⟨hm, hmb, htables⟩ := h
  have hbelow := hw.below
  rw [hv] at hbelow
  unfold Sys2Proof.Machine.memoriesWf
  rw [hmem, hp, hc, hy]
  exact ⟨hw.wf hm, hbelow hmb, htables⟩

/-- However the action ends the command, MEM comes from the port `m` by the engine's writes. -/
def Act.EndsFrom (v : Env) (m : Port) (x : Act Ending) : Prop :=
  x.Sat (fun e => ∃ W, Wrote v W m e.port) (fun e => ∃ W, Wrote v W m e.port) fun _ => True

theorem complete_inv {x : Act Ending} {s t : State} {b : Busy} (h : s.Inv) (hx : x.EndsFrom (s.env b) s.port)
    (ht : complete x s = .next t) : t.Inv := by
  obtain ⟨e, ⟨W, hw⟩, rfl⟩ := complete_next hx ht
  exact .of_idle (hw.memoriesWf rfl h.memories rfl rfl rfl rfl) rfl

theorem Act.Within.endsFrom {v : Env} {W T : Nat → Prop} {m : Port} {A G : Ending → Prop} {x : Act Ending}
    (h : x.Within v W T m Ending.port A G) : x.EndsFrom v m :=
  Act.Sat.mono h (fun _ he => ⟨W, he.2⟩) (fun _ he => ⟨W, he.2⟩) fun _ _ => trivial

theorem varlenFrom_endsFrom {v : Env} (dend : Bool) {w : VlWork} (m : Port) (hw : VarlenFits v w) :
    (varlenFrom v dend w m).EndsFrom v m := by
  refine Act.Sat.mono (varlenFrom_sat v dend w m hw) (fun e he => ?_) (fun _ he => ⟨_, he.2⟩) fun _ _ => trivial
  obtain ⟨-, n, big, -, -, -, -, -, hwrote, -⟩ := he
  exact ⟨_, hwrote⟩

/-- HUF_DECODE from working state inside the input, between two codes or inside one (R194, R195). -/
theorem huffmanFrom_sat (v : Env) (send : Bool) (width : Nat) (w : HufWork) (m : Port)
    (hp : w.pos ≤ v.regs.srcLen.toNat) (hs : w.start ≤ v.regs.srcLen.toNat) :
    (huffmanFrom v send width w m).Sat (SymbolsOk v width w.count m) (SymbolsErr v width w.count m)
      (FaultFrom v (huffmanTouches v) m) := by
  unfold huffmanFrom
  split_ifs with hl
  · exact huffmanLoop_sat v send width _ w m hp (by omega)
  · refine symbolTurn_sat v send width _ w m _ hs fun w' m' hcount _ hp' => ?_
    exact hcount ▸ huffmanLoop_sat v send width _ w' m' hp' (by dsimp only; omega)

theorem huffmanFrom_endsFrom {v : Env} (send : Bool) (width : Nat) {w : HufWork} (m : Port)
    (hp : w.pos ≤ v.regs.srcLen.toNat) (hs : w.start ≤ v.regs.srcLen.toNat) :
    (huffmanFrom v send width w m).EndsFrom v m := by
  have symbols : ∀ e, SymbolsEnd v width w.count m e → ∃ W, Wrote v W m e.port := by
    rintro e ⟨t, -, -, -, -, -, hwrote⟩
    exact ⟨_, hwrote⟩
  exact (huffmanFrom_sat v send width w m hp hs).mono (fun e he => symbols e he.2.2) (fun e he => symbols e he.2)
    fun _ _ => trivial

/-- A step in the block loop comes back to its head with the working state inside its regions, or ends the command (R163). -/
theorem blockStep_inv {b : Busy} {s t : State} {w : ScWork} (h : s.Inv) (hb : s.phase = .busy b) (hw : b.work = .sc w)
    (ht : blockStep b w s = .next t) : t.Inv := by
  have hl := h.latch
  have hwork := h.work
  simp only [latchAgrees, hb] at hl
  simp only [workAgrees, hb, hw] at hwork
  obtain ⟨hop, hpass, hpos, hlen, hcap⟩ := hwork
  have hturn := sparseTurn_sat (T := fun _ => True) (s.env b) w s.port (fun _ _ => trivial) hpos fun _ _ => trivial
  rw [blockStep_eq] at ht
  cases hx : sparseTurn (s.env b) w s.port with
  | loop w' m =>
    rw [hx] at hturn ht
    obtain ⟨⟨hlength, -, -⟩, -, hpos', hwrote⟩ := hturn
    cases ht
    exact ⟨hwrote.memoriesWf rfl h.memories rfl rfl rfl rfl, hl, hop, hpass, hpos', hlength ▸ hlen, hlength ▸ hcap⟩
  | ended x =>
    rw [hx] at hturn ht
    exact complete_inv h (Act.Sat.mono hturn (fun _ he => ⟨_, he.2⟩) (fun _ he => ⟨_, he.2⟩) fun _ _ => trivial) ht

theorem engineStep_inv {b : Busy} {s t : State} (h : s.Inv) (hb : s.phase = .busy b) (ht : engineStep b s = .next t) :
    t.Inv := by
  have hwork := h.work
  simp only [workAgrees, hb] at hwork
  obtain ⟨-, he⟩ | ⟨w, hw, he⟩ | ⟨w, hw, he⟩ | ⟨w, hw, he⟩ | ⟨w, -, he⟩ | ⟨w, -, he⟩ := engineStep_cases b s hb <;>
    rw [he] at ht
  · exact complete_inv h (latchedRun_within b.cmd (s.env b) s.port rfl).endsFrom ht
  · exact blockStep_inv h hb hw ht
  · rw [hw] at hwork
    obtain ⟨-, -, hpos, hlen, hcap⟩ := hwork
    exact complete_inv h (varlenFrom_endsFrom b.cmd.dend s.port ⟨hcap, hlen, hpos⟩) ht
  · rw [hw] at hwork
    obtain ⟨-, -, hpos, hstart⟩ := hwork
    exact complete_inv h (huffmanFrom_endsFrom b.cmd.send _ s.port hpos hstart) ht
  · have hpop := popcountFrom_within (W := fun _ => True) (T := fun _ => True) (G := fun _ => True) (s.env b) b.cmd.send w
      s.port fun _ _ => trivial
    exact complete_inv h hpop.endsFrom ht
  · have hrev := bitrevFrom_within (W := fun _ => True) (T := fun _ => True) (G := fun _ => True) (s.env b) w s.port
      (fun _ _ _ => trivial) fun _ _ _ => trivial
    exact complete_inv h hrev.endsFrom ht

/-- Settles O58, by the three kinds of step. -/
theorem stepKeepsInvariant : Obligations.StepKeepsInvariant := by
  unfold Obligations.StepKeepsInvariant
  intro s t h ht
  obtain ⟨-, -, hs⟩ | ⟨op, rest, -, hs⟩ | ⟨b, hb, hs⟩ := step_cases s <;> rw [hs] at ht
  · cases ht; exact h
  · exact hostEffect_inv (takeEvent_inv h rest) (hostStep_effect ht)
  · exact engineStep_inv h hb ht

/-! ### The result registers -/

/-- Of the host's events only a reset and a power-on touch the result registers (R45, R290). -/
theorem hostEffect_results {op : HostOp} {s t : State} (he : HostEffect s op t) :
    t.results = s.results ∨ s.phase = .idle ∧ (op = .reset ∨ op = .powerOn) := by
  cases he with
  | registersReset hi => exact .inr ⟨hi, .inl rfl⟩
  | poweredUp hi => exact .inr ⟨hi, .inr rfl⟩
  | countWritten hi l w => left; unfold writeHcount; split <;> rfl
  | symbolWritten hi j w => left; unfold writeHsym; split <;> rfl
  | launched | ctrlStored | ignored | statusWritten | operandWritten | byteWritten | replied | unchanged => exact .inl rfl

/-- Settles O16: a host event that touches the results is a reset or a power-on, and an engine's turn that does is a completion. -/
theorem resultsOnlyAtCompletion : Obligations.ResultsOnlyAtCompletion := by
  unfold Obligations.ResultsOnlyAtCompletion
  intro s t ht hne
  obtain ⟨-, -, hs⟩ | ⟨op, rest, hh, hs⟩ | ⟨b, hb, hs⟩ := step_cases s <;> rw [hs] at ht
  · cases ht; exact absurd rfl hne
  · obtain hkept | ⟨hi, hop⟩ := hostEffect_results (hostStep_effect ht)
    · exact absurd hkept hne
    · exact .inr ⟨rest, Phase.countDown_eq_idle.mp hi, hop.imp (fun h => by rw [hh, h]) fun h => by rw [hh, h]⟩
  · obtain ⟨e, rfl⟩ | ⟨w, w', m, -, -, rfl⟩ := engineStep_next hb ht
    · exact .inl ⟨by simp [hb], rfl, rfl⟩
    · exact absurd rfl hne

end Sys2Proof.Machine
end

section
/-! What the instructions do whatever the command: the encoder against the decoder (R80 to R84), the launch (R120), a CTRL write
with START = 0 (R25), and what every completion sets, keeps and faults on (R46, R121, R264, R274). -/

namespace Sys2Proof.Machine

/-! ### Encoding what was decoded -/

/-- The bits of a command word that are not ignored (R80, R82). -/
theorem and_fieldMask (w : Word) :
    w &&& 0x800001FF = commandBits (w.getLsbD 31) (w.extractLsb' 0 4) (.ofWord w) := by
  apply BitVec.eq_of_getLsbD_eq
  intro i hi
  simp only [commandBits, CtrlBits.ofWord, BitVec.getLsbD_and, BitVec.getLsbD_append, BitVec.getLsbD_extractLsb',
    BitVec.getLsbD_ofBool]
  interval_cases i <;> simp

theorem start_commandBits (start : Bool) (op : BitVec 4) (f : CtrlBits) : (commandBits start op f).getLsbD 31 = start := by
  obtain ⟨ie, symw, dend, send⟩ := f
  revert start op ie symw dend send
  decide +kernel

/-- A command word decodes as its fields do (R82). -/
theorem decodeWord_commandBits (start : Bool) (op : BitVec 4) (f : CtrlBits) :
    decodeWord (commandBits start op f) = instrOf start op f := by
  rw [decodeWord_eq, start_commandBits, op_commandBits, ofWord_commandBits]

theorem instrOf_wellFormed (start : Bool) (op : BitVec 4) (f : CtrlBits) : (instrOf start op f).wellFormed = true := by
  cases start with
  | false => rfl
  | true => simp only [instrOf, if_true]; split <;> rfl

theorem encode_instrOf (start : Bool) (op : BitVec 4) (f : CtrlBits) :
    encode (instrOf start op f) = .word (commandBits start op f) := by
  obtain ⟨ie, symw, dend, send⟩ := f
  revert start op ie symw dend send
  decide +kernel

theorem encode_decodeHeader (h : Byte) : (decodeHeader h).wellFormed = true ∧ encode (decodeHeader h) = .header h := by
  revert h
  decide +kernel

/-- Settles O3, by the fields of the word. -/
theorem encodeDecode : Obligations.EncodeDecode := by
  refine ⟨fun w => ⟨?_, ?_, ?_⟩, encode_decodeHeader⟩
  · rw [decodeWord_eq]; exact instrOf_wellFormed _ _ _
  · rw [decodeWord_eq, encode_instrOf, and_fieldMask]
  · rw [and_fieldMask, decodeWord_commandBits, decodeWord_eq]

/-! ### STATUS and CTRL as words -/

/-- STATUS's fields in its word (R27). -/
theorem Status.toWord_fields (st : Status) (busy : Bool) :
    (st.toWord busy).getLsbD 0 = busy ∧ (st.toWord busy).getLsbD 1 = st.done ∧ (st.toWord busy).getLsbD 2 = st.wign ∧
      (st.toWord busy).getLsbD 3 = false ∧ (st.toWord busy).extractLsb' 4 4 = st.err.number ∧
      (st.toWord busy).extractLsb' 8 24 = 0 := by
  obtain ⟨done, wign, err⟩ := st
  revert busy done wign
  cases err <;> decide +kernel

/-- CTRL's fields in its word (R25, R26). -/
theorem Ctrl.toWord_fields (c : Ctrl) :
    c.toWord.extractLsb' 0 4 = c.op ∧ c.toWord.getLsbD 4 = c.bits.send ∧ c.toWord.getLsbD 5 = c.bits.dend ∧
      c.toWord.extractLsb' 6 2 = c.bits.symw ∧ c.toWord.getLsbD 8 = c.bits.ie ∧ c.toWord.extractLsb' 9 23 = 0 := by
  obtain ⟨op, ie, symw, dend, send⟩ := c
  revert op ie symw dend send
  decide +kernel

/-- CTRL reads back the stored bits of the word written (R25, R26). -/
theorem Ctrl.toWord_ofWord (w : Word) :
    Ctrl.toWord { op := w.extractLsb' 0 4, bits := .ofWord w } = w &&& 0x000001FF := by
  apply BitVec.eq_of_getLsbD_eq
  intro i hi
  simp only [Ctrl.toWord, CtrlBits.ofWord, BitVec.getLsbD_and, BitVec.getLsbD_append, BitVec.getLsbD_extractLsb',
    BitVec.getLsbD_ofBool]
  interval_cases i <;> simp

/-! ### CTRL writes -/

/-- Settles O6: a word with START = 1 while IDLE is its launch. -/
theorem launch_of_start : Obligations.Launch := by
  unfold Obligations.Launch
  intro s w hi hw
  rw [exec_start hi hw]
  refine ⟨_, rfl, rfl, rfl, rfl, fun t ht => ?_⟩
  cases ht
  exact ⟨rfl, (Status.toWord_fields _ _).1⟩

theorem exec_ctrlStore_idle {s : State} (h : s.phase = .idle) (op : BitVec 4) (f : CtrlBits) :
    exec (.ctrlStore op f) s = .next (storeCtrl op f s) := by
  simp only [exec, execCtrlStore, h]

theorem exec_ctrlStore_busy {s : State} {b : Busy} (h : s.phase = .busy b) (op : BitVec 4) (f : CtrlBits) :
    exec (.ctrlStore op f) s = .next (ignoredWrite s) := by
  simp only [exec, execCtrlStore, h]

/-- Settles O7: while IDLE the write is `storeCtrl`, while BUSY it is ignored. -/
theorem ctrlStore : Obligations.CtrlStore := by
  unfold Obligations.CtrlStore
  intro s op f
  refine ⟨fun hi => exec_ctrlStore_idle hi op f, fun b hb => exec_ctrlStore_busy hb op f, fun t hi ht => ?_, fun w hi hw => ?_⟩
  · rw [exec_ctrlStore_idle hi] at ht
    cases ht
    simp [State.irq]
  · rw [decodeWord_store hw, exec_ctrlStore_idle hi]
    exact ⟨_, rfl, hi, Ctrl.toWord_ofWord w⟩

/-! ### Commands as R121's function -/

/-- Every command word but a CTRL store launches, or runs R121's function of its fields and the latched operands `r`. -/
theorem exec_eq_runCommand {i : Instr} (hf : i.format = .commandWord) (hn : ∀ op f, i ≠ .ctrlStore op f) (r : Regs) :
    ∃ (c : Latched) (f : CtrlBits), c.regs = r ∧ ∀ s, exec i s = runCommand c.op f (latchedRun c) s := by
  have reserved : ∀ (op : BitVec 4) (f : CtrlBits), op = 0 ∨ 6 ≤ op.toNat → (∀ s, exec i s = runCommand op f reservedRun s) →
      ∃ (c : Latched) (f : CtrlBits), c.regs = r ∧ ∀ s, exec i s = runCommand c.op f (latchedRun c) s := fun op f ho he =>
    ⟨⟨op, f.send, f.dend, f.symw, r⟩, f, rfl, fun s => by
      rw [latchedRun_reserved (c := ⟨op, f.send, f.dend, f.symw, r⟩) ho]; exact he s⟩
  have op67 : ∀ lo : BitVec 1, 0b011#3 ++ lo = 0 ∨ 6 ≤ (0b011#3 ++ lo).toNat := by decide
  have op8F : ∀ lo : BitVec 3, 0b1#1 ++ lo = 0 ∨ 6 ≤ (0b1#1 ++ lo).toNat := by decide
  cases i with
  | scDecode f => exact ⟨⟨1, f.send, f.dend, f.symw, r⟩, f, rfl, fun _ => rfl⟩
  | vlDecode f => exact ⟨⟨2, f.send, f.dend, f.symw, r⟩, f, rfl, fun _ => rfl⟩
  | hufDecode f => exact ⟨⟨3, f.send, f.dend, f.symw, r⟩, f, rfl, fun _ => rfl⟩
  | popcount f => exact ⟨⟨4, f.send, f.dend, f.symw, r⟩, f, rfl, fun _ => rfl⟩
  | bitrev f => exact ⟨⟨5, f.send, f.dend, f.symw, r⟩, f, rfl, fun _ => rfl⟩
  | reservedOp0 f => exact reserved 0 f (.inl rfl) fun _ => rfl
  | reservedOp67 lo f => exact reserved (0b011#3 ++ lo) f (op67 lo) fun _ => rfl
  | reservedOp8F lo f => exact reserved (0b1#1 ++ lo) f (op8F lo) fun _ => rfl
  | ctrlStore op f => exact absurd rfl (hn op f)
  | scTerm | scRawLow | scRawHigh | scSparse1 | scSparse2 | scSparse3 | scSparse4 => cases hf
  | scReservedC0 | scReservedC5 | scReservedC6 | scReservedC8 | scReservedD0 | scReservedE0 => cases hf

/-- A command's event while BUSY is the completion of R121's function on the latched operands. -/
theorem exec_busy {i : Instr} (hf : i.format = .commandWord) (hn : ∀ op f, i ≠ .ctrlStore op f) {s : State} {b : Busy}
    (hb : s.phase = .busy b) :
    ∃ c : Latched, c.regs = b.cmd.regs ∧ exec i s = complete (latchedRun c (s.env b) s.port) s := by
  obtain ⟨c, f, hr, he⟩ := exec_eq_runCommand hf hn b.cmd.regs
  exact ⟨c, hr, by rw [he, runCommand_busy hb]⟩

/-- What a command word can do: launch or store its fields while IDLE, and while BUSY set WIGN or complete (R25, R120, R121). -/
theorem exec_commandWord_cases {i : Instr} (hf : i.format = .commandWord) (s : State) :
    (∃ op f, exec i s = .next (launch op f s)) ∨ (∃ op f, exec i s = .next (storeCtrl op f s)) ∨
      exec i s = .next (ignoredWrite s) ∨
      ∃ b c, s.phase = .busy b ∧ c.regs = b.cmd.regs ∧ exec i s = complete (latchedRun c (s.env b) s.port) s := by
  by_cases hstore : ∃ op f, i = .ctrlStore op f
  · obtain ⟨op, f, rfl⟩ := hstore
    cases hp : s.phase with
    | idle => exact .inr (.inl ⟨op, f, exec_ctrlStore_idle hp op f⟩)
    | busy b => exact .inr (.inr (.inl (exec_ctrlStore_busy hp op f)))
  · have hn : ∀ op f, i ≠ .ctrlStore op f := fun op f he => hstore ⟨op, f, he⟩
    cases hp : s.phase with
    | idle =>
      obtain ⟨c, f, -, he⟩ := exec_eq_runCommand hf hn s.regs
      exact .inl ⟨c.op, f, by rw [he, runCommand_idle hp]⟩
    | busy b =>
      obtain ⟨c, hr, he⟩ := exec_busy hf hn hp
      exact .inr (.inr (.inr ⟨b, c, rfl, hr, he⟩))

/-- Settles O8: a completion is `finishWith` of its ending. -/
theorem completionFlags : Obligations.CompletionFlags := by
  unfold Obligations.CompletionFlags
  intro i s t b hf hn hb ht
  obtain ⟨c, -, he⟩ := exec_busy hf hn hb
  rw [he] at ht
  rcases complete_is (latchedRun c (s.env b) s.port) s with ⟨e, hx⟩ | ⟨f, hx⟩ <;> rw [hx] at ht <;> cases ht
  exact ⟨rfl, rfl, rfl, by simp [State.irq], rfl⟩

theorem complete_eq_fault {x : Act Ending} {s : State} {f : Fault} (h : complete x s = .fault f) : ∃ m, x = .fault f m := by
  obtain ⟨e, -, hx⟩ | ⟨g, m, hx, hg⟩ := complete_cases x s
  · rw [hx] at h; cases h
  · rw [hg] at h; cases h
    exact ⟨m, hx⟩

/-- R121's function faults only on a read of what was never written: the bytes it touches exist (R125, R274). -/
theorem latchedRun_fault {c : Latched} {v : Env} {m p : Port} {f : Fault} (hr : v.regs = c.regs)
    (h : latchedRun c v m = .fault f p) :
    (∃ a, f = .unwrittenRead .mem a ∧ a < v.params.memBytes ∧ Cells.read m.mem a = none) ∨
      (∃ l, f = .unwrittenRead .hcount l ∧ Cells.read v.hcount l = none) ∨
      ∃ j, f = .unwrittenRead .hsym j ∧ Cells.read v.hsym j = none := by
  have hw := latchedRun_within c v m hr
  rw [h] at hw
  obtain ⟨a, ha, -, hlt, hread⟩ | hcount | hsym | ⟨a, -, huse, hge⟩ := hw
  · exact .inl ⟨a, ha, hlt, hread⟩
  · exact .inr (.inl hcount)
  · exact .inr (.inr hsym)
  · exact absurd (inUse_lt v c hr a huse) (not_lt.mpr hge)

/-- Settles O30: only a completion can fault, and it faults as R121's function does. -/
theorem commandFaults : Obligations.CommandFaults := by
  unfold Obligations.CommandFaults
  intro i s f hf h
  obtain ⟨op, g, he⟩ | ⟨op, g, he⟩ | he | ⟨b, c, -, hr, he⟩ := exec_commandWord_cases hf s <;> rw [he] at h
  case inr.inr.inr =>
    obtain ⟨m, hx⟩ := complete_eq_fault h
    exact latchedRun_fault hr.symm hx
  all_goals cases h

/-! ### No instruction changes a table -/

theorem headerClass_eq_none {i : Instr} (h : headerClass i = none) : i.format = .commandWord := by
  cases i <;> simp only [headerClass, reduceCtorEq] at h <;> rfl

theorem runBlock_keepsTables {c : BlockClass} {s t : State} (h : runBlock c s = .next t) : KeepsTables s t := by
  unfold runBlock at h
  split at h
  · cases h
  · split at h
    · split at h
      · cases h; exact ⟨rfl, rfl, rfl⟩
      · exact complete_keepsTables h
    all_goals cases h

/-- No instruction changes the parameters or a table (R40, R41): a block only reads them, and so does a command. -/
theorem exec_keepsTables {i : Instr} {s t : State} (h : exec i s = .next t) : KeepsTables s t := by
  cases hc : headerClass i with
  | some c => rw [exec_of_headerClass hc] at h; exact runBlock_keepsTables h
  | none =>
    obtain ⟨op, f, he⟩ | ⟨op, f, he⟩ | he | ⟨b, c, -, -, he⟩ := exec_commandWord_cases (headerClass_eq_none hc) s <;>
      rw [he] at h
    case inr.inr.inr => exact complete_keepsTables h
    all_goals cases h; exact ⟨rfl, rfl, rfl⟩

end Sys2Proof.Machine
end

section
/-! The REG map as the host reads and writes it (R21 to R41, R45): the named registers, the operand registers, the two table
windows, and the values after reset. -/

namespace Sys2Proof.Machine

/-! ### Writes while IDLE and while BUSY -/

theorem whenIdle_idle {s : State} (h : s.phase = .idle) (t : State) : whenIdle s t = .next t := by
  simp only [whenIdle, h]

theorem whenIdle_busy {s : State} {b : Busy} (h : s.phase = .busy b) (t : State) : whenIdle s t = .next (ignoredWrite s) := by
  simp only [whenIdle, h]

theorem hostStep_regWrite (o : Nat) (w : Word) (s : State) : hostStep (.regWrite o w) s = writeReg s w (regAt o) := rfl

/-! ### The operand registers -/

/-- The operand registers (R29 to R34). -/
def operandNames : List RegName := [.srcAddr, .srcLen, .dstAddr, .dstCap, .arg0, .arg1, .arg2, .hufNsym]

/-- The operand registers with register `r` at `w`. -/
def Regs.set (x : Regs) (r : RegName) (w : Word) : Regs :=
  { srcAddr := if r = .srcAddr then w else x.srcAddr
    srcLen := if r = .srcLen then w else x.srcLen
    dstAddr := if r = .dstAddr then w else x.dstAddr
    dstCap := if r = .dstCap then w else x.dstCap
    arg0 := if r = .arg0 then w else x.arg0
    arg1 := if r = .arg1 then w else x.arg1
    arg2 := if r = .arg2 then w else x.arg2
    hufNsym := if r = .hufNsym then w else x.hufNsym }

/-- Every operand register's offset lies from SRC_ADDR's to HUF_NSYM's, and these hold nothing else (R21). -/
theorem regAt_operand {o : Nat} (h4 : o % 4 = 0) (h1 : 0x00C ≤ o) (h2 : o ≤ 0x028) : regAt o ∈ operandNames := by
  obtain ⟨k, hk, rfl⟩ : ∃ k, k < 8 ∧ o = 0x00C + 4 * k := ⟨(o - 0x00C) / 4, by omega, by omega⟩
  clear h4 h1 h2
  revert k
  decide

/-- Off the sixteen named registers stand only the windows' entries and nothing (R21). -/
theorem regAt_unnamed {o : Nat} (h : ¬ (o % 4 = 0 ∧ o < 0x40)) :
    regAt o = .reserved ∨ (∃ l, regAt o = .hcount l) ∨ ∃ j, regAt o = .hsym j := by
  by_cases hr : o % 4 ≠ 0 ∨ (0x40 ≤ o ∧ o < 0x100) ∨ (0x500 ≤ o ∧ o < 0x1000) ∨ 0x5000 ≤ o
  · exact .inl (regAt_reserved hr)
  obtain ⟨h1, h2⟩ | ⟨h1, h2⟩ : (0x100 ≤ o ∧ o ≤ 0x4FC) ∨ (0x1000 ≤ o ∧ o ≤ 0x4FFC) := by omega
  · exact .inr (.inl ⟨_, regAt_hcount_window (by omega) h1 h2⟩)
  · exact .inr (.inr ⟨_, regAt_hsym_window (by omega) h1 h2⟩)

/-- An operand register's offset is a word of the named registers. -/
theorem offset_of_operand {o : Nat} (h : regAt o ∈ operandNames) : ∃ k, k < 16 ∧ o = 4 * k := by
  by_cases hn : o % 4 = 0 ∧ o < 0x40
  · exact ⟨o / 4, by omega, by omega⟩
  · obtain hr | ⟨l, hr⟩ | ⟨j, hr⟩ := regAt_unnamed hn <;> simp [hr, operandNames] at h

/-- An operand register stands at one offset only. -/
theorem regAt_operand_inj {o o' : Nat} (h : regAt o ∈ operandNames) (he : regAt o' = regAt o) : o' = o := by
  have words : ∀ k < 16, ∀ k' < 16, regAt (4 * k) ∈ operandNames → regAt (4 * k') = regAt (4 * k) → k' = k := by decide
  obtain ⟨k, hk, rfl⟩ := offset_of_operand h
  obtain ⟨k', hk', rfl⟩ := offset_of_operand (he ▸ h)
  rw [words k hk k' hk' h he]

/-- A write of an operand register lands while IDLE (R21c). -/
theorem writeReg_operand {r : RegName} (hr : r ∈ operandNames) (s : State) (w : Word) :
    writeReg s w r = whenIdle s { s with regs := s.regs.set r w } := by
  simp only [operandNames, List.mem_cons, List.not_mem_nil, or_false] at hr
  rcases hr with rfl | rfl | rfl | rfl | rfl | rfl | rfl | rfl <;> rfl

theorem readReg_set_self {r : RegName} (hr : r ∈ operandNames) (s : State) (w : Word) :
    readReg { s with regs := s.regs.set r w } r = w := by
  simp only [operandNames, List.mem_cons, List.not_mem_nil, or_false] at hr
  rcases hr with rfl | rfl | rfl | rfl | rfl | rfl | rfl | rfl <;> rfl

theorem readReg_set_of_ne {r r' : RegName} (hne : r' ≠ r) (s : State) (w : Word) :
    readReg { s with regs := s.regs.set r w } r' = readReg s r' := by
  cases r' with
  | srcAddr | srcLen | dstAddr | dstCap | arg0 | arg1 | arg2 | hufNsym => exact if_neg hne.symm
  | id | ctrl | status | resLen | resPos | resInfo | param0 | param1 | hcount | hsym | reserved => rfl

/-- Settles O12: an operand offset's write is `Regs.set` of its register, which no other offset reads. -/
theorem operandReadBack : Obligations.OperandReadBack := by
  refine ⟨fun s w hi => ?_, fun s => ?_, fun s o w hi h4 h1 h2 => ?_⟩
  · refine ⟨?_, ?_, ?_, ?_, ?_, ?_, ?_, ?_⟩ <;> exact whenIdle_idle hi _
  · obtain ⟨hop, hsend, hdend, hsymw, hie, hzero⟩ := Ctrl.toWord_fields s.ctrl
    have hinfo : ∀ e : Bool, (0#31 ++ BitVec.ofBool e).getLsbD 0 = e ∧ (0#31 ++ BitVec.ofBool e).extractLsb' 1 31 = 0 := by
      decide
    exact ⟨rfl, rfl, rfl, rfl, rfl, rfl, rfl, rfl, rfl, rfl, (hinfo _).1, (hinfo _).2, hop, hsend, hdend, hsymw, hie, hzero⟩
  · have hr := regAt_operand h4 h1 h2
    refine ⟨{ s with regs := s.regs.set (regAt o) w }, ?_, readReg_set_self hr s w, fun o' ho => ?_, rfl⟩
    · rw [hostStep_regWrite, writeReg_operand hr, whenIdle_idle hi]
    · exact readReg_set_of_ne (fun he => ho (regAt_operand_inj hr he)) s w

/-! ### Writes that have no effect -/

/-- The registers a host write never changes (R21b). -/
def readOnlyNames : List RegName := [.id, .resLen, .resPos, .resInfo, .param0, .param1, .reserved]

theorem writeReg_readOnly {r : RegName} (hr : r ∈ readOnlyNames) (s : State) (w : Word) : writeReg s w r = .next s := by
  simp only [readOnlyNames, List.mem_cons, List.not_mem_nil, or_false] at hr
  rcases hr with rfl | rfl | rfl | rfl | rfl | rfl | rfl <;> rfl

theorem regAt_result {o : Nat} (h4 : o % 4 = 0) (h1 : 0x02C ≤ o) (h2 : o ≤ 0x03C) : regAt o ∈ readOnlyNames := by
  obtain ⟨k, hk, rfl⟩ : ∃ k, k < 5 ∧ o = 0x02C + 4 * k := ⟨(o - 0x02C) / 4, by omega, by omega⟩
  clear h4 h1 h2
  revert k
  decide

/-- Settles O9, by the ranges of R21's map. -/
theorem ignoredWrites : Obligations.IgnoredWrites := by
  refine ⟨fun s b o w hb h4 ho => ?_, fun s o w => ⟨fun ho => ?_, fun ho => ?_⟩⟩
  · rw [hostStep_regWrite]
    obtain rfl | ⟨h1, h2⟩ | ⟨h1, h2⟩ | ⟨h1, h2⟩ := ho
    · simp only [show regAt 0x004 = .ctrl from rfl, writeReg, hb, ignoredWrite]
    · rw [writeReg_operand (regAt_operand h4 h1 h2)]; exact whenIdle_busy hb _
    · rw [regAt_hcount_window h4 h1 h2]; exact whenIdle_busy hb _
    · rw [regAt_hsym_window h4 h1 h2]; exact whenIdle_busy hb _
  · rw [hostStep_regWrite]
    refine writeReg_readOnly ?_ s w
    by_cases h4 : o % 4 = 0
    · obtain rfl | ⟨h1, h2⟩ | ho := ho
      · decide
      · exact regAt_result h4 h1 h2
      · rw [regAt_reserved (by omega)]; decide
    · rw [regAt_reserved (.inl h4)]; decide
  · rw [regAt_reserved (by omega)]; rfl

/-! ### The table windows -/

/-- Settles O13: an existing entry's write is a cell write, and `exec_keepsTables` covers the instructions. -/
theorem countTable : Obligations.CountTable := by
  refine ⟨fun s l w hi hl hl255 => ?_, fun s l w hl hl255 => ?_, fun i s t h => (exec_keepsTables h).hcount⟩
  · refine ⟨{ s with hcount := Cells.write s.hcount l (w.extractLsb' 0 16) }, ?_, fun k => Cells.read_write _ _ _ _, ?_, rfl⟩
    · rw [hostStep_regWrite, regAt_hcount hl255, writeReg, whenIdle_idle hi, writeHcount, if_pos hl]
    · simp [regAt_hcount hl255, readReg, hostHcount, hl]
  · rw [regAt_hcount hl255]
    refine ⟨if_neg (by omega), fun hi => ?_⟩
    rw [hostStep_regWrite, regAt_hcount hl255, writeReg, whenIdle_idle hi, writeHcount_of_not_le (by omega)]

/-- Settles O14, as O13. -/
theorem symbolTable : Obligations.SymbolTable := by
  refine ⟨fun s j w hi hj hj4096 => ?_, fun s j w hj hj4096 => ?_, fun i s t h => (exec_keepsTables h).hsym⟩
  · refine ⟨{ s with hsym := Cells.write s.hsym j w }, ?_, fun k => Cells.read_write _ _ _ _, ?_, rfl⟩
    · rw [hostStep_regWrite, regAt_hsym hj4096, writeReg, whenIdle_idle hi, writeHsym, if_pos hj]
    · simp [regAt_hsym hj4096, readReg, hostHsym, hj]
  · rw [regAt_hsym hj4096]
    refine ⟨if_neg (by omega), fun hi => ?_⟩
    rw [hostStep_regWrite, regAt_hsym hj4096, writeReg, whenIdle_idle hi, writeHsym_of_not_lt (by omega)]

/-! ### STATUS -/

/-- An error code and its number are a row of R260's table. -/
theorem ErrCode.number_mem (e : ErrCode) :
    (e, e.number) ∈ [(ErrCode.ok, 0#4), (.truncated, 1#4), (.underflow, 2#4), (.badHeader, 3#4), (.badBlock, 4#4),
      (.badTable, 5#4), (.badCode, 6#4), (.badArg, 7#4), (.capacity, 8#4), (.badCmd, 9#4)] := by
  cases e <;> decide

/-- Settles O10, by the fields of STATUS's word. -/
theorem statusRegister : Obligations.StatusRegister := by
  refine ⟨fun s => ?_, fun s w => ⟨rfl, fun t ht => ?_⟩⟩
  · obtain ⟨hbusy, hdone, hwign, h3, herr, hzero⟩ := Status.toWord_fields s.status s.phase.isBusy
    exact ⟨hbusy, hdone, hwign, h3, herr ▸ s.status.err.number_mem, hzero⟩
  · cases ht
    simp only [State.irq, Status.writeOneToClear_done, Bool.and_eq_true, Bool.not_eq_true']
    tauto

/-! ### The constant registers -/

/-- PARAM0 of a legal choice of parameters (R35). -/
theorem toNat_param0Word {p : Params} (h : p.legal = true) :
    (param0Word p).toNat = p.hufMaxlen + 2 ^ 16 * p.hufMaxsym := by
  simp only [Params.legal, Bool.and_eq_true, decide_eq_true_eq] at h
  simp only [param0Word, BitVec.toNat_append, BitVec.toNat_ofNat]
  rw [← Nat.shiftLeft_add_eq_or_of_lt (by omega), ← Nat.shiftLeft_add_eq_or_of_lt (by omega),
    ← Nat.shiftLeft_add_eq_or_of_lt (by omega)]
  simp only [Nat.shiftLeft_eq]
  omega

/-- PARAM1 of a legal choice of parameters (R35). -/
theorem toNat_param1Word {p : Params} (h : p.legal = true) : (param1Word p).toNat = p.memBytes - 1 := by
  simp only [Params.legal, Bool.and_eq_true, decide_eq_true_eq] at h
  rw [param1Word, BitVec.toNat_ofNat, Nat.mod_eq_of_lt (by omega)]

/-- Settles O11: PARAM0's fields are digits of its value. -/
theorem identityRegisters : Obligations.IdentityRegisters := by
  refine ⟨fun s w => ⟨rfl, rfl⟩, fun s w hp => ?_⟩
  have hword : (readReg s (regAt 0x038)).toNat = _ := toNat_param0Word hp
  have hlegal := hp
  simp only [Params.legal, Bool.and_eq_true, decide_eq_true_eq] at hlegal
  refine ⟨?_, BitVec.eq_of_toNat_eq ?_, ?_, BitVec.eq_of_toNat_eq ?_, toNat_param1Word hp, rfl, rfl⟩ <;>
    rw [BitVec.extractLsb'_toNat, hword, Nat.shiftRight_eq_div_pow]
  · omega
  · change _ = 0; omega
  · omega
  · change _ = 0; omega

/-! ### Values after reset -/

/-- The registers from CTRL's offset to RES_INFO's (R21). -/
theorem regAt_resettable {o : Nat} (h4 : o % 4 = 0) (h1 : 0x004 ≤ o) (h2 : o ≤ 0x034) :
    regAt o ∈ [.ctrl, .status] ++ (operandNames ++ [.resLen, .resPos, .resInfo]) := by
  obtain ⟨k, hk, rfl⟩ : ∃ k, k < 13 ∧ o = 0x004 + 4 * k := ⟨(o - 0x004) / 4, by omega, by omega⟩
  clear h4 h1 h2
  revert k
  decide

/-- With every register at its reset value, CTRL to RES_INFO read 0 (R45). -/
theorem readReg_cleared {s : State} (hc : s.ctrl = .zero) (hs : s.status = .zero) (hr : s.regs = .zero)
    (hres : s.results = .zero) (hi : s.phase = .idle) {o : Nat} (h1 : 0x004 ≤ o) (h2 : o ≤ 0x034) :
    readReg s (regAt o) = 0 := by
  by_cases h4 : o % 4 = 0
  · have hmem := regAt_resettable h4 h1 h2
    simp only [operandNames, List.mem_append, List.mem_cons, List.not_mem_nil, or_false] at hmem
    obtain (h | h) | (h | h | h | h | h | h | h | h) | (h | h | h) := hmem <;>
      simp only [h, readReg, hc, hs, hr, hres, hi] <;> decide
  · rw [regAt_reserved (.inl h4)]; rfl

/-- Settles O17: every register from CTRL to RES_INFO is cleared, and no memory lists a cell. -/
theorem resetValues : Obligations.ResetValues := by
  unfold Obligations.ResetValues
  intro p n host o
  exact ⟨rfl, rfl, readReg_cleared rfl rfl rfl rfl rfl, rfl, fun hp => ⟨toNat_param0Word hp, toNat_param1Word hp⟩,
    fun k => ⟨rfl, rfl, rfl⟩⟩

end Sys2Proof.Machine
end

section
/-! The host's accesses to MEM (R61, R70d, R70g, R274): one byte while IDLE and while BUSY, one that does not exist, and the runs of
the host's list that make a wide access. -/

namespace Sys2Proof.Machine

/-! ### One byte -/

theorem hostStep_memWrite_idle {s : State} {a : Nat} (hi : s.phase = .idle) (ha : a < s.params.memBytes) (x : Byte) :
    hostStep (.memWrite a x) s = .next { s with mem := Cells.write s.mem a x } := by
  simp only [hostStep, hostMemWrite, if_pos ha, hi]

theorem hostStep_memRead_idle {s : State} {a : Nat} (hi : s.phase = .idle) (ha : a < s.params.memBytes) :
    hostStep (.memRead a) s = .next (reply ((shownByte s.mem s.powerCycles a).zeroExtend 32) s) := by
  simp only [hostStep, hostMemRead, if_pos ha, hi]

theorem hostStep_memWrite_absent {s : State} {a : Nat} (ha : s.params.memBytes ≤ a) (x : Byte) :
    hostStep (.memWrite a x) s = .next s := by
  simp only [hostStep, hostMemWrite, if_neg (not_lt.mpr ha)]

theorem hostStep_memRead_absent {s : State} {a : Nat} (ha : s.params.memBytes ≤ a) :
    hostStep (.memRead a) s = .next (reply 0 s) := by
  simp only [hostStep, hostMemRead, if_neg (not_lt.mpr ha)]

/-- A byte in neither in-use region is the host's to write while BUSY (R70g). -/
theorem hostStep_memWrite_busy {s : State} {b : Busy} {a : Nat} (hb : s.phase = .busy b) (ha : a < s.params.memBytes)
    (hr : (readSet s.params b.cmd).holds a = false) (hw : (writeSet s.params b.cmd).holds a = false) (x : Byte) :
    hostStep (.memWrite a x) s = .next { s with mem := Cells.write s.mem a x } := by
  simp only [hostStep, hostMemWrite, if_pos ha, hb, hr, hw, Bool.or_self, Bool.false_eq_true, if_false]

/-- A byte of an in-use region is not (R70d, R274). -/
theorem hostStep_memWrite_race {s : State} {b : Busy} {a : Nat} (hb : s.phase = .busy b) (ha : a < s.params.memBytes)
    (hu : (readSet s.params b.cmd).holds a = true ∨ (writeSet s.params b.cmd).holds a = true) (x : Byte) :
    hostStep (.memWrite a x) s = .fault (.hostRace a) := by
  simp only [hostStep, hostMemWrite, if_pos ha, hb, Bool.or_eq_true, if_pos hu]

/-- Settles O20: whether the byte is in use decides. -/
theorem hostRace : Obligations.HostRace := by
  unfold Obligations.HostRace
  intro s b a x hb ha
  exact ⟨fun hu => hostStep_memWrite_race hb ha hu x, fun hr hw =>
    ⟨_, hostStep_memWrite_busy hb ha hr hw x, rfl, Cells.read_write s.mem a x⟩⟩

/-- A host write while IDLE, of a byte that exists or of one that does not. -/
theorem hostStep_memWrite_read {s : State} (hi : s.phase = .idle) (a : Nat) (x : Byte) :
    ∃ m, hostStep (.memWrite a x) s = .next { s with mem := m } ∧
      ∀ y, Cells.read m y = if y = a ∧ y < s.params.memBytes then some x else Cells.read s.mem y := by
  by_cases ha : a < s.params.memBytes
  · refine ⟨_, hostStep_memWrite_idle hi ha x, fun y => ?_⟩
    rw [Cells.read_write]
    exact if_congr ⟨fun h => ⟨h, h ▸ ha⟩, And.left⟩ rfl rfl
  · refine ⟨s.mem, hostStep_memWrite_absent (not_lt.mp ha) x, fun y => ?_⟩
    exact (if_neg fun ⟨hy, hlt⟩ => ha (hy ▸ hlt)).symm

/-- What a host read while IDLE returns: the byte written there, and 0 where no byte exists. -/
theorem hostStep_memRead_eq {s : State} {a : Nat} {x : Byte} (hi : s.phase = .idle)
    (hx : if a < s.params.memBytes then Cells.read s.mem a = some x else x = 0) :
    hostStep (.memRead a) s = .next (reply (x.zeroExtend 32) s) := by
  split at hx
  · next ha => rw [hostStep_memRead_idle hi ha, shownByte, hx, Option.getD_some]
  · next ha => rw [hostStep_memRead_absent (not_lt.mp ha), hx]; rfl

/-! ### Runs of the host's list -/

theorem step_host {s : State} {op : HostOp} {rest : List HostOp} (hi : s.phase = .idle) (hh : s.host = op :: rest) :
    step s = hostStep op { s with host := rest } := by
  simp only [step, takeEvent, hi, hh, Phase.countDown_idle]

theorem run_succ {s t : State} (h : step s = .next t) (k : Nat) : core.run (k + 1) s = core.run k t := by
  simp only [Host.Core.run, core, h]

/-- The host's byte writes, one at each rising address, leave those bytes where they exist. -/
theorem run_mw {s : State} {a : Nat} {bs : List Byte} {rest : List HostOp} (hi : s.phase = .idle)
    (hh : s.host = Script.mw a bs ++ rest) :
    ∃ m, core.run bs.length s = .next { s with mem := m, host := rest } ∧ ∀ y, Cells.read m y =
      if a ≤ y ∧ y < a + bs.length ∧ y < s.params.memBytes then bs[y - a]? else Cells.read s.mem y := by
  induction bs generalizing s a with
  | nil =>
    obtain rfl : s.host = rest := hh
    exact ⟨s.mem, rfl, fun y => (if_neg fun ⟨h1, h2, _⟩ => Nat.not_lt.mpr h1 h2).symm⟩
  | cons b bs ih =>
    obtain ⟨m, hstep, hm⟩ := hostStep_memWrite_read (s := { s with host := Script.mw (a + 1) bs ++ rest }) hi a b
    obtain ⟨m', hrun, hm'⟩ := ih (s := { s with mem := m, host := Script.mw (a + 1) bs ++ rest }) (a := a + 1) hi rfl
    refine ⟨m', (run_succ ((step_host hi hh).trans hstep) _).trans hrun, fun y => ?_⟩
    simp only [hm', hm, List.length_cons]
    rcases lt_trichotomy y a with hy | rfl | hy
    · rw [if_neg (by omega), if_neg (by omega), if_neg (by omega)]
    · rw [if_neg (by omega), Nat.sub_self, List.getElem?_cons_zero]
      exact if_congr (by omega) rfl rfl
    · obtain ⟨d, rfl⟩ : ∃ d, y = a + 1 + d := ⟨y - (a + 1), by omega⟩
      rw [if_neg (by omega : ¬ (a + 1 + d = a ∧ _)), Nat.add_sub_cancel_left, show a + 1 + d - a = d + 1 by omega,
        List.getElem?_cons_succ]
      exact if_congr (by omega) rfl rfl

/-- The host's byte reads reply with the bytes there, the last one newest. -/
theorem run_mr {s : State} {a : Nat} {bs : List Byte} {rest : List HostOp} (hi : s.phase = .idle)
    (hh : s.host = Script.mr a bs.length ++ rest)
    (hbs : ∀ j, j < bs.length → if a + j < s.params.memBytes then Cells.read s.mem (a + j) = bs[j]? else bs[j]? = some 0) :
    core.run bs.length s =
      .next { s with replies := (bs.map (BitVec.zeroExtend 32)).reverse ++ s.replies, host := rest } := by
  induction bs generalizing s a with
  | nil =>
    obtain rfl : s.host = rest := hh
    rfl
  | cons b bs ih =>
    have hstep := hostStep_memRead_eq (s := { s with host := Script.mr (a + 1) bs.length ++ rest }) (a := a) (x := b) hi
      (by simpa using hbs 0 (by simp))
    have hrun := ih (s := reply (b.zeroExtend 32) { s with host := Script.mr (a + 1) bs.length ++ rest }) (a := a + 1) hi rfl
      fun j hj => by simpa [Nat.add_assoc, Nat.add_comm 1] using hbs (j + 1) (by simpa using hj)
    rw [List.length_cons, run_succ ((step_host hi hh).trans hstep), hrun]
    simp

/-- Bytes read at rising addresses are the little-endian value of the replies they leave (R61). -/
theorem wideValue_replies (bs : List Byte) (replies : List Word) :
    Script.wideValue bs.length ((bs.map (BitVec.zeroExtend 32)).reverse ++ replies) = leValue bs := by
  rw [Script.wideValue, List.take_left' (by simp), List.foldl_reverse]
  induction bs with
  | nil => rfl
  | cons b bs ih =>
    have hb : (b.zeroExtend 32).toNat = b.toNat := BitVec.toNat_setWidth_of_le (by decide)
    rw [List.map_cons, List.foldr_cons, ih, hb, leValue, Nat.add_comm]

/-- Settles O19: single bytes by their phase and address, wide accesses by induction over the bytes. -/
theorem hostMem : Obligations.HostMem := by
  unfold Obligations.HostMem
  refine ⟨fun s a x hi ha => ?_, fun s a x ha => ?_, fun s a k v rest hi hh => ?_, fun s a k bs rest hi hh hk hbs => ?_⟩
  · refine ⟨_, hostStep_memWrite_idle hi ha x, rfl, Cells.read_write s.mem a x, ?_⟩
    exact hostStep_memRead_eq hi (by simp only [if_pos ha, Cells.read_write_self])
  · exact ⟨hostStep_memWrite_absent ha x, hostStep_memRead_absent ha⟩
  · obtain ⟨m, hrun, hm⟩ := run_mw hi hh
    simp only [List.length_map, List.length_range] at hrun hm
    refine ⟨_, hrun, rfl, fun y => (hm y).trans ?_⟩
    split
    · next hy => simp [show y - a < k by omega]
    · rfl
  · subst hk
    exact ⟨_, run_mr hi hh hbs, rfl, wideValue_replies bs s.replies, List.drop_left' (by simp)⟩

end Sys2Proof.Machine
end

section
/-! What a command's completion leaves as it was (R70, R121, R128): every register but the results and STATUS, the tables, and every
byte of MEM outside the command's write set. -/

namespace Sys2Proof.Machine

theorem writeSet_decoder {c : Latched} (h : c.op = 1 ∨ c.op = 2 ∨ c.op = 3) (p : Params) :
    writeSet p c = c.regs.destination ∨ writeSet p c = .empty := by
  unfold writeSet
  split
  · rcases h with h | h | h <;> simp [h]
  · exact .inr rfl

theorem writeSet_bitrev {c : Latched} (h : c.op = 5) (p : Params) :
    writeSet p c = c.regs.bitrevRange ∨ writeSet p c = .empty := by
  unfold writeSet
  split
  · simp [h]
  · exact .inr rfl

/-- A completion leaves every byte outside a region that its write set keeps within. -/
theorem runCommand_unchangedOutside {c : Latched} {f : CtrlBits} {s t : State} {b : Busy} {r : Region}
    (hb : s.phase = .busy b) (hr : c.regs = b.cmd.regs) (hw : writeSet s.params c = r ∨ writeSet s.params c = .empty)
    (h : runCommand c.op f (latchedRun c) s = .next t) : unchangedOutside s.mem t.mem r.base r.size := by
  rw [runCommand_busy hb] at h
  obtain ⟨e, ⟨-, hwrote⟩, rfl⟩ := complete_next (latchedRun_within c (s.env b) s.port hr.symm) h
  refine fun a ha => hwrote.frame a fun hin => ha ?_
  rw [inWriteSet, State.env_params] at hin
  rcases hw with hw | hw <;> rw [hw, Region.holds_iff] at hin
  · exact hin
  · simp [Region.empty] at hin

/-- POPCOUNT writes no byte, whether it passes its checks or not (R140, R124). -/
theorem popcountRun_port (send : Bool) (v : Env) (m : Port) :
    (popcountRun send v m).Sat (fun e => e.port = m) (fun e => e.port = m) fun _ => True := by
  by_cases hb : v.regs.viewSource.inBounds v.params = true
  · by_cases ha : popcountArgsOk v.regs = true
    · exact (popcountRun_sat (R := fun _ => False) send v m hb ha).mono (fun _ he => he.2.2.2) (fun _ he => he.elim)
        fun _ _ => trivial
    · simp [popcountRun, hb, ha, Act.reject_eq]
  · simp [popcountRun, hb, Act.reject_eq]

theorem reservedRun_port (v : Env) (m : Port) :
    (reservedRun v m).Sat (fun e => e.port = m) (fun e => e.port = m) fun _ => True := rfl

/-- A run that writes no byte leaves MEM as the same list. -/
theorem runCommand_mem_eq {op : BitVec 4} {f : CtrlBits} {run : Env → Port → Act Ending} {s t : State} {b : Busy}
    (hb : s.phase = .busy b)
    (hrun : ∀ v m, (run v m).Sat (fun e => e.port = m) (fun e => e.port = m) fun _ => True)
    (h : runCommand op f run s = .next t) : t.mem = s.mem := by
  rw [runCommand_busy hb] at h
  obtain ⟨e, he, rfl⟩ := complete_next (hrun (s.env b) s.port) h
  rw [finishWith_mem, he, State.port_mem]

/-- Settles O31: a completion is `finishWith` of its ending, and R121's function writes only its write set. -/
theorem commandFrame : Obligations.CommandFrame := by
  unfold Obligations.CommandFrame
  intro i s t b hf hn hb ht
  refine ⟨?_, ?_, ?_, fun hsc hvl hhuf hrev => ?_⟩
  · obtain ⟨c, -, he⟩ := exec_busy hf hn hb
    rw [he] at ht
    obtain ⟨e, hx⟩ | ⟨g, hx⟩ := complete_is (latchedRun c (s.env b) s.port) s <;> rw [hx] at ht <;> cases ht
    rfl
  · have decoder : ∀ (op : BitVec 4) (f : CtrlBits), op = 1 ∨ op = 2 ∨ op = 3 →
        runCommand op f (latchedRun ⟨op, f.send, f.dend, f.symw, b.cmd.regs⟩) s = .next t →
        unchangedOutside s.mem t.mem b.cmd.regs.dstAddr.toNat b.cmd.regs.dstCap.toNat := fun op f hop h =>
      runCommand_unchangedOutside (c := ⟨op, f.send, f.dend, f.symw, b.cmd.regs⟩) hb rfl (writeSet_decoder hop s.params) h
    rintro ⟨f, rfl | rfl | rfl⟩
    · exact decoder 1 f (by decide) ht
    · exact decoder 2 f (by decide) ht
    · exact decoder 3 f (by decide) ht
  · rintro ⟨f, rfl⟩
    exact runCommand_unchangedOutside (c := ⟨5, f.send, f.dend, f.symw, b.cmd.regs⟩) hb rfl (writeSet_bitrev rfl s.params) ht
  · cases i with
    | popcount f => exact runCommand_mem_eq hb (popcountRun_port f.send) ht
    | reservedOp0 | reservedOp67 | reservedOp8F => exact runCommand_mem_eq hb reservedRun_port ht
    | scDecode f => exact absurd rfl (hsc f)
    | vlDecode f => exact absurd rfl (hvl f)
    | hufDecode f => exact absurd rfl (hhuf f)
    | bitrev f => exact absurd rfl (hrev f)
    | ctrlStore op f => exact absurd rfl (hn op f)
    | scTerm | scRawLow | scRawHigh | scSparse1 | scSparse2 | scSparse3 | scSparse4 => cases hf
    | scReservedC0 | scReservedC5 | scReservedC6 | scReservedC8 | scReservedD0 | scReservedE0 => cases hf

end Sys2Proof.Machine
end

section
/-! The encodings against the decoder (R61, R80 to R88): encoding an instruction and decoding the bytes, and the classes of the block
header by its byte ranges. -/

namespace Sys2Proof.Machine

/-! ### Decoding the encoding -/

/-- A word is its four bytes, the last one most significant (R61). -/
theorem append_bytes (w : Word) :
    w.extractLsb' 24 8 ++ w.extractLsb' 16 8 ++ w.extractLsb' 8 8 ++ w.extractLsb' 0 8 = w := by
  apply BitVec.eq_of_getLsbD_eq
  intro i hi
  simp only [BitVec.getLsbD_append, BitVec.getLsbD_extractLsb']
  interval_cases i <;> simp

/-- A code's bytes decode to what the code does, whatever follows them. -/
theorem decode_bytes (c : Code) (rest : List Byte) :
    decode c.bytes.1 (c.bytes.2 ++ rest) = .ok (decodeCode c, rest) := by
  cases c with
  | header h => rfl
  | word w => simp only [Code.bytes, List.cons_append, List.nil_append, decode, decodeCode, append_bytes]

theorem format_encode (i : Instr) : (encode i).bytes.1 = i.format := by
  cases i <;> rfl

/-- The low bits of a reserved OP survive the encoding (R81). -/
theorem instrOf_reserved (f : CtrlBits) :
    (∀ lo : BitVec 1, instrOf true (0b011#3 ++ lo) f = .reservedOp67 lo f) ∧
      ∀ lo : BitVec 3, instrOf true (0b1#1 ++ lo) f = .reservedOp8F lo f := by
  obtain ⟨ie, symw, dend, send⟩ := f
  revert ie symw dend send
  decide +kernel

/-- The operand of a header survives the encoding; the low raw row has no byte 0 (R84). -/
theorem decodeHeader_scRawLow : ∀ h : BitVec 7, h ≠ 0 → decodeHeader (0b0#1 ++ h) = .scRawLow h := by
  decide +kernel

theorem decodeHeader_five_bits : ∀ x : BitVec 5, decodeHeader (0b100#3 ++ x) = .scRawHigh x ∧
    decodeHeader (0b101#3 ++ x) = .scSparse1 x ∧ decodeHeader (0b111#3 ++ x) = .scReservedE0 x := by
  decide +kernel

theorem decodeHeader_reserved : (∀ x : BitVec 1, decodeHeader (0b1100000#7 ++ x) = .scReservedC0 x) ∧
    (∀ x : BitVec 1, decodeHeader (0b1100011#7 ++ x) = .scReservedC6 x) ∧
    (∀ x : BitVec 3, decodeHeader (0b11001#5 ++ x) = .scReservedC8 x) ∧
    ∀ x : BitVec 4, decodeHeader (0b1101#4 ++ x) = .scReservedD0 x := by
  decide +kernel

/-- The code of a well-formed instruction decodes to it (R80, R81, R84). -/
theorem decodeCode_encode {i : Instr} (h : i.wellFormed = true) : decodeCode (encode i) = i := by
  cases i with
  | scDecode f => exact decodeWord_commandBits true 1 f
  | vlDecode f => exact decodeWord_commandBits true 2 f
  | hufDecode f => exact decodeWord_commandBits true 3 f
  | popcount f => exact decodeWord_commandBits true 4 f
  | bitrev f => exact decodeWord_commandBits true 5 f
  | reservedOp0 f => exact decodeWord_commandBits true 0 f
  | reservedOp67 lo f => exact (decodeWord_commandBits true _ f).trans ((instrOf_reserved f).1 lo)
  | reservedOp8F lo f => exact (decodeWord_commandBits true _ f).trans ((instrOf_reserved f).2 lo)
  | ctrlStore op f => exact decodeWord_commandBits false op f
  | scRawLow x => exact decodeHeader_scRawLow x (of_decide_eq_true h)
  | scRawHigh x => exact (decodeHeader_five_bits x).1
  | scSparse1 x => exact (decodeHeader_five_bits x).2.1
  | scReservedE0 x => exact (decodeHeader_five_bits x).2.2
  | scReservedC0 x => exact decodeHeader_reserved.1 x
  | scReservedC6 x => exact decodeHeader_reserved.2.1 x
  | scReservedC8 x => exact decodeHeader_reserved.2.2.1 x
  | scReservedD0 x => exact decodeHeader_reserved.2.2.2 x
  | scTerm | scSparse2 | scSparse3 | scSparse4 | scReservedC5 => rfl

/-- Settles O2: a code's bytes are in the instruction's format and decode to what the code does. -/
theorem decodeEncode : Obligations.DecodeEncode := by
  unfold Obligations.DecodeEncode
  intro i rest h
  refine ⟨format_encode i, ?_⟩
  rw [← format_encode i, decode_bytes, decodeCode_encode h]

/-- Settles O1: the words and bytes are concrete. -/
theorem sampleDecodes : Obligations.SampleDecodes := by
  unfold Obligations.SampleDecodes
  decide

/-! ### The block header classes -/

theorem decodeHeader_of_rawLow {h : Byte} (h1 : 1 ≤ h.toNat) (h2 : h.toNat ≤ 0x7F) :
    decodeHeader h = .scRawLow (BitVec.ofNat 7 h.toNat) := by
  revert h; decide +kernel

theorem decodeHeader_of_rawHigh {h : Byte} (h1 : 0x80 ≤ h.toNat) (h2 : h.toNat ≤ 0x9F) :
    decodeHeader h = .scRawHigh (BitVec.ofNat 5 (h.toNat - 0x80)) := by
  revert h; decide +kernel

theorem decodeHeader_of_sparse1 {h : Byte} (h1 : 0xA0 ≤ h.toNat) (h2 : h.toNat ≤ 0xBF) :
    decodeHeader h = .scSparse1 (BitVec.ofNat 5 (h.toNat - 0xA0)) := by
  revert h; decide +kernel

theorem reservedForm_decodeHeader {h : Byte} (hr : h.toNat = 0xC0 ∨ h.toNat = 0xC1 ∨ 0xC5 ≤ h.toNat) :
    reservedForm (decodeHeader h) := by
  unfold reservedForm
  revert h; decide +kernel

/-- A raw header byte has the raw form of its size (R85): the byte itself up to 32, and above it 32 bytes for each one past 31. -/
theorem rawForm_decodeHeader {h : Byte} (h1 : 1 ≤ h.toNat) (h2 : h.toNat ≤ 0x9F) :
    rawForm (decodeHeader h) (rawSize h.toNat) := by
  rcases Nat.lt_or_ge 0x7F h.toNat with hhigh | hlow
  · have hx : (BitVec.ofNat 5 (h.toNat - 0x80)).toNat = h.toNat - 0x80 := by rw [BitVec.toNat_ofNat]; omega
    exact .inr (.inr ⟨_, decodeHeader_of_rawHigh hhigh h2, by rw [hx, rawSize, if_neg (by omega)]; omega⟩)
  · have hx : (BitVec.ofNat 7 h.toNat).toNat = h.toNat := by rw [BitVec.toNat_ofNat]; omega
    by_cases h32 : h.toNat ≤ 32
    · exact .inl ⟨_, decodeHeader_of_rawLow h1 hlow, by omega, by omega, by rw [hx, rawSize, if_pos h32]⟩
    · exact .inr (.inl ⟨_, decodeHeader_of_rawLow h1 hlow, by omega, by rw [hx, rawSize, if_neg h32]⟩)

/-- Settles O4: each range of the byte by the form its instruction has. -/
theorem headerClasses : Obligations.HeaderClasses := by
  unfold Obligations.HeaderClasses
  refine fun h => ⟨fun h0 => ?_, fun h1 h2 => ?_, fun h1 h2 => ?_, fun h1 h2 => ?_, fun h1 h2 x => ?_,
    reservedForm_decodeHeader⟩
  · rw [BitVec.eq_of_toNat_eq (y := 0#8) h0]; rfl
  · simpa [rawSize, h2] using rawForm_decodeHeader h1 (by omega)
  · simpa [rawSize, show ¬ h.toNat ≤ 32 by omega] using rawForm_decodeHeader (by omega) h2
  · exact .inl ⟨_, decodeHeader_of_sparse1 h1 h2, rfl, rfl, by rw [BitVec.toNat_ofNat]; omega⟩
  · obtain he | he | he : h.toNat = 0xC2 ∨ h.toNat = 0xC3 ∨ h.toNat = 0xC4 := by omega
    · obtain rfl := BitVec.eq_of_toNat_eq (y := 0xC2#8) he
      exact .inr (.inl ⟨rfl, rfl, x, rfl, rfl⟩)
    · obtain rfl := BitVec.eq_of_toNat_eq (y := 0xC3#8) he
      exact .inr (.inr (.inl ⟨rfl, rfl, x, rfl, rfl⟩))
    · obtain rfl := BitVec.eq_of_toNat_eq (y := 0xC4#8) he
      exact .inr (.inr (.inr ⟨rfl, rfl, x, rfl, rfl⟩))

end Sys2Proof.Machine
end

section
/-! What the decoders' proofs share: the two regions of R125 and R126, the completion of R121 by its fields, and how a claim about
the bytes or bits MEM holds splits and survives writes elsewhere. -/

namespace Sys2Proof.Machine

theorem decoderRegionsOk_bounds {p : Params} {src dst : Region} (h : decoderRegionsOk p src dst = true) :
    src.base + src.size ≤ p.memBytes ∧ dst.base + dst.size ≤ p.memBytes := by
  simp only [decoderRegionsOk, Region.inBounds, Bool.and_eq_true, decide_eq_true_eq] at h
  exact h.1

/-- A decoder that passed its checks never writes where it reads (R126). -/
theorem decoderRegionsOk_disjoint {p : Params} {src dst : Region} (h : decoderRegionsOk p src dst = true) {a : Nat}
    (hs : src.base ≤ a ∧ a < src.base + src.size) : ¬ (dst.base ≤ a ∧ a < dst.base + dst.size) := by
  simp only [decoderRegionsOk, Region.overlaps, Bool.and_eq_true, Bool.not_eq_true', Bool.and_eq_false_iff,
    decide_eq_false_iff_not] at h
  omega

theorem finishWith_eq_completion (e : Ending) (s : State) :
    finishWith e s = completion e.code (s.results.after e) e.port.mem s := rfl

@[simp] theorem completion_mem (code : ErrCode) (r : Results) (mem : List Host.Cell) (s : State) :
    (completion code r mem s).mem = mem := rfl

theorem unchangedOutside.refl (mem : List Host.Cell) (base size : Nat) : unchangedOutside mem mem base size := fun _ _ => rfl

/-- Two writes after each other, both inside the range. -/
theorem unchangedOutside.trans {mem mem' mem'' : List Host.Cell} {base size base1 size1 base2 size2 : Nat}
    (h1 : unchangedOutside mem mem' base1 size1) (h2 : unchangedOutside mem' mem'' base2 size2)
    (hin1 : ∀ a, base1 ≤ a ∧ a < base1 + size1 → base ≤ a ∧ a < base + size)
    (hin2 : ∀ a, base2 ≤ a ∧ a < base2 + size2 → base ≤ a ∧ a < base + size) :
    unchangedOutside mem mem'' base size :=
  fun a ha => (h2 a fun h => ha (hin2 a h)).trans (h1 a fun h => ha (hin1 a h))

theorem holdsBits_append {mem : List Host.Cell} {base i : Nat} {big : Bool} {xs ys : List Bool}
    (h : holdsBits mem base big i (xs ++ ys)) :
    holdsBits mem base big i xs ∧ holdsBits mem base big (i + xs.length) ys := by
  refine ⟨fun k hk => ?_, fun k hk => ?_⟩
  · rw [h k (by simp; omega), List.getElem?_append_left hk]
  · rw [Nat.add_assoc, h (xs.length + k) (by simpa using hk), List.getElem?_append_right (by omega), Nat.add_sub_cancel_left]

/-- Bits stay held where their bytes stay. -/
theorem holdsBits.congr {mem mem' : List Host.Cell} {base i : Nat} {big : Bool} {bits : List Bool}
    (h : holdsBits mem base big i bits)
    (hm : ∀ k, k < bits.length → Cells.read mem' (base + (i + k) / 8) = Cells.read mem (base + (i + k) / 8)) :
    holdsBits mem' base big i bits := fun k hk => by
  rw [viewBit, hm k hk]
  exact h k hk

end Sys2Proof.Machine
end

section
/-! Canonical codes in HUF_DECODE (R93 to R95, R194 to R197): the table checks as a bound on the code space, one code read bit by bit,
and the symbols of codes one after the other. -/

namespace Sys2Proof.Machine

/-! ### The code space (R94, R193) -/

theorem codeSpace_cons (c : Nat) (cs : List Nat) : codeSpace (c :: cs) = c * 2 ^ cs.length + codeSpace cs := by
  simp [codeSpace, List.range_succ_eq_map, Function.comp_def]

/-- Check 4 of R193, step by step over the lengths, is the bound on the code space. -/
theorem notOverSubscribed_iff (left : Int) (cs : List Nat) (h : 0 ≤ left) :
    notOverSubscribed left cs = true ↔ (codeSpace cs : Int) ≤ left * 2 ^ cs.length := by
  induction cs generalizing left with
  | nil => simpa [notOverSubscribed, codeSpace] using h
  | cons c cs ih =>
    have hsplit : left * 2 ^ (c :: cs).length - codeSpace (c :: cs) = (2 * left - c) * 2 ^ cs.length - codeSpace cs := by
      rw [codeSpace_cons, List.length_cons]; push_cast; ring
    unfold notOverSubscribed
    split_ifs with hneg
    · have : (2 * left - c) * 2 ^ cs.length ≤ -1 * 2 ^ cs.length := Int.mul_le_mul_of_nonneg_right (by omega) (by positivity)
      have : (0 : Int) < 2 ^ cs.length := by positivity
      simp only [false_iff]
      omega
    · rw [ih _ (by omega)]
      omega

/-- The codes shorter than `l + 1` take up the space below the first code of that length. -/
theorem firstCode_mul_pow (counts : List Nat) {l : Nat} (h : l ≤ counts.length) :
    firstCode counts l * 2 ^ (counts.length - l) =
      2 * ((List.range l).map fun k => counts.getD k 0 * 2 ^ (counts.length - (k + 1))).sum := by
  induction l with
  | zero => simp [firstCode]
  | succ l ih =>
    have hpow : 2 ^ (counts.length - l) = 2 * 2 ^ (counts.length - (l + 1)) := by
      rw [show counts.length - l = counts.length - (l + 1) + 1 by omega, pow_succ, Nat.mul_comm]
    have ih := ih (by omega)
    rw [hpow] at ih
    rw [List.range_succ, List.map_append, List.sum_append, Nat.mul_add, ← ih]
    simp only [firstCode, List.map_cons, List.map_nil, List.sum_cons, List.sum_nil]
    ring

/-- A code of length `l + 1` has that many binary digits, where the counts are not over-subscribed. -/
theorem firstCode_add_le {counts : List Nat} (hk : codeSpace counts ≤ 2 ^ counts.length) {l : Nat} (hl : l < counts.length) :
    firstCode counts l + counts.getD l 0 ≤ 2 ^ (l + 1) := by
  obtain ⟨d, hd⟩ := Nat.exists_eq_add_of_lt hl
  have hpart : ((List.range (l + 1)).map fun k => counts.getD k 0 * 2 ^ (counts.length - (k + 1))).sum ≤ codeSpace counts := by
    unfold codeSpace
    rw [show counts.length = l + 1 + d by omega, List.range_add (n := l + 1), List.map_append, List.sum_append]
    exact Nat.le_add_right _ _
  have hf := firstCode_mul_pow counts (Nat.succ_le_of_lt hl)
  have hd' : counts.length - (l + 1) = d := by omega
  have hpow : 2 ^ counts.length = 2 ^ (l + 1) * 2 ^ d := by rw [← pow_add]; congr 1; omega
  rw [Nat.succ_eq_add_one, hd', firstCode] at hf
  refine Nat.le_of_mul_le_mul_right (c := 2 ^ d) ?_ (by positivity)
  rw [← hpow]
  linarith

/-- The upper digits of a longer code lie past every code of their own length. -/
theorem pow_mul_firstCode_le (counts : List Nat) (l d : Nat) :
    2 ^ (d + 1) * (firstCode counts l + counts.getD l 0) ≤ firstCode counts (l + d + 1) := by
  induction d with
  | zero => simp [firstCode]
  | succ d ih =>
    rw [← Nat.add_assoc, firstCode, pow_succ, Nat.mul_right_comm]
    omega

/-! ### A code's digits (R94) -/

theorem digitsValue_take_succ {ds : List Bool} {l : Nat} (h : l < ds.length) :
    digitsValue (ds.take (l + 1)) = 2 * digitsValue (ds.take l) + ds[l].toNat := by
  rw [digitsValue, List.take_add_one, List.getElem?_eq_getElem h, List.foldl_append]
  rfl

@[simp] theorem CodeAt.length_digits (counts : List Nat) (x : CodeAt) : (x.digits counts).length = x.l + 1 := by
  simp [CodeAt.digits]

/-- The first `q` digits of a code spell its upper part. -/
theorem CodeAt.digitsValue_take {counts : List Nat} {x : CodeAt} (hx : x.among counts)
    (hk : codeSpace counts ≤ 2 ^ counts.length) {q : Nat} (hq : q ≤ x.l + 1) :
    digitsValue ((x.digits counts).take q) = (firstCode counts x.l + x.r) / 2 ^ (x.l + 1 - q) := by
  induction q with
  | zero =>
    have := firstCode_add_le hk hx.1
    exact (Nat.div_eq_of_lt (by have := hx.2; rw [Nat.sub_zero]; omega)).symm
  | succ q ih =>
    have he : x.l + 1 - q = x.l - q + 1 := by omega
    rw [digitsValue_take_succ (by simpa using hq), ih (by omega), he, Nat.add_sub_add_right, pow_succ, ← Nat.div_div_eq_div_mul]
    simp only [CodeAt.digits, List.getElem_map, List.getElem_range, Nat.toNat_testBit]
    omega

/-- A code's digits spell the code. -/
theorem CodeAt.digitsValue_digits {counts : List Nat} {x : CodeAt} (hx : x.among counts)
    (hk : codeSpace counts ≤ 2 ^ counts.length) :
    digitsValue ((x.digits counts).take (x.l + 1)) = firstCode counts x.l + x.r := by
  rw [CodeAt.digitsValue_take hx hk le_rfl, Nat.sub_self, pow_zero, Nat.div_one]

/-- No shorter code begins a code's digits (R194). -/
theorem CodeAt.noCodeBegins_digits {counts : List Nat} {x : CodeAt} (hx : x.among counts)
    (hk : codeSpace counts ≤ 2 ^ counts.length) : noCodeBegins counts (x.digits counts) x.l := by
  intro l hl
  obtain ⟨d, hd⟩ := Nat.exists_eq_add_of_lt hl
  rw [CodeAt.digitsValue_take hx hk (by omega), show x.l + 1 - (l + 1) = d + 1 by omega,
    Nat.le_div_iff_mul_le (by positivity), Nat.mul_comm, hd]
  exact (pow_mul_firstCode_le counts l d).trans (Nat.le_add_right _ _)

/-! ### The tables as a command reads them -/

/-- HCOUNT from 1 on reads as `counts`, whatever the port. -/
def CountsRead (v : Env) (counts : List Nat) : Prop :=
  counts.length = v.params.hufMaxlen ∧ ∀ m l, l < counts.length → readHcount v m (l + 1) = .ok (counts.getD l 0)

theorem readHcount_eq_ok {v : Env} {l c : Nat} (h : (Cells.read v.hcount l).map (fun x => x.toNat) = some c) (m : Port) :
    readHcount v m l = .ok c := by
  obtain ⟨x, hx, rfl⟩ := Option.map_eq_some_iff.mp h
  rw [readHcount, hx]

theorem readHsym_eq_ok {v : Env} {j : Nat} {sym : Word} (h : Cells.read v.hsym j = some sym) (m : Port) :
    readHsym v m j = .ok sym := by
  rw [readHsym, h]

theorem countsHeld.countsRead {s : State} {c0 : Nat} {counts : List Nat} (h : countsHeld s c0 counts) (b : Busy) :
    CountsRead (s.env b) counts :=
  ⟨h.1, fun m l hl => readHcount_eq_ok (by rw [State.env_hcount, h.2.2 l hl]; simp [hl]) m⟩

theorem readCounts_eq_ok {v : Env} {m : Port} {l : Nat} {cs : List Nat}
    (h : ∀ k, k < cs.length → readHcount v m (l + k) = .ok (cs.getD k 0)) : readCounts v m cs.length l = .ok cs := by
  induction cs generalizing l with
  | nil => rfl
  | cons c cs ih =>
    have hrest : readCounts v m cs.length (l + 1) = .ok cs := ih fun k hk => by
      rw [Nat.add_assoc, Nat.add_comm 1, h (k + 1) (by simpa using hk)]; rfl
    rw [List.length_cons, readCounts, show readHcount v m l = .ok c from h 0 (by simp), Act.bind_ok, hrest]
    rfl

/-- Good tables pass R193's checks. -/
theorem checkTables_eq_ok {s : State} {b : Busy} {counts : List Nat} (hc : countsHeld s 0 counts)
    (hg : tablesGood s.params.hufMaxsym b.cmd.regs.hufNsym.toNat 0 counts) (m : Port) :
    checkTables (s.env b) m = .ok () := by
  obtain ⟨-, hread⟩ := hc.countsRead b
  obtain ⟨hlen, h0, -⟩ := hc
  obtain ⟨hn0, hnmax, -, hsum, hspace⟩ := hg
  have hall : readCounts (s.env b) m s.params.hufMaxlen 1 = .ok counts :=
    hlen ▸ readCounts_eq_ok fun k hk => by rw [Nat.add_comm]; exact hread m k hk
  have hsub : notOverSubscribed 1 counts = true :=
    (notOverSubscribed_iff 1 counts (by decide)).mpr (by rw [one_mul]; exact_mod_cast hspace)
  simp only [checkTables, State.env_regs, State.env_params, hn0, not_lt.mpr hnmax, or_self, if_false,
    readHcount_eq_ok (v := s.env b) h0, hall, Act.bind_ok, hsum, hsub, ne_eq, not_true_eq_false, Bool.not_true, Bool.false_eq_true]

/-! ### Reading one code (R194) -/

/-- The working state inside a code that began at `w.pos`, when the first `l` of the bits `ds` are read and no code has ended. -/
def HufWork.reading (w : HufWork) (counts : List Nat) (ds : List Bool) (l : Nat) : HufWork :=
  { w with pos := w.pos + l, start := w.pos, code := 2 * digitsValue (ds.take l), first := firstCode counts l,
           index := (counts.take l).sum, len := l + 1 }

theorem HufWork.startCode_eq (w : HufWork) (counts : List Nat) (ds : List Bool) :
    w.startCode = w.reading counts ds 0 := by
  simp [HufWork.startCode, HufWork.reading, digitsValue, firstCode]

/-- The source view holds the bits `ds` from the cursor `pos` on. -/
structure BitsAt (v : Env) (send : Bool) (m : Port) (pos : Nat) (ds : List Bool) : Prop where
  inInput : pos + ds.length ≤ v.regs.srcLen.toNat
  held : holdsBits m.mem v.regs.srcAddr.toNat send pos ds
  inMem : v.regs.viewSource.base + v.regs.viewSource.size ≤ v.params.memBytes

theorem BitsAt.append {v : Env} {send : Bool} {m : Port} {pos : Nat} {xs ys : List Bool} (h : BitsAt v send m pos (xs ++ ys)) :
    BitsAt v send m pos xs ∧ BitsAt v send m (pos + xs.length) ys := by
  obtain ⟨hs, hh, hm⟩ := h
  rw [List.length_append] at hs
  obtain ⟨hx, hy⟩ := holdsBits_append hh
  exact ⟨⟨by omega, hx, hm⟩, ⟨by omega, hy, hm⟩⟩

theorem BitsAt.lt {v : Env} {send : Bool} {m : Port} {pos : Nat} {ds : List Bool} (h : BitsAt v send m pos ds) {k : Nat}
    (hk : k < ds.length) : pos + k < v.regs.srcLen.toNat := by
  have := h.inInput
  omega

theorem BitsAt.getBit {v : Env} {send : Bool} {m : Port} {pos : Nat} {ds : List Bool} (h : BitsAt v send m pos ds) {k : Nat}
    (hk : k < ds.length) : getBit v v.regs.srcAddr.toNat send m (pos + k) = .ok ds[k] := by
  have hb := view_byte_lt (h.lt hk)
  have he := h.inMem
  simp only [Regs.viewSource] at he
  exact getBit_eq_ok (by omega) (by rw [h.held k hk, List.getElem?_eq_getElem hk])

section
variable {v : Env} {counts : List Nat} {send : Bool} {m : Port} {w : HufWork} {ds : List Bool}

/-- A bit with which no code ends: the next length is tried. -/
theorem decodeSymbol_miss (hc : CountsRead v counts) (hd : BitsAt v send m w.pos ds) {l : Nat} (hl : l < counts.length)
    (hlt : l < ds.length) (hmiss : firstCode counts l + counts.getD l 0 ≤ digitsValue (ds.take (l + 1))) (n : Nat) :
    decodeSymbol v send (n + 1) (w.reading counts ds l) m = decodeSymbol v send n (w.reading counts ds (l + 1)) m := by
  rw [digitsValue_take_succ hlt] at hmiss
  have hsum : (counts.take (l + 1)).sum = (counts.take l).sum + counts.getD l 0 := by
    rw [List.sum_take_succ counts l hl, List.getD_eq_getElem _ _ hl]
  rw [decodeSymbol]
  simp only [HufWork.reading, if_neg (not_le.mpr (hd.lt hlt)), hd.getBit hlt, hc.2 m l hl, Act.bind_ok, if_neg (not_lt.mpr hmiss),
    hsum, digitsValue_take_succ hlt, firstCode, Nat.mul_comm _ 2, Nat.add_assoc]

/-- Bits that no code of length at most `q` begins are all read (R194). -/
theorem decodeSymbol_noCodeBegins (hc : CountsRead v counts) (hd : BitsAt v send m w.pos ds) {q : Nat} (hq : q ≤ counts.length)
    (hlen : q ≤ ds.length) (hno : noCodeBegins counts ds q) (n : Nat) :
    decodeSymbol v send (q + n) w.startCode m = decodeSymbol v send n (w.reading counts ds q) m := by
  rw [w.startCode_eq counts ds]
  induction q generalizing n with
  | zero => rw [Nat.zero_add]
  | succ q ih =>
    rw [Nat.add_right_comm, Nat.add_assoc, ih (by omega) (by omega) (fun l hl => hno l (by omega)) (n + 1)]
    exact decodeSymbol_miss hc hd hq hlen (hno q (by omega)) n

/-- A bit that ends a code: its symbol is looked up, and the cursor stands after it. -/
theorem decodeSymbol_hit (hc : CountsRead v counts) (hd : BitsAt v send m w.pos ds) {x : CodeAt} (hx : x.among counts)
    (hlt : x.l < ds.length) (hval : digitsValue (ds.take (x.l + 1)) = firstCode counts x.l + x.r) {sym : Word}
    (hsym : Cells.read v.hsym (x.position counts) = some sym) (n : Nat) :
    ∃ w', decodeSymbol v send (n + 1) (w.reading counts ds x.l) m = .ok (sym, w') ∧ w'.pos = w.pos + (x.l + 1) ∧
      w'.count = w.count ∧ w'.start = w.pos := by
  have hcode : 2 * digitsValue (ds.take x.l) + ds[x.l].toNat = firstCode counts x.l + x.r := by
    rw [← digitsValue_take_succ hlt, hval]
  have hr := hx.2
  rw [CodeAt.position] at hsym
  rw [decodeSymbol]
  simp only [HufWork.reading, if_neg (not_le.mpr (hd.lt hlt)), hd.getBit hlt, hc.2 m x.l hx.1, Act.bind_ok, hcode,
    Nat.add_lt_add_iff_left, if_pos hr, Nat.add_sub_cancel_left, readHsym_eq_ok hsym m]
  exact ⟨_, rfl, Nat.add_assoc _ _ _, rfl, rfl⟩

/-- A whole code is read (R194): no shorter one begins its digits, and the last of them ends it. -/
theorem decodeSymbol_code (hc : CountsRead v counts) (hk : codeSpace counts ≤ 2 ^ counts.length) {x : CodeAt}
    (hx : x.among counts) (hd : BitsAt v send m w.pos (x.digits counts)) {sym : Word}
    (hsym : Cells.read v.hsym (x.position counts) = some sym) :
    ∃ w', decodeSymbol v send v.params.hufMaxlen w.startCode m = .ok (sym, w') ∧ w'.pos = w.pos + (x.digits counts).length ∧
      w'.count = w.count ∧ w'.start = w.pos := by
  obtain ⟨n, hn⟩ := Nat.exists_eq_add_of_lt hx.1
  rw [← hc.1, hn, Nat.add_assoc, decodeSymbol_noCodeBegins hc hd hx.1.le (by simp) (CodeAt.noCodeBegins_digits hx hk),
    CodeAt.length_digits]
  exact decodeSymbol_hit hc hd hx (by simp) (CodeAt.digitsValue_digits hx hk) hsym n

end

/-! ### Writing the symbols (R95, R196, R197) -/

/-- A symbol that fits is written whole, and nothing else changes. -/
theorem emitSymbol_eq_ok {v : Env} {width : Nat} {w : HufWork} (sym : Word) (m : Port)
    (hcap : width * (w.count + 1) ≤ v.regs.dstCap.toNat)
    (hdst : v.regs.destination.base + v.regs.destination.size ≤ v.params.memBytes) :
    ∃ m', emitSymbol v width sym w m = .ok ({ w with count := w.count + 1 }, m') ∧
      (∀ j, j < width →
        Cells.read m'.mem (v.regs.dstAddr.toNat + width * w.count + j) = some (sym.extractLsb' (8 * j) 8)) ∧
      unchangedOutside m.mem m'.mem (v.regs.dstAddr.toNat + width * w.count) width := by
  have hend : width * (w.count + 1) = width * w.count + width := Nat.mul_succ _ _
  simp only [Regs.destination] at hdst
  obtain ⟨m', hm'⟩ := memWriteBytes_eq_ok v (symbolBytes sym width) (v.regs.dstAddr.toNat + width * w.count) m
    (by rw [length_symbolBytes]; omega)
  have hread := memWriteBytes_read hm'
  rw [length_symbolBytes] at hread
  refine ⟨m', by simp only [emitSymbol, if_neg (not_lt.mpr hcap), hm', Act.bind_ok], fun j hj => ?_, fun a ha => ?_⟩
  · rw [hread, if_pos (by omega), Nat.add_sub_cancel_left]
    simp [symbolBytes, hj]
  · rw [hread, if_neg ha]

theorem symbolsWritten_cons {mem : List Host.Cell} {dst width : Nat} {sym : Word} {syms : List Word}
    (h : ∀ j, j < width → Cells.read mem (dst + j) = some (sym.extractLsb' (8 * j) 8))
    (hs : symbolsWritten mem (dst + width) width syms) : symbolsWritten mem dst width (sym :: syms) := by
  intro k j hk hj
  cases k with
  | zero => exact h j hj
  | succ k =>
    rw [Nat.mul_succ, ← Nat.add_assoc, Nat.add_right_comm _ (width * k), List.getD_cons_succ]
    exact hs k j (by simpa using hk) hj

/-- The symbol of a code under the counts. -/
def CodeAt.Names (v : Env) (counts : List Nat) (x : CodeAt) (sym : Word) : Prop :=
  x.among counts ∧ Cells.read v.hsym (x.position counts) = some sym

theorem symbolsHeld.names {s : State} {counts : List Nat} {codes : List CodeAt} {syms : List Word}
    (h : symbolsHeld s counts codes syms) (hx : ∀ x ∈ codes, x.among counts) (b : Busy) :
    List.Forall₂ (CodeAt.Names (s.env b) counts) codes syms := by
  obtain ⟨hlen, hread⟩ := h
  refine List.forall₂_iff_get.mpr ⟨hlen.symm, fun i h1 h2 => ⟨hx _ (List.get_mem _ _), ?_⟩⟩
  have := hread i codes[i] (List.getElem?_eq_getElem h1)
  rwa [List.getElem?_eq_getElem h2] at this

/-- The source view stays as it is when only bytes of the destination region are written (R126). -/
theorem BitsAt.of_unchangedOutside {v : Env} {send : Bool} {m m' : Port} {pos base size : Nat} {ds : List Bool}
    (h : BitsAt v send m pos ds) (hok : decoderRegionsOk v.params v.regs.viewSource v.regs.destination = true)
    (hm : unchangedOutside m.mem m'.mem base size) (hbase : v.regs.dstAddr.toNat ≤ base)
    (hsize : base + size ≤ v.regs.dstAddr.toNat + v.regs.dstCap.toNat) : BitsAt v send m' pos ds := by
  refine ⟨h.inInput, h.held.congr fun k hk => hm _ fun hin => ?_, h.inMem⟩
  have hview := view_byte_lt (h.lt hk)
  refine decoderRegionsOk_disjoint hok (a := v.regs.srcAddr.toNat + (pos + k) / 8) ?_ ?_
  all_goals simp only [Regs.viewSource, Regs.destination]; omega

section
variable {v : Env} {counts : List Nat} {send : Bool} {width : Nat}

/-- One turn of R195's loop over a whole code whose symbol fits: the code is read, and its symbol written. -/
theorem huffmanLoop_code (hc : CountsRead v counts) (hk : codeSpace counts ≤ 2 ^ counts.length)
    (hok : decoderRegionsOk v.params v.regs.viewSource v.regs.destination = true) {x : CodeAt} {sym : Word}
    (hx : x.Names v counts sym) {rest : List Bool} {w : HufWork} {m : Port}
    (hd : BitsAt v send m w.pos (x.digits counts ++ rest)) (hcap : width * (w.count + 1) ≤ v.regs.dstCap.toNat) (n : Nat) :
    ∃ w' m', huffmanLoop v send width (n + 1) w m = huffmanLoop v send width n w' m' ∧
      w'.pos = w.pos + (x.digits counts).length ∧ w'.count = w.count + 1 ∧ BitsAt v send m' w'.pos rest ∧
      (∀ j, j < width →
        Cells.read m'.mem (v.regs.dstAddr.toNat + width * w.count + j) = some (sym.extractLsb' (8 * j) 8)) ∧
      unchangedOutside m.mem m'.mem (v.regs.dstAddr.toNat + width * w.count) width := by
  have hmul : width * (w.count + 1) = width * w.count + width := Nat.mul_succ _ _
  obtain ⟨hdx, hdrest⟩ := hd.append
  have hstart : w.pos < v.regs.srcLen.toNat := hdx.lt (k := 0) (by simp)
  obtain ⟨w1, hdec, hp1, hc1, -⟩ := decodeSymbol_code hc hk hx.1 hdx hx.2
  obtain ⟨m', hemit, hsym, hframe⟩ := emitSymbol_eq_ok (w := w1) sym m (hc1 ▸ hcap) (decoderRegionsOk_bounds hok).2
  rw [hc1] at hsym hframe
  refine ⟨{ w1 with count := w1.count + 1 }, m', ?_, hp1, congrArg (· + 1) hc1, ?_, hsym, hframe⟩
  · rw [huffmanLoop, if_pos hstart, hdec, Act.bind_ok, hemit, Act.bind_ok]
  · exact hp1 ▸ hdrest.of_unchangedOutside hok hframe (by omega) (by omega)

/-- R195's loop over whole codes whose symbols fit: one turn for each. Any bits may follow them, and any
bound may be left, so that this serves for what comes after the codes too. -/
theorem huffmanLoop_codes (hc : CountsRead v counts) (hk : codeSpace counts ≤ 2 ^ counts.length)
    (hok : decoderRegionsOk v.params v.regs.viewSource v.regs.destination = true) {codes : List CodeAt} {syms : List Word}
    (hnames : List.Forall₂ (CodeAt.Names v counts) codes syms) (rest : List Bool) (n : Nat) (w : HufWork) (m : Port)
    (hd : BitsAt v send m w.pos (codes.flatMap (CodeAt.digits counts) ++ rest))
    (hcap : width * (w.count + codes.length) ≤ v.regs.dstCap.toNat) :
    ∃ w' m', huffmanLoop v send width (codes.length + n) w m = huffmanLoop v send width n w' m' ∧
      w'.pos = w.pos + (codes.flatMap (CodeAt.digits counts)).length ∧ w'.count = w.count + codes.length ∧
      BitsAt v send m' w'.pos rest ∧ symbolsWritten m'.mem (v.regs.dstAddr.toNat + width * w.count) width syms ∧
      unchangedOutside m.mem m'.mem (v.regs.dstAddr.toNat + width * w.count) (width * codes.length) := by
  induction hnames generalizing w m with
  | nil =>
    exact ⟨w, m, by rw [List.length_nil, Nat.zero_add], rfl, rfl, hd, fun k j hk => absurd hk (Nat.not_lt_zero k), .refl _ _ _⟩
  | @cons x sym codes syms hx _ ih =>
    simp only [List.length_cons, List.flatMap_cons, List.append_assoc, List.length_append] at hd hcap ⊢
    have hone : width * (w.count + 1) ≤ width * (w.count + (codes.length + 1)) := Nat.mul_le_mul_left _ (by omega)
    obtain ⟨w1, m1, hturn, hp1, hc1, hd1, hsym, hframe⟩ := huffmanLoop_code hc hk hok hx hd (hone.trans hcap) (codes.length + n)
    obtain ⟨w', m', hloop, hp', hc', hd', hwr, hfr⟩ := ih w1 m1 hd1 (by rwa [hc1, Nat.add_assoc, Nat.add_comm 1])
    rw [hc1, Nat.mul_succ, ← Nat.add_assoc] at hwr hfr
    refine ⟨w', m', ?_, by omega, by omega, hd', symbolsWritten_cons (fun j hj => ?_) hwr, hframe.trans hfr ?_ ?_⟩
    · rw [← hloop, ← hturn, Nat.add_right_comm]
    · rw [hfr _ (by omega), hsym j hj]
    all_goals intro a ha; rw [Nat.mul_succ]; omega

end

/-- With no bit left the loop is done, whatever its bound (R195). -/
theorem huffmanLoop_done {v : Env} {w : HufWork} (h : w.pos = v.regs.srcLen.toNat) (send : Bool) (width n : Nat) (m : Port) :
    huffmanLoop v send width n w m = huffmanDone w m := by
  cases n with
  | zero => rfl
  | succ n => rw [huffmanLoop, if_neg (by omega)]

/-! ### The command -/

theorem symbolWidth_eq {symw : BitVec 2} {width : Nat} (h : (symw = 0 ∧ width = 1) ∨ (symw = 1 ∧ width = 2) ∨ (symw = 2 ∧ width = 4)) :
    symbolWidth symw = some width := by
  rcases h with ⟨rfl, rfl⟩ | ⟨rfl, rfl⟩ | ⟨rfl, rfl⟩ <;> rfl

/-- HUF_DECODE past its checks is R195's loop from the first bit. -/
theorem huffmanRun_eq_loop {s : State} {b : Busy} {counts : List Nat} {symw : BitVec 2} {width : Nat}
    (hw : symbolWidth symw = some width)
    (hok : decoderRegionsOk s.params b.cmd.regs.viewSource b.cmd.regs.destination = true) (hc : countsHeld s 0 counts)
    (hg : tablesGood s.params.hufMaxsym b.cmd.regs.hufNsym.toNat 0 counts) (send : Bool) (m : Port) :
    huffmanRun send symw (s.env b) m = huffmanLoop (s.env b) send width b.cmd.regs.srcLen.toNat .initial m := by
  simp only [huffmanRun, hw, State.env_params, State.env_regs, hok, Bool.not_true, Bool.false_eq_true, if_false,
    checkTables_eq_ok hc hg m, Act.bind_ok]
  rfl

theorem length_le_length_digits (counts : List Nat) (codes : List CodeAt) :
    codes.length ≤ (codes.flatMap (CodeAt.digits counts)).length := by
  induction codes with
  | nil => exact le_rfl
  | cons x codes ih => simp only [List.flatMap_cons, List.length_append, List.length_cons, CodeAt.length_digits]; omega

/-- Settles O54: the loop makes one turn for each code, and no bit is left after the last. -/
theorem huffmanPrefixDecode : Obligations.HuffmanPrefixDecode := by
  unfold Obligations.HuffmanPrefixDecode
  intro s b f counts width codes syms hb hwidth hok hc hg hx hsyms hlen hbits hcap
  have hd : BitsAt (s.env b) f.send s.port HufWork.initial.pos (codes.flatMap (CodeAt.digits counts) ++ []) := by
    rw [List.append_nil]
    exact ⟨(Nat.zero_add _).trans_le hlen.le, hbits, (decoderRegionsOk_bounds hok).1⟩
  obtain ⟨n, hn⟩ := Nat.exists_eq_add_of_le (length_le_length_digits counts codes)
  obtain ⟨w, m, hloop, hp, hcount, -, hwr, hfr⟩ := huffmanLoop_codes (hc.countsRead b) hg.2.2.2.2 hok (hsyms.names hx b) [] n
    .initial s.port hd (by simpa [HufWork.initial] using hcap)
  simp only [HufWork.initial, Nat.zero_add, Nat.mul_zero, Nat.add_zero] at hp hcount hwr hfr
  rw [hlen] at hn hp
  have hrun : huffmanRun f.send f.symw (s.env b) s.port = huffmanDone w m := by
    rw [huffmanRun_eq_loop (symbolWidth_eq hwidth) hok hc hg, hn, hloop, huffmanLoop_done hp]
  have hexec : exec (.hufDecode f) s =
      .next (finishWith { code := .ok, len := some w.count, pos := some w.pos, endian := none, port := m } s) :=
    (runCommand_busy hb).trans (by rw [hrun]; rfl)
  refine ⟨_, hexec, ?_, hwr, hfr⟩
  simp [finishWith_eq_completion, Results.after, hp, hcount]

end Sys2Proof.Machine
end

section
/-! Blocks of a sparse stream that fit (R85 to R87, R164 to R166): a raw block copies its bytes, a sparse block sets the bits its
indices name; and the first byte VL_DECODE rejects (R92, R221). -/

namespace Sys2Proof.Machine

/-! ### The input bytes -/

theorem holdsBytes_append {mem : List Host.Cell} {base : Nat} {xs ys : List Byte} (h : holdsBytes mem base (xs ++ ys)) :
    holdsBytes mem base xs ∧ holdsBytes mem (base + xs.length) ys := by
  refine ⟨fun k hk => ?_, fun k hk => ?_⟩
  · rw [h k (by simp; omega), List.getElem?_append_left hk]
  · rw [Nat.add_assoc, h (xs.length + k) (by simpa using hk), List.getElem?_append_right (by omega), Nat.add_sub_cancel_left]

/-- The input of a stream decoder holds the bytes `bs` from the cursor `pos` on. -/
structure BytesAt (v : Env) (m : Port) (pos : Nat) (bs : List Byte) : Prop where
  inInput : pos + bs.length ≤ v.regs.srcLen.toNat
  held : holdsBytes m.mem (v.regs.srcAddr.toNat + pos) bs
  inMem : v.regs.srcAddr.toNat + v.regs.srcLen.toNat ≤ v.params.memBytes

theorem BytesAt.append {v : Env} {m : Port} {pos : Nat} {xs ys : List Byte} (h : BytesAt v m pos (xs ++ ys)) :
    BytesAt v m pos xs ∧ BytesAt v m (pos + xs.length) ys := by
  obtain ⟨hs, hh, hm⟩ := h
  rw [List.length_append] at hs
  obtain ⟨hx, hy⟩ := holdsBytes_append hh
  rw [Nat.add_assoc] at hy
  exact ⟨⟨by omega, hx, hm⟩, ⟨by omega, hy, hm⟩⟩

/-- The input stays as it is when only bytes of the destination region are written (R126). -/
theorem BytesAt.of_unchangedOutside {v : Env} {m m' : Port} {pos base size : Nat} {bs : List Byte} (h : BytesAt v m pos bs)
    (hok : decoderRegionsOk v.params v.regs.streamSource v.regs.destination = true)
    (hm : unchangedOutside m.mem m'.mem base size) (hbase : v.regs.dstAddr.toNat ≤ base)
    (hsize : base + size ≤ v.regs.dstAddr.toNat + v.regs.dstCap.toNat) : BytesAt v m' pos bs := by
  obtain ⟨hin, hh, hmem⟩ := h
  refine ⟨hin, fun k hk => ?_, hmem⟩
  rw [hm _ fun hmem => ?_, hh k hk]
  refine decoderRegionsOk_disjoint hok (a := v.regs.srcAddr.toNat + pos + k) ?_ ?_
  all_goals simp only [Regs.streamSource, Regs.destination]; omega

/-- `rd()` gives the first of the held bytes. -/
theorem BytesAt.readInput {v : Env} {m : Port} {pos : Nat} {x : Byte} {bs : List Byte} (h : BytesAt v m pos (x :: bs))
    (eos : ErrCode) : readInput v eos pos m = .ok x := by
  obtain ⟨hin, hh, hmem⟩ := h
  rw [List.length_cons] at hin
  exact readInput_eq_ok (by omega) (by omega) (by simpa using hh 0 (by simp))

theorem BytesAt.tail {v : Env} {m : Port} {pos : Nat} {x : Byte} {bs : List Byte} (h : BytesAt v m pos (x :: bs)) :
    BytesAt v m (pos + 1) bs := (BytesAt.append (xs := [x]) h).2

/-- Held bytes read as their little-endian value (R63, R87). -/
theorem BytesAt.readLittleEndian {v : Env} {m : Port} {pos : Nat} {bs : List Byte} (h : BytesAt v m pos bs) (eos : ErrCode) :
    readLittleEndian v eos bs.length pos m = .ok (leValue bs) := by
  induction bs generalizing pos with
  | nil => rfl
  | cons x bs ih =>
    rw [List.length_cons, Machine.readLittleEndian, h.readInput, Act.bind_ok, ih h.tail]
    rfl

/-! ### A raw block (R164) -/

/-- The copied bytes stand in the destination, and nothing else changes: the copy never writes a byte it has still to read. -/
theorem copyRaw_eq_ok {v : Env} (hok : decoderRegionsOk v.params v.regs.streamSource v.regs.destination = true) {bs : List Byte}
    {pos k : Nat} {m : Port} (hb : BytesAt v m pos bs) (hcap : k + bs.length ≤ v.regs.dstCap.toNat) :
    ∃ m', copyRaw v bs.length pos k m = .ok m' ∧ holdsBytes m'.mem (v.regs.dstAddr.toNat + k) bs ∧
      unchangedOutside m.mem m'.mem (v.regs.dstAddr.toNat + k) bs.length := by
  induction bs generalizing pos k m with
  | nil => exact ⟨m, rfl, fun j hj => absurd hj (Nat.not_lt_zero j), .refl _ _ _⟩
  | cons x bs ih =>
    rw [List.length_cons] at hcap
    have hdst := (decoderRegionsOk_bounds hok).2
    simp only [Regs.destination] at hdst
    have hw := memWrite_eq_ok m x (show v.regs.dstAddr.toNat + k < v.params.memBytes by omega)
    have hone : unchangedOutside m.mem (Cells.write m.mem (v.regs.dstAddr.toNat + k) x) (v.regs.dstAddr.toNat + k) 1 :=
      fun a ha => Cells.read_write_of_ne _ _ (by omega)
    obtain ⟨m', hm', hheld, hframe⟩ := ih (hb.tail.of_unchangedOutside hok (m' := ⟨_, _ :: m.log⟩) hone (by omega) (by omega))
      (show k + 1 + bs.length ≤ _ by omega)
    refine ⟨m', ?_, fun j hj => ?_, hone.trans hframe ?_ ?_⟩
    · rw [List.length_cons, copyRaw, hb.readInput, Act.bind_ok, hw, Act.bind_ok, hm']
    · cases j with
      | zero => rw [hframe _ (by omega), Nat.add_zero, Cells.read_write_self]; rfl
      | succ j => rw [← Nat.add_assoc, Nat.add_right_comm, Nat.add_assoc _ k]; exact hheld j (by simpa using hj)
    all_goals intro a ha; rw [List.length_cons]; omega

/-- The class of a raw header is its form's size (R85). -/
theorem rawForm.headerClass {i : Instr} {size : Nat} (h : rawForm i size) : headerClass i = some (.raw size) := by
  obtain ⟨x, rfl, h1, h2, rfl⟩ | ⟨x, rfl, h1, rfl⟩ | ⟨x, rfl, rfl⟩ := h
  · simp [Machine.headerClass, rawSize, h2]
  · simp [Machine.headerClass, rawSize, show ¬ x.toNat ≤ 32 by omega]
  · simp [Machine.headerClass, rawSize, show ¬ 128 + x.toNat ≤ 32 by omega]

/-- A header whose block comes back to the loop, as a step of the block loop (R163). -/
theorem exec_block_loop {s : State} {b : Busy} {w w' : ScWork} {i : Instr} {c : BlockClass} {m : Port} (hl : inBlockLoop s b w)
    (hi : headerClass i = some c) (h : sparseBlock (s.env b) c w s.port = .loop w' m) :
    exec i s = .next { s with mem := m.mem, phase := .busy { b with work := .sc w' } } := by
  obtain ⟨hb, hw, -, -⟩ := hl
  rw [exec_of_headerClass hi, runBlock_busy c hb hw, h]

/-- Settles O43: the block is inside the declared length, so the copy goes through. -/
theorem rawBlock_copies : Obligations.RawBlock := by
  unfold Obligations.RawBlock
  intro s b w i size bs hl hi hsize hlen hpos hheld
  subst hlen
  have ⟨_, _, hok, hcap⟩ := hl
  have hb : BytesAt (s.env b) s.port w.pos bs := ⟨hpos, hheld, (decoderRegionsOk_bounds hok).1⟩
  obtain ⟨m, hcopy, hdst, hframe⟩ := copyRaw_eq_ok hok hb (hsize.trans hcap)
  have hblock : sparseBlock (s.env b) (.raw bs.length) w s.port =
      .loop { w with pos := w.pos + bs.length, offset := w.offset + bs.length } m := by
    simp only [sparseBlock, Machine.rawBlock, if_neg (not_lt.mpr hsize), hcopy, Act.bind_ok, BlockNext.ofAct]
  exact ⟨_, exec_block_loop hl hi.headerClass hblock, rfl, hdst, hframe⟩

/-! ### A sparse block (R165, R166) -/

/-- `setbit` of a bit of a written buffer: that bit is set, and no byte outside the buffer changes or becomes unwritten. -/
theorem setBit_in_buffer {v : Env} {big : Bool} {i nb : Nat} {m : Port} (hi : i < 8 * nb)
    (hmem : v.regs.dstAddr.toNat + nb ≤ v.params.memBytes) (hw : writtenRange m.mem v.regs.dstAddr.toNat nb) :
    ∃ m', setBit v v.regs.dstAddr.toNat big i true m = .ok m' ∧ writtenRange m'.mem v.regs.dstAddr.toNat nb ∧
      (∀ j, viewBit m'.mem v.regs.dstAddr.toNat big j = if j = i then some true else viewBit m.mem v.regs.dstAddr.toNat big j) ∧
      unchangedOutside m.mem m'.mem v.regs.dstAddr.toNat nb := by
  obtain ⟨m', hset⟩ := setBit_eq_ok (v := v) (i := i) true (big := big) (m := m) (by omega) (hw _ (by omega))
  obtain ⟨hbits, hframe⟩ := setBit_read hset
  have hkept := setBit_within v v.regs.dstAddr.toNat big i true m (W := fun _ => True) (T := fun _ => True) (G := fun _ => True)
    trivial trivial
  rw [hset] at hkept
  exact ⟨m', hset, fun k hk => hkept.2.kept _ (hw k hk), hbits, fun a ha => hframe a (by omega)⟩

/-- R166's loop over indices that all name bits below L. -/
theorem setIndices_eq_ok {v : Env} (hok : decoderRegionsOk v.params v.regs.streamSource v.regs.destination = true) {k : Nat}
    {indices : List (List Byte)} {w : ScWork} {m : Port} (hcap : bytesNeeded w.length ≤ v.regs.dstCap.toNat)
    (hk : ∀ x ∈ indices, x.length = k) (hb : BytesAt v m w.pos indices.flatten)
    (hlt : ∀ x ∈ indices, 8 * w.offset + leValue x < w.length)
    (hw : writtenRange m.mem v.regs.dstAddr.toNat (bytesNeeded w.length)) :
    ∃ m', setIndices v k indices.length w m = .ok ({ w with pos := w.pos + k * indices.length }, m') ∧
      (∀ j, viewBit m'.mem v.regs.dstAddr.toNat w.endian j =
        if ∃ x ∈ indices, j = 8 * w.offset + leValue x then some true
        else viewBit m.mem v.regs.dstAddr.toNat w.endian j) ∧
      unchangedOutside m.mem m'.mem v.regs.dstAddr.toNat (bytesNeeded w.length) := by
  induction indices generalizing w m with
  | nil => exact ⟨m, rfl, fun j => by simp, .refl _ _ _⟩
  | cons x xs ih =>
    simp only [List.mem_cons, forall_eq_or_imp] at hk hlt
    obtain ⟨rfl, hk⟩ := hk
    obtain ⟨hltx, hlt⟩ := hlt
    have hdst := (decoderRegionsOk_bounds hok).2
    simp only [Regs.destination] at hdst
    have hin : 8 * w.offset + leValue x < 8 * bytesNeeded w.length := by unfold bytesNeeded; omega
    obtain ⟨hbx, hbxs⟩ := BytesAt.append (ys := xs.flatten) hb
    obtain ⟨m1, hset, hw1, hbit1, hframe1⟩ := setBit_in_buffer (big := w.endian) hin (by omega) hw
    obtain ⟨m', hrest, hbits, hframe⟩ := ih (w := { w with pos := w.pos + x.length }) hcap hk
      (hbxs.of_unchangedOutside hok hframe1 le_rfl (by omega)) hlt hw1
    refine ⟨m', ?_, fun j => ?_, hframe1.trans hframe (fun _ h => h) fun _ h => h⟩
    · rw [List.length_cons, setIndices, hbx.readLittleEndian, Act.bind_ok, if_neg (not_le.mpr hltx), hset, Act.bind_ok, hrest,
        Nat.mul_succ, Nat.add_comm (x.length * _), ← Nat.add_assoc]
    · rw [hbits, hbit1]
      simp only [List.mem_cons, exists_eq_or_imp]
      by_cases hj : j = 8 * w.offset + leValue x
      · rw [if_pos hj, ite_self, if_pos (.inl hj)]
      · simp only [hj, if_false, false_or]

/-- The class of a sparse header, and its count: in the header, or in the byte after it (R84, R165). -/
theorem sparseForm.headerClass {i : Instr} {count : List Byte} {k c : Nat} (h : sparseForm i count k c) :
    ∃ o, headerClass i = some (.sparse k o) ∧ ∀ (v : Env) (w : ScWork) (m : Port), BytesAt v m w.pos count →
      indexCount v o w m = .ok (c, { w with pos := w.pos + count.length }) := by
  have byte : ∀ (x : Byte) (v : Env) (w : ScWork) (m : Port), BytesAt v m w.pos [x] →
      indexCount v none w m = .ok (x.toNat, { w with pos := w.pos + 1 }) := fun x v w m hb => by
    rw [indexCount, hb.readInput, Act.bind_ok]
  obtain ⟨n, rfl, rfl, rfl, rfl⟩ | ⟨rfl, rfl, x, rfl, rfl⟩ | ⟨rfl, rfl, x, rfl, rfl⟩ | ⟨rfl, rfl, x, rfl, rfl⟩ := h
  · exact ⟨some n.toNat, rfl, fun v w m _ => rfl⟩
  all_goals exact ⟨none, rfl, byte x⟩

/-- Settles O45: the count is read, then its indices, each setting its bit. -/
theorem sparseBlock_sets : Obligations.SparseBlock := by
  unfold Obligations.SparseBlock
  intro s b w i count k c indices hl hi hc hk hpos hheld hlt hw
  subst hc
  have ⟨_, _, hok, hcap⟩ := hl
  have hflat : indices.flatten.length = k * indices.length := by
    rw [List.length_flatten, List.map_congr_left hk, List.map_const', List.sum_replicate, smul_eq_mul, Nat.mul_comm]
  have hb : BytesAt (s.env b) s.port w.pos (count ++ indices.flatten) :=
    ⟨by rw [List.length_append, hflat, ← Nat.add_assoc]; exact hpos, hheld, (decoderRegionsOk_bounds hok).1⟩
  obtain ⟨o, hclass, hcount⟩ := hi.headerClass
  obtain ⟨m, hset, hbits, hframe⟩ := setIndices_eq_ok hok (w := { w with pos := w.pos + count.length }) hcap hk hb.append.2 hlt hw
  have hblock : sparseBlock (s.env b) (.sparse k o) w s.port =
      .loop { w with pos := w.pos + count.length + k * indices.length, offset := w.offset + 2 ^ (8 * k - 3) } m := by
    simp only [sparseBlock, indexBlock, hcount _ w _ hb.append.1, hset, Act.bind_ok, BlockNext.ofAct, coverage]
  exact ⟨_, exec_block_loop hl hclass hblock, rfl, fun j _ => hbits j, hframe⟩

/-! ### The first byte of a variable-length sequence (R92, R221) -/

/-- Settles O50: the first byte is read and rejected, and the error leaves the destination unspecified. -/
theorem varlenBadHeader : Obligations.VarlenBadHeader := by
  unfold Obligations.VarlenBadHeader
  intro s b f first hb hok hlen hheld hbad
  have hat : BytesAt (s.env b) s.port 0 [first] := ⟨hlen, hheld, (decoderRegionsOk_bounds hok).1⟩
  have hfirst : varlenFirst (s.env b) s.port = .streamError .badHeader 1 s.port := by
    rw [varlenFirst, hat.readInput, Act.bind_ok]
    exact if_pos hbad
  have hrun : varlenRun f.dend (s.env b) s.port = Act.spoilOnError (s.env b) (.streamError .badHeader 1 s.port) := by
    simp only [varlenRun, State.env_params, State.env_regs, hok, Bool.not_true, Bool.false_eq_true, if_false, hfirst]
    rfl
  exact ⟨_, (runCommand_busy hb).trans (by rw [hrun]; rfl), rfl⟩

end Sys2Proof.Machine
end

section
/-! The launch checks of a command (R122 to R126): what they reject, that a rejection reads and changes nothing, and that a command
past them never ends with BAD_CMD or BAD_ARG. -/

namespace Sys2Proof.Machine

/-! ### The checks on regions (R125, R126) -/

theorem Region.inBounds_iff {p : Params} {r : Region} : r.inBounds p = true ↔ r.base + r.size ≤ p.memBytes := by
  simp [Region.inBounds]

/-- Regions overlap when some byte is in both; the later of the two bases is one (R126). -/
theorem Region.overlaps_iff {r q : Region} : r.overlaps q = true ↔ ∃ a, r.holds a = true ∧ q.holds a = true := by
  simp only [Region.overlaps, Region.holds_iff, Bool.and_eq_true, decide_eq_true_eq]
  constructor
  · rintro ⟨⟨⟨hr, hq⟩, hrq⟩, hqr⟩
    exact ⟨max r.base q.base, by omega, by omega⟩
  · rintro ⟨a, hr, hq⟩
    omega

theorem decoderRegionsOk_iff {p : Params} {src dst : Region} : decoderRegionsOk p src dst = true ↔
    src.inBounds p = true ∧ dst.inBounds p = true ∧ ∀ a, ¬ (src.holds a = true ∧ dst.holds a = true) := by
  rw [← not_exists, ← Region.overlaps_iff, decoderRegionsOk, Bool.and_eq_true, Bool.and_eq_true, Bool.not_eq_true',
    Bool.not_eq_true, and_assoc]

/-! ### Rejections -/

/-- A rejection completes with its code and changes nothing else (R124). -/
theorem complete_reject (code : ErrCode) (s : State) :
    complete (.reject code s.port) s = .next (completion code s.results s.mem s) := rfl

theorem runCommand_reject {op : BitVec 4} {f : CtrlBits} {run : Env → Port → Act Ending} {s : State} {b : Busy} {code : ErrCode}
    (hb : s.phase = .busy b) (h : run (s.env b) s.port = .reject code s.port) :
    runCommand op f run s = .next (completion code s.results s.mem s) := by
  rw [runCommand_busy hb, h, complete_reject]

theorem sparseRun_reject {v : Env} (h : ¬ decoderRegionsOk v.params v.regs.streamSource v.regs.destination = true) (m : Port) :
    sparseRun v m = .reject .badArg m := by
  simp [sparseRun, h]

theorem varlenRun_reject {v : Env} (dend : Bool)
    (h : ¬ decoderRegionsOk v.params v.regs.streamSource v.regs.destination = true) (m : Port) :
    varlenRun dend v m = .reject .badArg m := by
  simp [varlenRun, h]

/-- Whatever SYMW is: it is checked first, and gives the same code (R192). -/
theorem huffmanRun_reject {v : Env} (send : Bool) (symw : BitVec 2)
    (h : ¬ decoderRegionsOk v.params v.regs.viewSource v.regs.destination = true) (m : Port) :
    huffmanRun send symw v m = .reject .badArg m := by
  unfold huffmanRun
  cases symbolWidth symw <;> simp [h]

theorem popcountRun_reject {v : Env} (send : Bool)
    (h : ¬ (v.regs.viewSource.inBounds v.params = true ∧ popcountArgsOk v.regs = true)) (m : Port) :
    popcountRun send v m = .reject .badArg m := by
  by_cases hb : v.regs.viewSource.inBounds v.params = true
  · have ha : ¬ popcountArgsOk v.regs = true := fun ha => h ⟨hb, ha⟩
    simp [popcountRun, hb, ha]
  · simp [popcountRun, hb]

theorem bitrevRun_reject {v : Env}
    (h : ¬ (v.regs.viewSource.inBounds v.params = true ∧ bitrevArgsOk v.regs = true)) (m : Port) :
    bitrevRun v m = .reject .badArg m := by
  by_cases hb : v.regs.viewSource.inBounds v.params = true
  · have ha : ¬ bitrevArgsOk v.regs = true := fun ha => h ⟨hb, ha⟩
    simp [bitrevRun, hb, ha]
  · simp [bitrevRun, hb]

/-! ### The completions of the five commands, by name -/

section
variable {s : State} {b : Busy} (hb : s.phase = .busy b) (f : CtrlBits)
include hb

theorem exec_scDecode_busy : exec (.scDecode f) s = complete (sparseRun (s.env b) s.port) s := runCommand_busy hb

theorem exec_vlDecode_busy : exec (.vlDecode f) s = complete (varlenRun f.dend (s.env b) s.port) s := runCommand_busy hb

theorem exec_hufDecode_busy : exec (.hufDecode f) s = complete (huffmanRun f.send f.symw (s.env b) s.port) s :=
  runCommand_busy hb

theorem exec_popcount_busy : exec (.popcount f) s = complete (popcountRun f.send (s.env b) s.port) s := runCommand_busy hb

theorem exec_bitrev_busy : exec (.bitrev f) s = complete (bitrevRun (s.env b) s.port) s := runCommand_busy hb

end

/-- Settles O23: a reserved code is rejected before anything is read. -/
theorem reservedOps : Obligations.ReservedOps := by
  unfold Obligations.ReservedOps
  rintro s b i hb (⟨f, rfl⟩ | ⟨lo, f, rfl⟩ | ⟨lo, f, rfl⟩)
  all_goals
    obtain ⟨-, -, -, -, herr, -⟩ := Status.toWord_fields (completion .badCmd s.results s.mem s).status false
    exact ⟨runCommand_reject hb rfl, herr⟩

/-- Settles O24: a region out of bounds fails its command's check. -/
theorem regionBounds : Obligations.RegionBounds := by
  unfold Obligations.RegionBounds
  intro s b f hb
  refine ⟨fun h => ?_, fun h => ?_, fun h => ?_⟩
  · have hbad : ¬ decoderRegionsOk s.params b.cmd.regs.streamSource b.cmd.regs.destination = true := fun hok => by
      have hbounds := decoderRegionsOk_bounds hok
      simp only [Regs.streamSource, Regs.destination] at hbounds
      omega
    simp only [exec_scDecode_busy hb, exec_vlDecode_busy hb]
    rw [sparseRun_reject (v := s.env b) hbad, varlenRun_reject (v := s.env b) f.dend hbad]
    exact ⟨rfl, rfl⟩
  · rw [exec_hufDecode_busy hb, huffmanRun_reject, complete_reject]
    intro hok
    have hbounds := decoderRegionsOk_bounds hok
    simp only [State.env_params, State.env_regs, Regs.viewSource, Regs.destination] at hbounds
    omega
  · have hbad : ¬ b.cmd.regs.viewSource.inBounds s.params = true := by
      simp only [Region.inBounds_iff, Regs.viewSource]
      omega
    simp only [exec_popcount_busy hb, exec_bitrev_busy hb]
    rw [popcountRun_reject (v := s.env b) f.send fun hok => hbad hok.1,
      bitrevRun_reject (v := s.env b) fun hok => hbad hok.1]
    exact ⟨rfl, rfl⟩

/-! ### The codes a command raises -/

/-- Every error the action raises has one of the codes `cs`. -/
def Act.Raises {α : Type} (cs : List ErrCode) (x : Act α) : Prop :=
  x.Sat (fun _ => True) (fun e => e.code ∈ cs) fun _ => True

theorem Act.Sat.raises {α : Type} {cs : List ErrCode} {x : Act α} {Q : α → Prop} {R : Ending → Prop} {F : Fault → Prop}
    (h : x.Sat Q R F) (hR : ∀ e, R e → e.code ∈ cs) : x.Raises cs :=
  h.mono (fun _ _ => trivial) hR fun _ _ => trivial

section
variable {α β : Type} {cs : List ErrCode} {x : Act α} {k : α → Act β}

theorem Act.Raises.bind (hx : x.Raises cs) (hk : ∀ a, (k a).Raises cs) : (x.bind k).Raises cs :=
  Act.Sat.bind hx fun a _ => hk a

theorem Act.Raises.spoil (v : Env) (hx : x.Raises cs) : (Act.spoilOnError v x).Raises cs :=
  Act.Sat.spoil hx fun _ he => he

theorem memRead_raises (v : Env) (m : Port) (a : Nat) : (memRead v m a).Raises cs :=
  (memRead_sat (T := fun _ => True) (R := fun _ => False) v m a trivial).raises fun _ he => he.elim

theorem memWrite_raises (v : Env) (m : Port) (a : Nat) (b : Byte) : (memWrite v m a b).Raises cs :=
  (memWrite_sat (W := fun _ => True) (T := fun _ => True) (R := fun _ => False) v m a b trivial trivial).raises
    fun _ he => he.elim

theorem memWriteBytes_raises (v : Env) (bs : List Byte) (a : Nat) (m : Port) : (memWriteBytes v a bs m).Raises cs := by
  induction bs generalizing a m with
  | nil => exact trivial
  | cons b bs ih => exact (memWrite_raises v m a b).bind fun m' => ih (a + 1) m'

theorem setBit_raises (v : Env) (base : Nat) (big : Bool) (i : Nat) (b : Bool) (m : Port) :
    (setBit v base big i b m).Raises cs :=
  (memRead_raises v m _).bind fun _ => memWrite_raises v m _ _

theorem setBits_raises (v : Env) (base : Nat) (big : Bool) (bs : List Bool) (i : Nat) (m : Port) :
    (setBits v base big i bs m).Raises cs := by
  induction bs generalizing i m with
  | nil => exact trivial
  | cons b bs ih => exact (setBit_raises v base big i b m).bind fun m' => ih (i + 1) m'

theorem streamError_raises {code : ErrCode} (hc : code ∈ cs) (pos : Nat) (m : Port) :
    (Act.streamError code pos m : Act α).Raises cs := hc

theorem readInput_raises (v : Env) {eos : ErrCode} (he : eos ∈ cs) (pos : Nat) (m : Port) : (readInput v eos pos m).Raises cs := by
  unfold readInput
  split_ifs
  · exact streamError_raises he pos m
  · exact memRead_raises v m _

theorem readLittleEndian_raises (v : Env) {eos : ErrCode} (he : eos ∈ cs) (n pos : Nat) (m : Port) :
    (readLittleEndian v eos n pos m).Raises cs := by
  induction n generalizing pos with
  | zero => exact trivial
  | succ n ih => exact (readInput_raises v he pos m).bind fun _ => (ih (pos + 1)).bind fun _ => trivial

end

/-! ### SC_DECODE's codes (R260) -/

/-- The codes SC_DECODE raises past its checks. -/
def sparseCodes : List ErrCode := [.truncated, .badHeader, .badBlock, .capacity]

theorem sparseStart_raises (v : Env) (m : Port) : (sparseStart v m).Raises sparseCodes := by
  have header : (sparseHeader v m).Raises sparseCodes := by
    refine (readInput_raises v (by decide) 0 m).bind fun h => ?_
    split_ifs
    · exact streamError_raises (by decide) _ m
    · exact (readLittleEndian_raises v (by decide) _ 1 m).bind fun _ => trivial
  have zeroed : ∀ w, (sparseOpen v w m).Raises sparseCodes := fun w => by
    unfold sparseOpen
    split_ifs
    · exact streamError_raises (by decide) _ m
    · exact memWriteBytes_raises v _ _ m
  refine (header.bind fun w => ?_).spoil v
  exact (zeroed w).bind fun _ => trivial

theorem copyRaw_raises (v : Env) (n pos k : Nat) (m : Port) : (copyRaw v n pos k m).Raises sparseCodes := by
  induction n generalizing pos k m with
  | zero => exact trivial
  | succ n ih =>
    exact (readInput_raises v (by decide) pos m).bind fun b => (memWrite_raises v m _ b).bind fun m' => ih (pos + 1) (k + 1) m'

theorem rawBlock_raises (v : Env) (size : Nat) (w : ScWork) (m : Port) : (rawBlock v size w m).Raises sparseCodes := by
  unfold rawBlock
  split_ifs
  · exact streamError_raises (by decide) _ m
  · exact (copyRaw_raises v _ _ _ m).bind fun _ => trivial

theorem setIndices_raises (v : Env) (k n : Nat) (w : ScWork) (m : Port) : (setIndices v k n w m).Raises sparseCodes := by
  induction n generalizing w m with
  | zero => exact trivial
  | succ n ih =>
    refine (readLittleEndian_raises v (by decide) k w.pos m).bind fun i => ?_
    split_ifs
    · exact streamError_raises (by decide) _ m
    · exact (setBit_raises v _ _ _ _ m).bind fun m' => ih _ m'

theorem indexBlock_raises (v : Env) (k : Nat) (count : Option Nat) (w : ScWork) (m : Port) :
    (indexBlock v k count w m).Raises sparseCodes := by
  have counted : (indexCount v count w m).Raises sparseCodes := by
    cases count with
    | some c => exact trivial
    | none => exact (readInput_raises v (by decide) w.pos m).bind fun _ => trivial
  exact counted.bind fun cw => (setIndices_raises v k cw.1 cw.2 m).bind fun _ => trivial

theorem sparseDone_raises (v : Env) (w : ScWork) (m : Port) : (sparseDone v w m).Raises sparseCodes :=
  (setBits_raises v _ _ _ _ m).bind fun _ => trivial

/-- A turn of the block loop that comes back, or ends the command with one of the codes. -/
def BlockNext.Raises (cs : List ErrCode) : BlockNext → Prop
  | .loop _ _ => True
  | .ended x => x.Raises cs

theorem BlockNext.ofAct_raises {cs : List ErrCode} (v : Env) {x : Act (ScWork × Port)} (h : x.Raises cs) :
    (BlockNext.ofAct v x).Raises cs := by
  cases x with
  | ok r => exact trivial
  | raise e => exact h
  | fault f p => exact trivial

theorem sparseBlock_raises (v : Env) (c : BlockClass) (w : ScWork) (m : Port) : (sparseBlock v c w m).Raises sparseCodes := by
  cases c with
  | term => exact sparseDone_raises v w m
  | raw size => exact BlockNext.ofAct_raises v (rawBlock_raises v size w m)
  | sparse k count => exact BlockNext.ofAct_raises v (indexBlock_raises v k count w m)
  | reserved => exact BlockNext.ofAct_raises v (streamError_raises (by decide) w.pos m)

theorem sparseHead_raises {v : Env} {w : ScWork} {m : Port} {x : Act Ending} (h : sparseHead v w m = .ended x) :
    x.Raises sparseCodes := by
  unfold sparseHead at h
  split_ifs at h
  · cases h
    unfold sparseCovered
    split_ifs
    · exact sparseDone_raises v w m
    · exact (memRead_raises v m _).bind fun _ => sparseDone_raises v _ m
  · have hr := readInput_raises (cs := sparseCodes) v (eos := .truncated) (by decide) w.pos m
    cases hx : readInput v .truncated w.pos m with
    | ok b => rw [hx] at h; cases h
    | raise e => rw [hx] at h hr; cases h; exact hr
    | fault f p => rw [hx] at h; cases h; exact trivial

theorem sparseTurn_raises (v : Env) (w : ScWork) (m : Port) : (sparseTurn v w m).Raises sparseCodes := by
  unfold sparseTurn
  cases hh : sparseHead v w m with
  | header h => exact sparseBlock_raises v _ _ m
  | ended x => exact sparseHead_raises hh

theorem sparseLoop_raises (v : Env) (n : Nat) (w : ScWork) (m : Port) : (sparseLoop v n w m).Raises sparseCodes := by
  induction n generalizing w m with
  | zero =>
    unfold sparseLoop
    cases hh : sparseHead v w m with
    | header h => exact (streamError_raises (by decide) w.pos m).spoil v
    | ended x => exact sparseHead_raises hh
  | succ n ih =>
    have ht := sparseTurn_raises v w m
    unfold sparseLoop
    cases hx : sparseTurn v w m with
    | loop w' m' => exact ih w' m'
    | ended x => rw [hx] at ht; exact ht

theorem sparseRun_raises {v : Env} (hok : decoderRegionsOk v.params v.regs.streamSource v.regs.destination = true) (m : Port) :
    (sparseRun v m).Raises sparseCodes := by
  simp only [sparseRun, hok, Bool.not_true, Bool.false_eq_true, if_false]
  exact (sparseStart_raises v m).bind fun r => sparseLoop_raises v _ r.1 r.2

/-! ### VL_DECODE's codes (R260) -/

/-- The codes VL_DECODE raises past its checks. -/
def varlenCodes : List ErrCode := [.underflow, .badHeader, .capacity]

theorem varlenCapacity_raises (v : Env) (w : VlWork) (m : Port) : (varlenCapacity v w m).Raises varlenCodes := by
  unfold varlenCapacity
  split_ifs
  · exact streamError_raises (by decide) _ m
  · exact trivial

theorem varlenFirst_raises (v : Env) (m : Port) : (varlenFirst v m).Raises varlenCodes := by
  refine (readInput_raises v (by decide) 0 m).bind fun b => ?_
  dsimp only
  split_ifs
  · exact streamError_raises (by decide) _ m
  · exact varlenCapacity_raises v _ m

theorem varlenLoop_raises (v : Env) (n : Nat) (w : VlWork) (m : Port) : (varlenLoop v n w m).Raises varlenCodes := by
  induction n generalizing w with
  | zero =>
    unfold varlenLoop
    split_ifs
    · exact streamError_raises (by decide) _ m
    · exact trivial
  | succ n ih =>
    unfold varlenLoop
    split_ifs
    · have next : (varlenNext v w m).Raises varlenCodes :=
        (readInput_raises v (by decide) w.pos m).bind fun _ => varlenCapacity_raises v _ m
      exact next.bind ih
    · exact trivial

theorem varlenOutput_raises (v : Env) (dend : Bool) (w : VlWork) (m : Port) : (varlenOutput v dend w m).Raises varlenCodes :=
  (memWriteBytes_raises v _ _ m).bind fun m1 => (setBits_raises v _ dend _ 0 m1).bind fun _ => trivial

theorem varlenRun_raises {v : Env} (dend : Bool)
    (hok : decoderRegionsOk v.params v.regs.streamSource v.regs.destination = true) (m : Port) :
    (varlenRun dend v m).Raises varlenCodes := by
  simp only [varlenRun, hok, Bool.not_true, Bool.false_eq_true, if_false]
  refine ((varlenFirst_raises v m).spoil v).bind fun w => ?_
  exact ((varlenLoop_raises v _ w m).spoil v).bind fun w' => varlenOutput_raises v dend w' m

/-! ### The codes a command ends with -/

/-- However the command ends, its code is one of `cs`. -/
def Act.EndsWith (cs : List ErrCode) (x : Act Ending) : Prop :=
  x.Sat (fun e => e.code ∈ cs) (fun e => e.code ∈ cs) fun _ => True

theorem Act.Raises.endsWith {cs : List ErrCode} {x : Act Ending} {Q : Ending → Prop} {R : Ending → Prop} {F : Fault → Prop}
    (h : x.Raises cs) (hx : x.Sat Q R F) (hQ : ∀ e, Q e → e.code = .ok) : x.EndsWith (.ok :: cs) := by
  cases x with
  | ok e => exact hQ e hx ▸ List.mem_cons_self
  | raise e => exact List.mem_cons_of_mem _ h
  | fault f p => exact trivial

theorem complete_err {cs : List ErrCode} {x : Act Ending} {s t : State} (hx : x.EndsWith cs) (h : complete x s = .next t) :
    t.status.err ∈ cs := by
  obtain ⟨e, he, rfl⟩ := complete_next hx h
  exact he

section
variable {v : Env} (m : Port)

theorem sparseRun_endsWith (hok : decoderRegionsOk v.params v.regs.streamSource v.regs.destination = true) :
    (sparseRun v m).EndsWith (.ok :: sparseCodes) :=
  (sparseRun_raises hok m).endsWith (sparseRun_sat v m hok) fun _ he => he.1

theorem varlenRun_endsWith (dend : Bool) (hok : decoderRegionsOk v.params v.regs.streamSource v.regs.destination = true) :
    (varlenRun dend v m).EndsWith (.ok :: varlenCodes) :=
  (varlenRun_raises dend hok m).endsWith (varlenRun_sat dend v m hok) fun _ he => he.1

theorem huffmanRun_endsWith (send : Bool) {symw : BitVec 2} {width : Nat} (hw : symbolWidth symw = some width)
    (hok : decoderRegionsOk v.params v.regs.viewSource v.regs.destination = true) :
    (huffmanRun send symw v m).EndsWith [.ok, .underflow, .badTable, .badCode, .capacity] := by
  refine (huffmanRun_sat send symw v m hw hok).mono (fun e he => ?_) (fun e he => ?_) fun _ _ => trivial
  · simp [he.1]
  · rcases he with rfl | ⟨hcode | hcode | hcode, -⟩
    · simp
    all_goals simp [hcode]

theorem popcountRun_endsWith (send : Bool) (hb : v.regs.viewSource.inBounds v.params = true)
    (ha : popcountArgsOk v.regs = true) : (popcountRun send v m).EndsWith [.ok] :=
  (popcountRun_sat (R := fun _ => False) send v m hb ha).mono (fun _ he => by simp [he.1]) (fun _ he => he.elim)
    fun _ _ => trivial

theorem bitrevRun_endsWith (hb : v.regs.viewSource.inBounds v.params = true) (ha : bitrevArgsOk v.regs = true) :
    (bitrevRun v m).EndsWith [.ok] :=
  (bitrevRun_sat (R := fun _ => False) v m hb ha).mono (fun _ he => by simp [he.1.1]) (fun _ he => he.elim)
    fun _ _ => trivial

end

theorem symbolWidth_isSome {symw : BitVec 2} (h : symw ≠ 3) : ∃ width, symbolWidth symw = some width := by
  rw [← Option.isSome_iff_exists]
  revert symw
  decide

/-- Settles O25: overlap fails the check, and past it no code of the decoders is BAD_ARG. -/
theorem overlap : Obligations.Overlap := by
  unfold Obligations.Overlap
  intro s b f hb
  simp only [exec_scDecode_busy hb, exec_vlDecode_busy hb, exec_hufDecode_busy hb]
  refine ⟨fun h => ?_, fun h => ?_, fun hdst hsrc hnone t ht herr => ?_, fun hdst hsrc hnone hw t ht herr => ?_⟩
  · have hbad : ¬ decoderRegionsOk s.params b.cmd.regs.streamSource b.cmd.regs.destination = true := fun hok =>
      not_exists.mpr (decoderRegionsOk_iff.mp hok).2.2 h
    rw [sparseRun_reject (v := s.env b) hbad, varlenRun_reject (v := s.env b) f.dend hbad]
    exact ⟨rfl, rfl⟩
  · rw [huffmanRun_reject f.send f.symw fun hok => not_exists.mpr (decoderRegionsOk_iff.mp hok).2.2 h, complete_reject]
  · have hok := decoderRegionsOk_iff.mpr ⟨hsrc, hdst, hnone⟩
    rcases ht with ht | ht
    · exact absurd (herr ▸ complete_err (sparseRun_endsWith (v := s.env b) s.port hok) ht) (by decide)
    · exact absurd (herr ▸ complete_err (varlenRun_endsWith (v := s.env b) s.port f.dend hok) ht) (by decide)
  · obtain ⟨width, hwidth⟩ := symbolWidth_isSome hw
    have hok := decoderRegionsOk_iff.mpr ⟨hsrc, hdst, hnone⟩
    exact absurd (herr ▸ complete_err (huffmanRun_endsWith (v := s.env b) s.port f.send hwidth hok) ht) (by decide)

/-! ### A rejection depends on no MEM byte (R124) -/

/-- Before any MEM byte is read R121's function rejects the command, or it never ends with BAD_CMD or BAD_ARG. -/
theorem latchedRun_rejects_or_endsWith (c : Latched) (v : Env) :
    (∃ code, ∀ m, latchedRun c v m = .reject code m) ∨
      ∃ cs, ErrCode.badCmd ∉ cs ∧ ErrCode.badArg ∉ cs ∧ ∀ m, (latchedRun c v m).EndsWith cs := by
  obtain ⟨op, send, dend, symw, regs⟩ := c
  rcases latched_op_cases op with rfl | rfl | rfl | rfl | rfl | hop
  · by_cases hok : decoderRegionsOk v.params v.regs.streamSource v.regs.destination = true
    · exact .inr ⟨_, by decide, by decide, fun m => sparseRun_endsWith m hok⟩
    · exact .inl ⟨.badArg, sparseRun_reject hok⟩
  · by_cases hok : decoderRegionsOk v.params v.regs.streamSource v.regs.destination = true
    · exact .inr ⟨_, by decide, by decide, fun m => varlenRun_endsWith m dend hok⟩
    · exact .inl ⟨.badArg, varlenRun_reject dend hok⟩
  · by_cases hok : decoderRegionsOk v.params v.regs.viewSource v.regs.destination = true
    · cases hw : symbolWidth symw with
      | some width => exact .inr ⟨_, by decide, by decide, fun m => huffmanRun_endsWith m send hw hok⟩
      | none => exact .inl ⟨.badArg, fun m => show huffmanRun send symw v m = _ by rw [huffmanRun, hw]⟩
    · exact .inl ⟨.badArg, huffmanRun_reject send symw hok⟩
  · by_cases hok : v.regs.viewSource.inBounds v.params = true ∧ popcountArgsOk v.regs = true
    · exact .inr ⟨_, by decide, by decide, fun m => popcountRun_endsWith m send hok.1 hok.2⟩
    · exact .inl ⟨.badArg, popcountRun_reject send hok⟩
  · by_cases hok : v.regs.viewSource.inBounds v.params = true ∧ bitrevArgsOk v.regs = true
    · exact .inr ⟨_, by decide, by decide, fun m => bitrevRun_endsWith m hok.1 hok.2⟩
    · exact .inl ⟨.badArg, bitrevRun_reject hok⟩
  · exact .inl ⟨.badCmd, fun m => by rw [latchedRun_reserved hop]; rfl⟩

/-- Settles O27: with BAD_CMD or BAD_ARG R121's function has rejected the command, whatever MEM holds. -/
theorem rejectedCommands : Obligations.RejectedCommands := by
  unfold Obligations.RejectedCommands
  intro i s t b hf hn hb ht herr
  obtain ⟨c, f, -, hexec⟩ := exec_eq_runCommand hf hn b.cmd.regs
  rw [hexec] at ht
  obtain ⟨code, hreject⟩ | ⟨cs, hcmd, harg, hends⟩ := latchedRun_rejects_or_endsWith c (s.env b)
  · rw [runCommand_reject hb (hreject s.port)] at ht
    cases ht
    refine ⟨rfl, fun mem => ?_⟩
    rw [hexec, runCommand_reject (s := { s with mem := mem }) hb (hreject _)]
    rfl
  · rw [runCommand_busy hb] at ht
    have hmem := complete_err (hends s.port) ht
    rcases herr with herr | herr <;> rw [herr] at hmem
    · exact absurd hmem hcmd
    · exact absurd hmem harg

end Sys2Proof.Machine
end

section
/-! What a finished SC_DECODE or VL_DECODE leaves in the result registers and in MEM (R128, R129). -/

namespace Sys2Proof.Machine

/-- RES_INFO of a finished VL_DECODE is its output endianness (R224). -/
theorem varlenRun_endian {dend : Bool} {v : Env} {m : Port} {e : Ending} (h : varlenRun dend v m = .ok e) :
    e.endian = some dend := by
  unfold varlenRun at h
  split_ifs at h
  · cases h
  · obtain ⟨w, -, hfrom⟩ := Act.bind_eq_ok.mp h
    obtain ⟨w', -, hout⟩ := Act.bind_eq_ok.mp hfrom
    obtain ⟨m1, -, hout⟩ := Act.bind_eq_ok.mp hout
    obtain ⟨m2, -, hout⟩ := Act.bind_eq_ok.mp hout
    cases hout
    rfl

theorem DecodeErr.code_ne_ok {v : Env} {m : Port} {e : Ending} (h : DecodeErr v m e) : e.code ≠ .ok := by
  obtain ⟨⟨-, -, hcode, -⟩, -⟩ := h
  exact hcode

/-- SC_DECODE, its checks included: an error is never OK. -/
theorem sparseRun_decodes (v : Env) (m : Port) :
    (sparseRun v m).Sat (DecodeEnd v m) (fun e => e.code ≠ .ok) fun _ => True := by
  by_cases hok : decoderRegionsOk v.params v.regs.streamSource v.regs.destination = true
  · exact (sparseRun_sat v m hok).mono (fun _ he => he) (fun _ he => he.code_ne_ok) fun _ _ => trivial
  · rw [sparseRun_reject hok]
    exact show ErrCode.badArg ≠ .ok by decide

/-- VL_DECODE, its checks included: an error is never OK. -/
theorem varlenRun_decodes (dend : Bool) (v : Env) (m : Port) :
    (varlenRun dend v m).Sat (DecodeEnd v m) (fun e => e.code ≠ .ok) fun _ => True := by
  by_cases hok : decoderRegionsOk v.params v.regs.streamSource v.regs.destination = true
  · exact (varlenRun_sat dend v m hok).mono (fun _ he => he) (fun _ he => he.code_ne_ok) fun _ _ => trivial
  · rw [varlenRun_reject dend hok]
    exact show ErrCode.badArg ≠ .ok by decide

/-- A completion with OK is the good ending of its action. -/
theorem complete_ok {x : Act Ending} {s t : State} {Q : Ending → Prop} {F : Fault → Prop}
    (hx : x.Sat Q (fun e => e.code ≠ .ok) F) (h : complete x s = .next t) (ht : t.status.err = .ok) :
    ∃ e, x = .ok e ∧ Q e ∧ t = finishWith e s := by
  cases x with
  | ok e => cases h; exact ⟨e, rfl, hx, rfl⟩
  | raise e => cases h; exact absurd ht hx
  | fault f p => cases h

/-- What a good ending of a stream decode leaves in the state (R129). -/
theorem DecodeEnd.leaves {s : State} {b : Busy} {e : Ending} (h : DecodeEnd (s.env b) s.port e) {t : State}
    (ht : t = finishWith e s) :
    t = completion .ok t.results t.mem s ∧ t.results.pos.toNat ≤ b.cmd.regs.srcLen.toNat ∧
      bytesNeeded t.results.len.toNat ≤ b.cmd.regs.dstCap.toNat ∧
      unchangedOutside s.mem t.mem b.cmd.regs.dstAddr.toNat (bytesNeeded t.results.len.toNat) ∧
      ∀ j, t.results.len.toNat ≤ j → j < 8 * bytesNeeded t.results.len.toNat →
        viewBit t.mem b.cmd.regs.dstAddr.toNat t.results.endian j = some false := by
  obtain ⟨hcode, n, big, hlen, hn, hbig, ⟨p, hpos, hp⟩, hcap, hwrote, hpad⟩ := h
  have hN : t.results.len.toNat = n := by
    simp only [ht, finishWith_results, Results.after, hlen, Option.map_some, Option.getD_some, BitVec.toNat_ofNat]
    omega
  have hP : t.results.pos.toNat = p := by
    have := b.cmd.regs.srcLen.isLt
    simp only [State.env_regs] at hp
    simp only [ht, finishWith_results, Results.after, hpos, Option.map_some, Option.getD_some, BitVec.toNat_ofNat]
    omega
  have hE : t.results.endian = big := by simp [ht, Results.after, hbig]
  rw [hN, hP, hE]
  subst ht
  exact ⟨by rw [← hcode]; rfl, hp, hcap, hwrote.frame, hpad⟩

/-- Settles O35: OK is a good ending of the decode. -/
theorem decoderSuccess : Obligations.DecoderSuccess := by
  unfold Obligations.DecoderSuccess
  intro s t b f hb ht hok
  simp only [exec_scDecode_busy hb, exec_vlDecode_busy hb] at ht ⊢
  have varlen := fun h => complete_ok (s := s) (varlenRun_decodes f.dend (s.env b) s.port) h hok
  obtain ⟨e, hdecode, hfinish⟩ : ∃ e, DecodeEnd (s.env b) s.port e ∧ t = finishWith e s := by
    rcases ht with ht | ht
    · obtain ⟨e, -, he⟩ := complete_ok (sparseRun_decodes (s.env b) s.port) ht hok
      exact ⟨e, he⟩
    · obtain ⟨e, -, he⟩ := varlen ht
      exact ⟨e, he⟩
  obtain ⟨hcompletion, hpos, hcap, hframe, hpad⟩ := hdecode.leaves hfinish
  refine ⟨hcompletion, hpos, hcap, hframe, fun hvl => ?_, hpad⟩
  obtain ⟨e', hrun, -, rfl⟩ := varlen hvl
  simp [Results.after, varlenRun_endian hrun]

end Sys2Proof.Machine
end

section
/-! The engine uses only MEM addresses that exist (R125): a command's accesses lie in regions that passed its launch checks, and the
invariant keeps that true of working state inside a command. -/

namespace Sys2Proof.Machine

theorem FaultFrom.ne_noSuchAddress {v : Env} {T : Nat → Prop} {m : Port} {f : Fault} (h : FaultFrom v T m f)
    (hT : ∀ a, T a → a < v.params.memBytes) (a : Nat) : f ≠ .noSuchAddress a := by
  rcases h with ⟨x, rfl, -⟩ | ⟨l, rfl, -⟩ | ⟨j, rfl, -⟩ | ⟨x, -, hx, hge⟩
  · exact nofun
  · exact nofun
  · exact nofun
  · exact absurd (hT x hx) (not_lt.mpr hge)

/-- An action that touches only existing bytes completes without using another. -/
theorem complete_staysInMem {x : Act Ending} {v : Env} {T : Nat → Prop} {m : Port} {Q R : Ending → Prop}
    (hx : x.Sat Q R (FaultFrom v T m)) (hT : ∀ a, T a → a < v.params.memBytes) (s : State) (a : Nat) :
    complete x s ≠ .fault (.noSuchAddress a) := fun h => by
  obtain ⟨p, rfl⟩ := complete_eq_fault h
  exact FaultFrom.ne_noSuchAddress hx hT a rfl

theorem decoderTouches_lt {v : Env} (hok : decoderRegionsOk v.params v.regs.streamSource v.regs.destination = true) (a : Nat)
    (h : decoderTouches v a) : a < v.params.memBytes := by
  obtain ⟨hsrc, hdst⟩ := decoderRegionsOk_bounds hok
  simp only [decoderTouches, inSource, Region.holds_iff] at h
  omega

theorem huffmanTouches_lt {v : Env} (hok : decoderRegionsOk v.params v.regs.viewSource v.regs.destination = true) (a : Nat)
    (h : huffmanTouches v a) : a < v.params.memBytes := by
  obtain ⟨hsrc, hdst⟩ := decoderRegionsOk_bounds hok
  simp only [huffmanTouches, inView, Region.holds_iff] at h
  omega

theorem inView_lt {v : Env} (hb : v.regs.viewSource.inBounds v.params = true) (a : Nat) (h : inView v a) :
    a < v.params.memBytes := by
  rw [Region.inBounds_iff] at hb
  simp only [inView, Region.holds_iff] at h
  omega

theorem inRange_lt {v : Env} (hb : v.regs.viewSource.inBounds v.params = true) (ha : bitrevArgsOk v.regs = true) (a : Nat)
    (h : inRange v a) : a < v.params.memBytes := by
  simp only [bitrevArgsOk, Bool.and_eq_true, decide_eq_true_eq] at ha
  simp only [Region.inBounds_iff, Regs.viewSource] at hb
  simp only [inRange, Region.holds_iff, Regs.bitrevRange] at h
  omega

/-- A register write never faults. -/
theorem writeReg_ne_fault (s : State) (w : Word) (r : RegName) (f : Fault) : writeReg s w r ≠ .fault f := by
  have idle : ∀ u : State, whenIdle s u ≠ .fault f := fun u h => by
    unfold whenIdle at h
    split at h <;> cases h
  cases r with
  | ctrl =>
    cases hp : s.phase with
    | idle =>
      simp only [writeReg, hp]
      cases hw : w.getLsbD 31 with
      | true => rw [exec_start hp hw]; exact nofun
      | false => rw [decodeWord_store hw, exec_ctrlStore_idle hp]; exact nofun
    | busy b => simp [writeReg, hp]
  | srcAddr | srcLen | dstAddr | dstCap | arg0 | arg1 | arg2 | hufNsym | hcount | hsym => exact idle _
  | status | id | resLen | resPos | resInfo | param0 | param1 | reserved => exact nofun

/-- The host's own faults: a race, or a reset while BUSY (R70d, R291). -/
theorem hostStep_fault {op : HostOp} {s : State} {f : Fault} (h : hostStep op s = .fault f) :
    (∃ a, f = .hostRace a) ∨ f = .resetDuringBusy := by
  have busy : ∀ u : State, unlessBusy s u = .fault f → f = .resetDuringBusy := fun u hu => by
    unfold unlessBusy at hu
    split at hu <;> cases hu
    rfl
  cases op with
  | regWrite o w => exact absurd h (writeReg_ne_fault s w _ f)
  | regRead o => cases h
  | memWrite a x =>
    simp only [hostStep, hostMemWrite] at h
    split_ifs at h
    split at h
    · cases h
    · split_ifs at h
      cases h
      exact .inl ⟨a, rfl⟩
  | memRead a => cases h
  | wait => cases h
  | reset => exact .inr (busy _ h)
  | powerOn => exact .inr (busy _ h)

/-- A step in the block loop touches the source and the decoded buffer, which lies in the destination region (R162). -/
theorem blockStep_staysInMem {b : Busy} {s : State} {w : ScWork}
    (hok : decoderRegionsOk s.params b.cmd.regs.streamSource b.cmd.regs.destination = true)
    (hpos : w.pos ≤ b.cmd.regs.srcLen.toNat) (hcap : bytesNeeded w.length ≤ b.cmd.regs.dstCap.toNat) (a : Nat) :
    blockStep b w s ≠ .fault (.noSuchAddress a) := by
  have hturn := sparseTurn_sat (T := decoderTouches (s.env b)) (s.env b) w s.port (fun _ h => .inl h) hpos
    fun _ h => .inr (destination_of_lt hcap h.1 h.2)
  rw [blockStep_eq]
  cases hx : sparseTurn (s.env b) w s.port with
  | loop w' m => exact nofun
  | ended x =>
    rw [hx] at hturn
    exact complete_staysInMem hturn (decoderTouches_lt hok) s a

/-- Fresh or from inside a command, the engine's turn touches only the regions that passed the launch checks. -/
theorem engineStep_staysInMem {b : Busy} {s : State} (h : s.Inv) (hb : s.phase = .busy b) (a : Nat) :
    engineStep b s ≠ .fault (.noSuchAddress a) := by
  have hwork := h.work
  simp only [workAgrees, hb] at hwork
  obtain ⟨-, he⟩ | ⟨w, hw, he⟩ | ⟨w, hw, he⟩ | ⟨w, hw, he⟩ | ⟨w, hw, he⟩ | ⟨w, hw, he⟩ :=
    engineStep_cases b s hb <;> rw [he]
  · exact complete_staysInMem (latchedRun_within b.cmd (s.env b) s.port rfl) (inUse_lt (s.env b) b.cmd rfl) s a
  all_goals simp only [hw] at hwork
  · obtain ⟨hop, hpass, hpos, -, hcap⟩ := hwork
    exact blockStep_staysInMem (by simpa [passesLaunchChecks, hop] using hpass) hpos hcap a
  · obtain ⟨hop, hpass, hpos, hlen, hcap⟩ := hwork
    have hok : decoderRegionsOk s.params b.cmd.regs.streamSource b.cmd.regs.destination = true := by
      simpa [passesLaunchChecks, hop] using hpass
    exact complete_staysInMem (varlenFrom_sat (s.env b) b.cmd.dend w s.port ⟨hcap, hlen, hpos⟩) (decoderTouches_lt hok) s a
  · obtain ⟨hop, hpass, hpos, hstart⟩ := hwork
    have hok : (symbolWidth b.cmd.symw).isSome = true ∧
        decoderRegionsOk s.params b.cmd.regs.viewSource b.cmd.regs.destination = true := by
      simpa [passesLaunchChecks, hop] using hpass
    exact complete_staysInMem (huffmanFrom_sat (s.env b) b.cmd.send _ w s.port hpos hstart) (huffmanTouches_lt hok.2) s a
  · obtain ⟨hop, hpass⟩ := hwork
    have hok : b.cmd.regs.viewSource.inBounds s.params = true ∧ popcountArgsOk b.cmd.regs = true := by
      simpa [passesLaunchChecks, hop] using hpass
    have hstop := hok.2
    simp only [popcountArgsOk, Bool.and_eq_true, decide_eq_true_eq] at hstop
    exact complete_staysInMem (popcountFrom_within (W := fun _ => True) (G := fun _ => True) (s.env b) b.cmd.send w s.port
      fun i hi => inView_of_lt (hi.trans_le hstop.2)) (inView_lt hok.1) s a
  · obtain ⟨hop, hpass, hnext⟩ := hwork
    have hok : b.cmd.regs.viewSource.inBounds s.params = true ∧ bitrevArgsOk b.cmd.regs = true := by
      simpa [passesLaunchChecks, hop] using hpass
    exact complete_staysInMem (bitrevFrom_within (W := fun _ => True) (G := fun _ => True) (s.env b) w s.port
      (fun _ _ _ => trivial) fun j h1 h2 => inRange_of_lt (hnext.trans h1) h2) (inRange_lt hok.1 hok.2) s a

/-- Settles O28: no command faults so, and of a step's three kinds only the engine's turn uses MEM addresses unchecked. -/
theorem engineStaysInMem : Obligations.EngineStaysInMem := by
  unfold Obligations.EngineStaysInMem
  refine ⟨fun i s a hf h => ?_, fun s a hinv h => ?_⟩
  · rcases commandFaults i s _ hf h with ⟨x, hx, -⟩ | ⟨l, hl, -⟩ | ⟨j, hj, -⟩
    · cases hx
    · cases hl
    · cases hj
  · obtain ⟨-, -, hs⟩ | ⟨op, rest, -, hs⟩ | ⟨b, hb, hs⟩ := step_cases s <;> rw [hs] at h
    · cases h
    · obtain ⟨x, hx⟩ | hx := hostStep_fault h <;> cases hx
    · exact engineStep_staysInMem hinv hb a h

end Sys2Proof.Machine
end

section
/-! The bit primitives (spec/41_bit_primitives.md R140 to R149): the argument checks, POPCOUNT's count, and what BITREV leaves in
its range. -/

namespace Sys2Proof.Machine

/-! ### The argument checks (R141, R146, R192) -/

theorem popcountArgsOk_iff {r : Regs} : popcountArgsOk r = true ↔
    r.arg2 ≠ 0 ∧ r.arg0.toNat ≤ r.arg1.toNat ∧ r.arg1.toNat ≤ r.srcLen.toNat := by
  have hstep : r.arg2.toNat ≠ 0 ↔ r.arg2 ≠ 0 := not_congr (BitVec.toNat_eq (y := 0)).symm
  rw [popcountArgsOk, Bool.and_eq_true, Bool.and_eq_true, decide_eq_true_iff, decide_eq_true_iff, decide_eq_true_iff, hstep,
    and_assoc]

theorem bitrevArgsOk_iff {r : Regs} : bitrevArgsOk r = true ↔
    r.arg0.toNat ≤ r.arg1.toNat ∧ r.arg1.toNat ≤ bytesNeeded r.srcLen.toNat := by
  simp only [bitrevArgsOk, Bool.and_eq_true, decide_eq_true_eq]

/-- SYMW = 3 names no width, and is checked before the regions (R192). -/
theorem huffmanRun_reservedWidth (send : Bool) (v : Env) (m : Port) : huffmanRun send 3 v m = .reject .badArg m := rfl

/-- Settles O26: each argument fails its command's check. -/
theorem argumentChecks : Obligations.ArgumentChecks := by
  unfold Obligations.ArgumentChecks
  intro s b f hb
  refine ⟨fun h => runCommand_reject hb (popcountRun_reject f.send (fun hok => ?_) s.port),
    fun h => runCommand_reject hb (bitrevRun_reject (fun hok => ?_) s.port),
    fun h => runCommand_reject hb (by rw [h, huffmanRun_reservedWidth])⟩
  · obtain ⟨hstep, hstart, hstop⟩ := (popcountArgsOk_iff (r := b.cmd.regs)).mp hok.2
    rcases h with h | h | h
    · exact hstep h
    · omega
    · omega
  · obtain ⟨hstart, hstop⟩ := (bitrevArgsOk_iff (r := b.cmd.regs)).mp hok.2
    omega

/-! ### POPCOUNT (R140, R142) -/

/-- Past its checks POPCOUNT is R140's loop from p = start, count = 0. -/
theorem popcountRun_passed {v : Env} (send : Bool) (hb : v.regs.viewSource.inBounds v.params = true)
    (ha : popcountArgsOk v.regs = true) (m : Port) :
    popcountRun send v m = popcountFrom v send { next := v.regs.arg0.toNat, count := 0 } m := by
  simp [popcountRun, hb, ha]

/-- A view's byte exists when the view is in bounds (R125). -/
theorem viewByte_lt {p : Params} {r : Regs} (hb : r.viewSource.inBounds p = true) {i : Nat} (hi : i < r.srcLen.toNat) :
    r.srcAddr.toNat + i / 8 < p.memBytes := by
  have hbyte := view_byte_lt hi
  simp only [Region.inBounds_iff, Regs.viewSource] at hb
  omega

/-- A bit whose byte is written reads as whether it is 1. -/
theorem viewBit_eq_some_decide {mem : List Host.Cell} {base i : Nat} (big : Bool)
    (h : (Cells.read mem (base + i / 8)).isSome = true) :
    viewBit mem base big i = some (decide (viewBit mem base big i = some true)) := by
  obtain ⟨x, hx⟩ := Option.isSome_iff_exists.mp h
  simp [viewBit_eq, hx]

/-- Settles O32: the loop's sum, which fits RES_LEN since there are fewer positions than stop. -/
theorem popcountResult : Obligations.PopcountResult := by
  unfold Obligations.PopcountResult
  intro s b f hb hin hstep hstart hstop hwritten
  have hloop := popcountLoop_eq_ok (s.env b) f.send
    (fun i => decide (viewBit s.mem b.cmd.regs.srcAddr.toNat f.send i = some true))
    (b.cmd.regs.arg1.toNat - b.cmd.regs.arg0.toNat) { next := b.cmd.regs.arg0.toNat, count := 0 } s.port fun k hk =>
      ⟨viewByte_lt hin (hk.trans_le hstop), viewBit_eq_some_decide f.send (hwritten k hk)⟩
  refine ⟨BitVec.ofNat 32 _, ?_, Nat.mod_eq_of_lt ?_⟩
  · rw [exec_popcount_busy hb, popcountRun_passed f.send hin (popcountArgsOk_iff.mpr ⟨hstep, hstart, hstop⟩), popcountFrom]
    simp only [State.env_regs] at hloop ⊢
    rw [hloop, Nat.zero_add]
    rfl
  · calc _ ≤ b.cmd.regs.arg1.toNat - b.cmd.regs.arg0.toNat := (List.length_filter_le _ _).trans_eq List.length_range
      _ < 2 ^ 32 := (Nat.sub_le _ _).trans_lt b.cmd.regs.arg1.isLt

/-! ### Bit reversal (R13) -/

theorem getLsbD_rev8 (x : Byte) {j : Nat} (hj : j < 8) : (rev8 x).getLsbD j = x.getLsbD (7 - j) := by
  rw [rev8, BitVec.getLsbD_reverse, BitVec.getMsbD_eq_getLsbD, decide_eq_true hj, Bool.true_and]

theorem rev8_rev8 (x : Byte) : rev8 (rev8 x) = x := BitVec.reverse_reverse_eq

theorem bitPosition_not (big : Bool) (i : Nat) : bitPosition (!big) i = 7 - bitPosition big i := by
  cases big <;> simp [bitPosition]; omega

/-- The bytes of `r` reversed, and every other byte as it was (R147). -/
def ReversedIn (r : Region) (mem mem' : List Host.Cell) : Prop :=
  ∀ a, Cells.read mem' a = if r.holds a = true then (Cells.read mem a).map rev8 else Cells.read mem a

section
variable {r : Region} {mem mem' mem'' : List Host.Cell}

theorem ReversedIn.unchangedOutside (h : ReversedIn r mem mem') : unchangedOutside mem mem' r.base r.size :=
  fun a ha => (h a).trans (if_neg fun hin => ha ((r.holds_iff a).mp hin))

theorem ReversedIn.read (h : ReversedIn r mem mem') {a : Nat} (ha : r.holds a = true) :
    Cells.read mem' a = (Cells.read mem a).map rev8 := (h a).trans (if_pos ha)

/-- Twice over one region is nothing (R148). -/
theorem ReversedIn.twice (h : ReversedIn r mem mem') (h' : ReversedIn r mem' mem'') (a : Nat) :
    Cells.read mem'' a = Cells.read mem a := by
  by_cases ha : r.holds a = true
  · rw [h'.read ha, h.read ha, Option.map_map, show rev8 ∘ rev8 = id from funext rev8_rev8, Option.map_id, id]
  · rw [h' a, if_neg ha, h a, if_neg ha]

theorem ReversedIn.written (h : ReversedIn r mem mem') {base size : Nat} (hw : writtenRange mem base size) :
    writtenRange mem' base size := fun k hk => by
  rw [h (base + k)]
  split_ifs
  · rw [Option.isSome_map]; exact hw k hk
  · exact hw k hk

/-- A reversed byte holds each logical bit where the other endianness looks for it (R12, R148). -/
theorem ReversedIn.viewBit (h : ReversedIn r mem mem') {base i : Nat} (hin : r.holds (base + i / 8) = true) (big : Bool) :
    viewBit mem' base (!big) i = viewBit mem base big i := by
  have hpos := bitPosition_lt big i
  have hbit : ∀ x : Byte, (rev8 x).getLsbD (bitPosition (!big) i) = x.getLsbD (bitPosition big i) := fun x => by
    rw [bitPosition_not, getLsbD_rev8 x (by omega), Nat.sub_sub_self (by omega)]
  simp only [viewBit_eq, h.read hin, Option.map_map, Function.comp_def, hbit]

end

/-! ### BITREV (R145 to R147) -/

/-- What a BITREV needs to complete with OK: it passes its checks, and its range has been written. -/
def BitrevReady (p : Params) (r : Regs) (mem : List Host.Cell) : Prop :=
  r.viewSource.inBounds p = true ∧ bitrevArgsOk r = true ∧ writtenRange mem r.bitrevRange.base r.bitrevRange.size

theorem bitrevRun_passed {v : Env} (hb : v.regs.viewSource.inBounds v.params = true) (ha : bitrevArgsOk v.regs = true)
    (m : Port) : bitrevRun v m = bitrevFrom v { next := v.regs.arg0.toNat } m := by
  simp [bitrevRun, hb, ha]

/-- The loop goes on only over bytes that were written before it: each is read before it or any later one is written. -/
theorem bitrevLoop_sat_written (v : Env) (n k : Nat) (m : Port) {R : Ending → Prop} :
    (bitrevLoop v n k m).Sat (fun _ => writtenRange m.mem (v.regs.srcAddr.toNat + k) n) R fun _ => True := by
  induction n generalizing k m with
  | zero => exact fun j hj => absurd hj (Nat.not_lt_zero j)
  | succ n ih =>
    have hread := memRead_sat (R := R) v m (v.regs.srcAddr.toNat + k) (T := fun _ => True) trivial
    refine (hread.mono (fun _ h => h) (fun _ h => h) fun _ _ => trivial).bind fun x hx => ?_
    by_cases hlt : v.regs.srcAddr.toNat + k < v.params.memBytes
    · rw [memWrite_eq_ok m _ hlt, Act.bind_ok]
      refine (ih (k + 1) _).mono (fun _ hw j hj => ?_) (fun _ h => h) fun _ h => h
      cases j with
      | zero => rw [Nat.add_zero, hx]; rfl
      | succ j =>
        have hj' := hw j (by omega)
        rwa [Cells.read_write_of_ne _ _ (by omega), show v.regs.srcAddr.toNat + (k + 1) + j =
          v.regs.srcAddr.toNat + k + (j + 1) by omega] at hj'
    · simp [memWrite, hlt]

theorem bitrevFrom_sat_written (v : Env) (w : RevWork) (m : Port) {R : Ending → Prop} :
    (bitrevFrom v w m).Sat (fun _ => writtenRange m.mem (v.regs.srcAddr.toNat + w.next) (v.regs.arg1.toNat - w.next)) R
      fun _ => True :=
  (bitrevLoop_sat_written v _ w.next m).bind fun _ hw => hw

section
variable {s : State} {b : Busy} (hb : s.phase = .busy b) (f : CtrlBits)
include hb

/-- R147: a BITREV that is ready completes with OK, its range reversed and no result register written. -/
theorem exec_bitrev_of_ready (h : BitrevReady s.params b.cmd.regs s.mem) :
    ∃ mem', exec (.bitrev f) s = .next (completion .ok s.results mem' s) ∧ ReversedIn b.cmd.regs.bitrevRange s.mem mem' := by
  obtain ⟨hin, hargs, hw⟩ := h
  obtain ⟨hstart, -⟩ := bitrevArgsOk_iff.mp hargs
  obtain ⟨m', hloop, hread⟩ := bitrevLoop_eq_ok (s.env b) (b.cmd.regs.arg1.toNat - b.cmd.regs.arg0.toNat)
    b.cmd.regs.arg0.toNat s.port fun j h1 h2 => by
      have hj := hw (j - b.cmd.regs.arg0.toNat) (by simp only [Regs.bitrevRange]; omega)
      rw [Regs.bitrevRange, show b.cmd.regs.srcAddr.toNat + b.cmd.regs.arg0.toNat + (j - b.cmd.regs.arg0.toNat) =
        b.cmd.regs.srcAddr.toNat + j by omega] at hj
      exact ⟨inRange_lt (v := s.env b) hin hargs _ (inRange_of_lt h1 (by simp only [State.env_regs]; omega)), hj⟩
  refine ⟨m'.mem, ?_, fun a => ?_⟩
  · rw [exec_bitrev_busy hb, bitrevRun_passed hin hargs, bitrevFrom]
    simp only [State.env_regs]
    rw [hloop]
    rfl
  · exact (hread a).trans (if_congr (b.cmd.regs.bitrevRange.holds_iff a).symm rfl rfl)

/-- A BITREV that completes with OK was ready: a failed check gives BAD_ARG, an unwritten byte a fault. -/
theorem bitrevReady_of_ok {t : State} (h : exec (.bitrev f) s = .next t) (ht : t.status.err = .ok) :
    BitrevReady s.params b.cmd.regs s.mem := by
  rw [exec_bitrev_busy hb] at h
  by_cases hok : b.cmd.regs.viewSource.inBounds s.params = true ∧ bitrevArgsOk b.cmd.regs = true
  · rw [bitrevRun_passed hok.1 hok.2] at h
    obtain ⟨-, -, hw, -⟩ := complete_ok (bitrevFrom_sat_written (s.env b) _ s.port) h ht
    exact ⟨hok.1, hok.2, hw⟩
  · rw [bitrevRun_reject (v := s.env b) hok, complete_reject] at h
    cases h
    cases ht

end

/-- Settles O33: the range's bytes are written, so the command is ready. -/
theorem bitrevResult : Obligations.BitrevResult := by
  unfold Obligations.BitrevResult
  intro s b f hb hin hstart hstop hwritten
  obtain ⟨mem', hexec, hrev⟩ := exec_bitrev_of_ready hb f ⟨hin, bitrevArgsOk_iff.mpr ⟨hstart, hstop⟩, hwritten⟩
  refine ⟨_, hexec, rfl, hrev.unchangedOutside, fun k x h1 h2 hx => ⟨rev8 x, ?_, fun j hj => getLsbD_rev8 x hj⟩⟩
  have hk : b.cmd.regs.bitrevRange.holds (b.cmd.regs.srcAddr.toNat + k) = true := inRange_of_lt (v := s.env b) h1 h2
  rw [completion_mem, hrev.read hk, hx, Option.map_some]

/-- Settles O34: the first run shows the range written, so the second completes too, and reversing twice is nothing. -/
theorem bitrevLaws : Obligations.BitrevLaws := by
  unfold Obligations.BitrevLaws
  intro s t b f hb ht
  have reversed : t.status.err = .ok → BitrevReady s.params b.cmd.regs s.mem ∧ t.params = s.params ∧
      ReversedIn b.cmd.regs.bitrevRange s.mem t.mem := fun hok => by
    have hready := bitrevReady_of_ok hb f ht hok
    obtain ⟨mem', hexec, hrev⟩ := exec_bitrev_of_ready hb f hready
    cases ht.symm.trans hexec
    exact ⟨hready, rfl, hrev⟩
  refine ⟨fun hok => ?_, fun hok h0 h1 big i hi => ?_⟩
  · obtain ⟨⟨hin, hargs, hw⟩, hp, hrev⟩ := reversed hok
    obtain ⟨mem'', hexec, hrev'⟩ := exec_bitrev_of_ready (s := { t with phase := s.phase }) hb f
      ⟨hp.symm ▸ hin, hargs, hrev.written hw⟩
    exact ⟨_, hexec, hrev.twice hrev'⟩
  · obtain ⟨-, -, hrev⟩ := reversed hok
    have hbyte := view_byte_lt hi
    have hstart : b.cmd.regs.arg0.toNat ≤ i / 8 := by rw [h0]; exact Nat.zero_le _
    exact hrev.viewBit (inRange_of_lt (v := s.env b) hstart (h1.symm ▸ hbyte)) big

end Sys2Proof.Machine
end

section
/-! How an SC_DECODE ends (R127, R161 to R163, R168 to R171): the header's errors, the errors of each block, the end of the input at
the head of the block loop, and the good ending, which clears the pad bits. -/

namespace Sys2Proof.Machine

/-! ### Endings -/

/-- The command has ended with a stream error: RES_POS is `pos`, RES_LEN and RES_INFO stay, and no byte outside the destination
region changed (R127, R170). -/
def FailsAt (s : State) (b : Busy) (code : ErrCode) (pos : Word) (o : Host.Outcome State Fault Refusal) : Prop :=
  ∃ t, o = .next t ∧ t = completion code { s.results with pos := pos } t.mem s ∧
    unchangedOutside s.mem t.mem b.cmd.regs.dstAddr.toNat b.cmd.regs.dstCap.toNat

theorem unchangedOutside.widen {mem mem' : List Host.Cell} {base base' size size' : Nat}
    (h : unchangedOutside mem mem' base' size') (hlow : base ≤ base') (hhigh : base' + size' ≤ base + size) :
    unchangedOutside mem mem' base size := fun a ha => h a (by omega)

/-- A stream error raised after writes inside the destination region (R127). -/
theorem complete_streamError {s : State} {b : Busy} {m : Port} (code : ErrCode) {pos : Nat} {p : Word}
    (hp : BitVec.ofNat 32 pos = p)
    (hm : unchangedOutside s.mem m.mem b.cmd.regs.dstAddr.toNat b.cmd.regs.dstCap.toNat) :
    FailsAt s b code p (complete (Act.spoilOnError (s.env b) (.streamError code pos m)) s) := by
  subst hp
  exact ⟨_, rfl, rfl, hm.trans (fun a ha => (spoil_wrote (s.env b) m).frame a fun hin => ha ((Region.holds_iff _ a).mp hin))
    (fun _ h => h) fun _ h => h⟩

/-- A header whose block raises a stream error, as a step of the block loop. -/
theorem exec_block_fails {s : State} {b : Busy} {w : ScWork} {i : Instr} {c : BlockClass} {code : ErrCode} {pos : Nat} {p : Word}
    {m : Port} {x : Act (ScWork × Port)} (hl : inBlockLoop s b w) (hi : headerClass i = some c)
    (hc : sparseBlock (s.env b) c w s.port = .ofAct (s.env b) x) (hx : x = .streamError code pos m) (hp : BitVec.ofNat 32 pos = p)
    (hm : unchangedOutside s.mem m.mem b.cmd.regs.dstAddr.toNat b.cmd.regs.dstCap.toNat) : FailsAt s b code p (exec i s) := by
  obtain ⟨hb, hw, -, -⟩ := hl
  rw [exec_of_headerClass hi, runBlock_busy c hb hw, hc, hx]
  exact complete_streamError code hp hm

@[simp] theorem Act.bind_streamError {α β : Type} (code : ErrCode) (pos : Nat) (m : Port) (k : α → Act β) :
    (Act.streamError code pos m).bind k = .streamError code pos m := rfl

/-- The cursor at the end of the input, as RES_POS holds it. -/
theorem ofNat_srcLen {pos : Nat} {len : Word} (h : pos = len.toNat) : BitVec.ofNat 32 pos = len := by
  rw [h, BitVec.ofNat_toNat, BitVec.setWidth_eq]

/-! ### The end of the input (R171) -/

theorem readInput_end {v : Env} {pos : Nat} (h : pos = v.regs.srcLen.toNat) (eos : ErrCode) (m : Port) :
    readInput v eos pos m = .streamError eos pos m := if_pos h.ge

/-- An input that ends inside a little-endian quantity. -/
theorem BytesAt.readLittleEndian_cut {v : Env} {m : Port} {pos n : Nat} {bs : List Byte} (h : BytesAt v m pos bs)
    (he : pos + bs.length = v.regs.srcLen.toNat) (hn : bs.length < n) (eos : ErrCode) :
    Machine.readLittleEndian v eos n pos m = .streamError eos (pos + bs.length) m := by
  induction bs generalizing pos n with
  | nil =>
    obtain ⟨n, rfl⟩ := Nat.exists_eq_succ_of_ne_zero hn.ne'
    rw [Machine.readLittleEndian, readInput_end (pos := pos) he, Act.bind_streamError]
    rfl
  | cons x bs ih =>
    rw [List.length_cons] at he hn
    obtain ⟨n, rfl⟩ := Nat.exists_eq_succ_of_ne_zero (Nat.ne_zero_of_lt hn)
    rw [Machine.readLittleEndian, h.readInput, Act.bind_ok, ih h.tail (by omega) (by omega), Act.bind_streamError,
      List.length_cons, Nat.add_assoc, Nat.add_comm 1]

/-! ### A reserved header (R168) -/

theorem reservedForm.headerClass {i : Instr} (h : reservedForm i) : headerClass i = some .reserved := by
  obtain ⟨x, rfl⟩ | rfl | ⟨x, rfl⟩ | ⟨x, rfl⟩ | ⟨x, rfl⟩ | ⟨x, rfl⟩ := h <;> rfl

/-- Settles O47: the block is an error as it stands. -/
theorem reservedHeaders : Obligations.ReservedHeaders := by
  unfold Obligations.ReservedHeaders
  intro s b w i hl hi
  exact exec_block_fails hl hi.headerClass rfl rfl rfl (.refl _ _ _)

/-! ### A raw block (R164) -/

theorem copyRaw_add (v : Env) (n n' pos k : Nat) (m : Port) :
    copyRaw v (n + n') pos k m = (copyRaw v n pos k m).bind fun m' => copyRaw v n' (pos + n) (k + n) m' := by
  induction n generalizing pos k m with
  | zero => rw [Nat.zero_add]; rfl
  | succ n ih =>
    rw [Nat.succ_add]
    simp only [copyRaw, ih, Act.bind_assoc, Nat.add_assoc, Nat.add_comm 1]

/-- Settles O44: past the declared length nothing is copied; else what there is of the input is, and then it ends. -/
theorem rawBlockErrors : Obligations.RawBlockErrors := by
  unfold Obligations.RawBlockErrors
  intro s b w i size hl hi
  have ⟨_, _, hok, hcap⟩ := hl
  refine ⟨fun hpast => ?_, fun bs hfit hend hshort hheld => ?_⟩
  · have hblock : rawBlock (s.env b) size w s.port = .streamError .badBlock w.pos s.port := if_pos hpast
    exact exec_block_fails hl hi.headerClass rfl hblock rfl (.refl _ _ _)
  · have hb : BytesAt (s.env b) s.port w.pos bs := ⟨hend.le, hheld, (decoderRegionsOk_bounds hok).1⟩
    obtain ⟨m, hcopy, -, hframe⟩ := copyRaw_eq_ok hok hb (k := w.offset) (show _ ≤ b.cmd.regs.dstCap.toNat by omega)
    obtain ⟨n, rfl⟩ := Nat.exists_eq_add_of_lt hshort
    have hdst : b.cmd.regs.dstAddr.toNat + w.offset + bs.length ≤ b.cmd.regs.dstAddr.toNat + b.cmd.regs.dstCap.toNat := by omega
    have hblock : rawBlock (s.env b) (bs.length + n + 1) w s.port = .streamError .truncated (w.pos + bs.length) m := by
      rw [rawBlock, if_neg (not_lt.mpr hfit), Nat.add_assoc, copyRaw_add, hcopy, Act.bind_ok, copyRaw, readInput_end hend]
      rfl
    exact exec_block_fails hl hi.headerClass rfl hblock (ofNat_srcLen hend) (hframe.widen (Nat.le_add_right _ _) hdst)

/-! ### A sparse block (R165, R166) -/

theorem setIndices_add (v : Env) (k n n' : Nat) (w : ScWork) (m : Port) :
    setIndices v k (n + n') w m = (setIndices v k n w m).bind fun r => setIndices v k n' r.1 r.2 := by
  induction n generalizing w m with
  | zero => rw [Nat.zero_add]; rfl
  | succ n ih =>
    rw [Nat.succ_add]
    simp only [setIndices, ih, Act.bind_assoc]
    congr 1
    funext i
    split_ifs
    · rfl
    · rw [Act.bind_assoc]

theorem length_flatten_of_forall {xss : List (List Byte)} {k : Nat} (h : ∀ xs ∈ xss, xs.length = k) :
    xss.flatten.length = k * xss.length := by
  rw [List.length_flatten, List.map_congr_left h, List.map_const', List.sum_replicate, smul_eq_mul, Nat.mul_comm]

/-- A sparse block whose indices `good` are set and whose next one raises an error wherever MEM differs in the buffer only: it
stops there. -/
theorem exec_sparse_fails {s : State} {b : Busy} {w : ScWork} {i : Instr} {count : List Byte} {k c : Nat}
    {good : List (List Byte)} {last : List Byte} {code : ErrCode} {pos : Nat} {p : Word} (hl : inBlockLoop s b w)
    (hi : sparseForm i count k c) (hc : good.length < c) (hk : ∀ x ∈ good, x.length = k)
    (hlt : ∀ x ∈ good, 8 * w.offset + leValue x < w.length)
    (hw : writtenRange s.mem b.cmd.regs.dstAddr.toNat (bytesNeeded w.length))
    (hb : BytesAt (s.env b) s.port w.pos (count ++ good.flatten ++ last))
    (hp : BitVec.ofNat 32 pos = p)
    (hlast : ∀ n m, BytesAt (s.env b) m (w.pos + count.length + k * good.length) last →
      setIndices (s.env b) k (n + 1) { w with pos := w.pos + count.length + k * good.length } m = .streamError code pos m) :
    FailsAt s b code p (exec i s) := by
  have ⟨_, _, hok, hcap⟩ := hl
  obtain ⟨o, hclass, hcount⟩ := hi.headerClass
  obtain ⟨hbg, hbl⟩ := hb.append
  obtain ⟨hbc, hbg⟩ := hbg.append
  obtain ⟨m, hset, -, hframe⟩ := setIndices_eq_ok hok (w := { w with pos := w.pos + count.length }) hcap hk hbg hlt hw
  rw [List.length_append, length_flatten_of_forall hk, ← Nat.add_assoc] at hbl
  obtain ⟨n, rfl⟩ := Nat.exists_eq_add_of_lt hc
  have hblock : indexBlock (s.env b) k o w s.port = .streamError code pos m := by
    rw [indexBlock, hcount _ w _ hbc, Act.bind_ok, Nat.add_assoc, setIndices_add, hset, Act.bind_ok,
      hlast n m (hbl.of_unchangedOutside hok hframe le_rfl (Nat.add_le_add_left hcap _)), Act.bind_streamError]
  exact exec_block_fails hl hclass rfl hblock hp (hframe.widen le_rfl (Nat.add_le_add_left hcap _))

/-- Settles O46: the indices before it are set; the next one names no bit below L, or the input ends inside it. -/
theorem sparseBlockErrors : Obligations.SparseBlockErrors := by
  unfold Obligations.SparseBlockErrors
  refine ⟨fun s b w i count k c good last hl hi hc hk hlt hw hheld => ?_, fun s b w i hl hi hend => ?_⟩
  · have ⟨_, _, hok, _⟩ := hl
    have stops := fun code pos p hin => exec_sparse_fails (code := code) (pos := pos) (p := p) hl hi hc hk hlt hw
      ⟨hin, hheld, (decoderRegionsOk_bounds hok).1⟩
    simp only [List.length_append, length_flatten_of_forall hk, State.env_regs, ← Nat.add_assoc] at stops
    refine ⟨fun hlen hpast hin => ?_, fun hshort hend => ?_⟩
    · subst hlen
      rw [Nat.mul_succ, ← Nat.add_assoc] at hin ⊢
      refine stops .badBlock _ _ hin rfl fun n m hb => ?_
      rw [setIndices, hb.readLittleEndian, Act.bind_ok, if_pos hpast]
    · refine stops .truncated _ _ hend.le (ofNat_srcLen hend) fun n m hb => ?_
      rw [setIndices, hb.readLittleEndian_cut hend hshort, Act.bind_streamError]
  · obtain ⟨k, hclass⟩ : ∃ k, headerClass i = some (.sparse k none) := by
      obtain rfl | rfl | rfl := hi <;> exact ⟨_, rfl⟩
    have hblock : indexBlock (s.env b) k none w s.port = .streamError .truncated w.pos s.port := by
      rw [indexBlock, indexCount, readInput_end hend]
      rfl
    exact exec_block_fails hl hclass rfl hblock (ofNat_srcLen hend) (.refl _ _ _)

/-! ### The good ending (R169) -/

/-- What the good ending of a decode does to MEM: the pad bits of the buffer are cleared, and nothing else changes. -/
structure PadsCleared (dst : Nat) (w : ScWork) (mem mem' : List Host.Cell) : Prop where
  bits : ∀ j, j < 8 * bytesNeeded w.length → viewBit mem' dst w.endian j =
    if w.length ≤ j then some false else viewBit mem dst w.endian j
  frame : unchangedOutside mem mem' dst (bytesNeeded w.length)

/-- The good ending over a written buffer. -/
theorem sparseDone_eq_ok {v : Env} {w : ScWork} {m : Port}
    (hok : decoderRegionsOk v.params v.regs.streamSource v.regs.destination = true)
    (hcap : bytesNeeded w.length ≤ v.regs.dstCap.toNat)
    (hw : writtenRange m.mem v.regs.dstAddr.toNat (bytesNeeded w.length)) :
    ∃ m', sparseDone v w m =
        .ok { code := .ok, len := some w.length, pos := some w.pos, endian := some w.endian, port := m' } ∧
      PadsCleared v.regs.dstAddr.toNat w m.mem m'.mem := by
  have hdst := (decoderRegionsOk_bounds hok).2
  simp only [Regs.destination] at hdst
  have hpads : (List.replicate (8 * bytesNeeded w.length - w.length) false).length = 8 * bytesNeeded w.length - w.length :=
    List.length_replicate
  have hlen : w.length ≤ 8 * bytesNeeded w.length := by unfold bytesNeeded; omega
  obtain ⟨m', hset⟩ := setBits_eq_ok v v.regs.dstAddr.toNat w.endian
    (List.replicate (8 * bytesNeeded w.length - w.length) false) w.length m fun j h1 h2 => ⟨by omega, hw _ (by omega)⟩
  obtain ⟨hbits, hframe⟩ := setBits_read hset
  refine ⟨m', by rw [sparseDone, hset, Act.bind_ok], fun j hj => ?_, fun a ha => hframe a fun j h1 h2 => by omega⟩
  rw [hbits, List.getElem?_replicate]
  by_cases hpad : w.length ≤ j
  · rw [if_pos (by omega), if_pos (by omega), if_pos hpad]
  · rw [if_neg (by omega), if_neg hpad]

/-- The completion by the good ending. -/
theorem complete_sparseDone {s : State} {b : Busy} {w : ScWork}
    (hok : decoderRegionsOk s.params b.cmd.regs.streamSource b.cmd.regs.destination = true)
    (hcap : bytesNeeded w.length ≤ b.cmd.regs.dstCap.toNat)
    (hw : writtenRange s.mem b.cmd.regs.dstAddr.toNat (bytesNeeded w.length)) :
    ∃ t, complete (sparseDone (s.env b) w s.port) s = .next t ∧
      t = completion .ok { len := BitVec.ofNat 32 w.length, pos := BitVec.ofNat 32 w.pos, endian := w.endian } t.mem s ∧
      PadsCleared b.cmd.regs.dstAddr.toNat w s.mem t.mem := by
  obtain ⟨m, hdone, hpads⟩ := sparseDone_eq_ok (v := s.env b) (m := s.port) hok hcap hw
  exact ⟨_, congrArg (complete · s) hdone, rfl, hpads⟩

/-- Settles O42: the terminator's block is the good ending. -/
theorem sparseTerminator : Obligations.SparseTerminator := by
  unfold Obligations.SparseTerminator
  intro s b w ⟨hb, hwork, hok, hcap⟩ hw
  obtain ⟨t, hdone, ht, hpads⟩ := complete_sparseDone hok hcap hw
  exact ⟨t, by rw [exec_of_headerClass rfl, runBlock_busy .term hb hwork]; exact hdone, ht, hpads.bits, hpads.frame⟩

/-! ### The head of the block loop (R163) -/

/-- The engine's turn in the block loop, when its turn has come. -/
theorem step_block {s : State} {b : Busy} {w : ScWork} {x : Act Ending} (hl : inBlockLoop s b w)
    (hn : engineNext b s.host = true) (hx : sparseHead (s.env b) w s.port = .ended x) : step s = complete x s := by
  obtain ⟨hb, hw, -, -⟩ := hl
  have hturn : engineStep b s = complete x s := by simp only [engineStep, hw, blockStep, hx]
  cases hh : s.host with
  | nil => simp only [step, hb, hh, hturn]
  | cons op rest =>
    rw [hh] at hn
    simp only [step, hb, hh, hn, if_true, hturn]

/-- At full coverage the terminator right there is consumed, and any other byte is not. -/
theorem sparseCovered_eq {v : Env} {w : ScWork} {m : Port} {consumed : Nat}
    (hok : decoderRegionsOk v.params v.regs.streamSource v.regs.destination = true)
    (h : (w.pos = v.regs.srcLen.toNat ∧ consumed = w.pos) ∨
      ∃ x : Byte, w.pos < v.regs.srcLen.toNat ∧ Cells.read m.mem (v.regs.srcAddr.toNat + w.pos) = some x ∧
        consumed = if x = 0x00 then w.pos + 1 else w.pos) :
    sparseCovered v w m = sparseDone v { w with pos := consumed } m := by
  obtain ⟨hend, rfl⟩ | ⟨x, hlt, hx, rfl⟩ := h
  · exact if_pos hend.ge
  · have hsrc := (decoderRegionsOk_bounds hok).1
    simp only [Regs.streamSource] at hsrc
    rw [sparseCovered, if_neg (not_le.mpr hlt), memRead_eq_ok (by omega) hx, Act.bind_ok]
    split_ifs <;> rfl

/-- Settles O41: at full coverage the head is the good ending, and before it at the end of the input an error. -/
theorem sparseLoopHead : Obligations.SparseLoopHead := by
  unfold Obligations.SparseLoopHead
  intro s b w hl hn
  have ⟨_, _, hok, hcap⟩ := hl
  refine ⟨fun hopen hend => ?_, fun hw hcov consumed hcons => ?_⟩
  · have hhead : sparseHead (s.env b) w s.port = .ended (Act.spoilOnError (s.env b) (.streamError .truncated w.pos s.port)) := by
      rw [sparseHead, ScWork.covered, if_neg (by simpa using hopen), readInput_end hend]
      rfl
    rw [step_block hl hn hhead]
    exact complete_streamError .truncated (ofNat_srcLen hend) (.refl _ _ _)
  · have hhead : sparseHead (s.env b) w s.port = .ended (sparseDone (s.env b) { w with pos := consumed } s.port) := by
      rw [sparseHead, ScWork.covered, if_pos (by simpa using hcov), sparseCovered_eq hok hcons]
    obtain ⟨t, hdone, ht, hpads⟩ := complete_sparseDone (w := { w with pos := consumed }) hok hcap hw
    exact ⟨t, by rw [step_block hl hn hhead, hdone], ht, hpads.bits, hpads.frame⟩

/-! ### The stream header (R161, R162) -/

/-- The working state a good stream header starts the block loop with (R160, R161). -/
def headerWork (h : Byte) (bs : List Byte) : ScWork :=
  { pos := 1 + bs.length, endian := h.getLsbD 4, lenBytes := bs.length, length := leValue bs, offset := 0 }

section
variable {v : Env} {m : Port} {h : Byte} {bs : List Byte}

theorem sparseHeader_bad (hb : BytesAt v m 0 [h]) (hbad : h.extractLsb' 5 3 ≠ 0 ∨ 8 < (h.extractLsb' 0 4).toNat) :
    sparseHeader v m = .streamError .badHeader 1 m := by
  rw [sparseHeader, hb.readInput, Act.bind_ok, if_pos hbad]

/-- The length field's read, past a good header byte. -/
theorem sparseHeader_good (hb : BytesAt v m 0 [h]) (hz : h.extractLsb' 5 3 = 0) (hn : (h.extractLsb' 0 4).toNat ≤ 8) :
    sparseHeader v m = (readLittleEndian v .truncated (h.extractLsb' 0 4).toNat 1 m).bind fun length =>
      .ok { pos := 1 + (h.extractLsb' 0 4).toNat, endian := h.getLsbD 4,
            lenBytes := (h.extractLsb' 0 4).toNat, length := length, offset := 0 } := by
  rw [sparseHeader, hb.readInput, Act.bind_ok, if_neg (not_or.mpr ⟨not_not.mpr hz, not_lt.mpr hn⟩)]

theorem sparseHeader_eq_ok (hb : BytesAt v m 0 (h :: bs)) (hz : h.extractLsb' 5 3 = 0) (hn : (h.extractLsb' 0 4).toNat ≤ 8)
    (hlen : bs.length = (h.extractLsb' 0 4).toNat) : sparseHeader v m = .ok (headerWork h bs) := by
  rw [sparseHeader_good (BytesAt.append (xs := [h]) hb).1 hz hn, ← hlen, hb.tail.readLittleEndian, Act.bind_ok]
  rfl

theorem sparseHeader_cut (hb : BytesAt v m 0 (h :: bs)) (hz : h.extractLsb' 5 3 = 0) (hn : (h.extractLsb' 0 4).toNat ≤ 8)
    (hend : bs.length + 1 = v.regs.srcLen.toNat) (hlen : bs.length < (h.extractLsb' 0 4).toNat) :
    sparseHeader v m = .streamError .truncated (1 + bs.length) m := by
  rw [sparseHeader_good (BytesAt.append (xs := [h]) hb).1 hz hn, hb.tail.readLittleEndian_cut (by omega) hlen,
    Act.bind_streamError]

end

/-- Past the launch checks SC_DECODE is its start, then its block loop. -/
theorem sparseRun_passed {v : Env} (hok : decoderRegionsOk v.params v.regs.streamSource v.regs.destination = true) (m : Port) :
    sparseRun v m = (sparseStart v m).bind fun r => sparseFrom v r.1 r.2 := by
  simp only [sparseRun, hok, Bool.not_true, Bool.false_eq_true, if_false]

/-- A start that goes through leaves the block loop to run. -/
theorem sparseRun_eq_from {v : Env} {m m' : Port} {w : ScWork}
    (hok : decoderRegionsOk v.params v.regs.streamSource v.regs.destination = true) (hheader : sparseHeader v m = .ok w)
    (hopen : sparseOpen v w m = .ok m') : sparseRun v m = sparseFrom v w m' := by
  rw [sparseRun_passed hok, sparseStart, hheader, Act.bind_ok, hopen]
  rfl

/-- An error before the block loop ends the command, with nothing written yet. -/
theorem exec_scDecode_fails {s : State} {b : Busy} (f : CtrlBits) (hb : s.phase = .busy b)
    (hok : decoderRegionsOk s.params b.cmd.regs.streamSource b.cmd.regs.destination = true) {code : ErrCode} {pos : Nat} {p : Word}
    (hstart : sparseStart (s.env b) s.port = Act.spoilOnError (s.env b) (.streamError code pos s.port))
    (hp : BitVec.ofNat 32 pos = p) :
    ∃ t, exec (.scDecode f) s = .next t ∧ t = completion code { s.results with pos := p } t.mem s := by
  obtain ⟨t, hnext, ht, -⟩ := complete_streamError (s := s) (b := b) (m := s.port) code hp (.refl _ _ _)
  refine ⟨t, ?_, ht⟩
  rw [exec_scDecode_busy hb, sparseRun_passed hok, hstart, ← hnext]
  rfl

theorem sparseStart_header_error {v : Env} {m m' : Port} {code : ErrCode} {pos : Nat}
    (h : sparseHeader v m = .streamError code pos m') :
    sparseStart v m = Act.spoilOnError v (.streamError code pos m') := by
  rw [sparseStart, h, Act.bind_streamError]

/-- Settles O38: the header byte, then the length field's end, then the capacity check raises the error. -/
theorem sparseHeaderErrors : Obligations.SparseHeaderErrors := by
  unfold Obligations.SparseHeaderErrors
  intro s b f hb hok
  have bytes : ∀ bs, bs.length ≤ b.cmd.regs.srcLen.toNat → holdsBytes s.mem b.cmd.regs.srcAddr.toNat bs →
      BytesAt (s.env b) s.port 0 bs := fun bs hlen hheld =>
    ⟨(Nat.zero_add _).trans_le hlen, hheld, (decoderRegionsOk_bounds hok).1⟩
  refine ⟨fun hempty => ?_, fun h bs hpos hheld => ⟨fun hbad => ?_, fun hz hn => ⟨fun hend hcut => ?_, fun hlen hin hover => ?_⟩⟩⟩
  · have hend : 0 = (s.env b).regs.srcLen.toNat := by rw [State.env_regs, hempty]; rfl
    refine exec_scDecode_fails f hb hok (sparseStart_header_error ?_) rfl
    rw [sparseHeader, readInput_end hend, Act.bind_streamError]
  · have hfirst := bytes [h] hpos (holdsBytes_append (xs := [h]) hheld).1
    exact exec_scDecode_fails f hb hok (sparseStart_header_error (sparseHeader_bad hfirst hbad)) rfl
  · exact exec_scDecode_fails f hb hok
      (sparseStart_header_error (sparseHeader_cut (bytes (h :: bs) hend.le hheld) hz hn hend hcut)) (ofNat_srcLen (by omega))
  · have hopen : sparseOpen (s.env b) (headerWork h bs) s.port = .streamError .capacity (1 + bs.length) s.port := if_pos hover
    refine exec_scDecode_fails f hb hok ?_ rfl
    rw [sparseStart, sparseHeader_eq_ok (bytes (h :: bs) hin hheld) hz hn hlen, Act.bind_ok, hopen, Act.bind_streamError]

/-! ### A header and the terminator (R172) -/

/-- Past the capacity check the buffer is zeroed (R162). -/
theorem sparseOpen_eq_ok {v : Env} {w : ScWork} (m : Port)
    (hok : decoderRegionsOk v.params v.regs.streamSource v.regs.destination = true) (hlen : w.length ≤ 2 ^ 32 - 1)
    (hcap : bytesNeeded w.length ≤ v.regs.dstCap.toNat) :
    ∃ m', sparseOpen v w m = .ok m' ∧ (∀ k, k < bytesNeeded w.length → Cells.read m'.mem (v.regs.dstAddr.toNat + k) = some 0) ∧
      unchangedOutside m.mem m'.mem v.regs.dstAddr.toNat (bytesNeeded w.length) := by
  have hdst := (decoderRegionsOk_bounds hok).2
  simp only [Regs.destination] at hdst
  have hzeros : (List.replicate (bytesNeeded w.length) (0 : Byte)).length = bytesNeeded w.length := List.length_replicate
  obtain ⟨m', hw⟩ := memWriteBytes_eq_ok v (List.replicate (bytesNeeded w.length) 0) v.regs.dstAddr.toNat m (by omega)
  have hread := memWriteBytes_read hw
  rw [hzeros] at hread
  refine ⟨m', by rw [sparseOpen, if_neg (by omega), hw], fun k hk => ?_, fun a ha => by rw [hread, if_neg ha]⟩
  rw [hread, if_pos (by omega), List.getElem?_replicate, if_pos (by omega)]

/-- The terminator ends the decode, whether it stands at full coverage or before it (R163). -/
theorem sparseTurn_terminator {v : Env} {w : ScWork} {m : Port} (hb : BytesAt v m w.pos [0x00]) :
    sparseTurn v w m = .ended (sparseDone v { w with pos := w.pos + 1 } m) := by
  have hread := hb.readInput .truncated
  by_cases hc : w.covered = true
  · have hlt : ¬ v.regs.srcLen.toNat ≤ w.pos := not_le.mpr hb.inInput
    rw [readInput, if_neg hlt] at hread
    simp only [sparseTurn, sparseHead, if_pos hc, sparseCovered, if_neg hlt, hread, Act.bind_ok, if_true]
  · simp only [sparseTurn, sparseHead, if_neg hc, hread]
    rfl

theorem sparseFrom_terminator {v : Env} {w : ScWork} {m : Port} (hb : BytesAt v m w.pos [0x00]) :
    sparseFrom v w m = sparseDone v { w with pos := w.pos + 1 } m := by
  obtain ⟨n, hbound⟩ := Nat.exists_eq_add_of_lt hb.inInput
  rw [sparseFrom, show v.regs.srcLen.toNat - w.pos = n + 1 by omega, sparseLoop, sparseTurn_terminator hb]

/-- A byte whose bits all read 0 in a view is 0. -/
theorem read_eq_zero_of_viewBits {mem : List Host.Cell} {base k : Nat} {big : Bool}
    (h : ∀ i, i < 8 → viewBit mem base big (8 * k + i) = some false) : Cells.read mem (base + k) = some 0 := by
  have hbyte : ∀ i, i < 8 → (Cells.read mem (base + k)).map (fun x => x.getLsbD (if big then 7 - i else i)) = some false :=
    fun i hi => by
      have hv := h i hi
      rwa [viewBit, show (8 * k + i) / 8 = k by omega, show (8 * k + i) % 8 = i by omega] at hv
  cases hx : Cells.read mem (base + k) with
  | none => simpa [hx] using hbyte 0 (by decide)
  | some x =>
    refine congrArg some (BitVec.eq_of_getLsbD_eq fun i hi => ?_)
    have hbit := hbyte (if big then 7 - i else i) (by split_ifs <;> omega)
    rw [hx, Option.map_some, Option.some_inj] at hbit
    rw [show (0 : Byte).getLsbD i = false from BitVec.getLsbD_zero, ← hbit]
    congr 1
    split_ifs <;> omega

/-- Clearing the pad bits of a zero buffer leaves it zero. -/
theorem PadsCleared.zeros {dst : Nat} {w : ScWork} {mem mem' : List Host.Cell} (h : PadsCleared dst w mem mem')
    (hz : ∀ k, k < bytesNeeded w.length → Cells.read mem (dst + k) = some 0) {k : Nat} (hk : k < bytesNeeded w.length) :
    Cells.read mem' (dst + k) = some 0 := by
  refine read_eq_zero_of_viewBits (big := w.endian) fun i hi => ?_
  rw [h.bits _ (by omega)]
  split_ifs
  · rfl
  · rw [viewBit, hz _ (by omega), Option.map_some]
    exact congrArg some BitVec.getLsbD_zero

/-- Settles O40: the buffer is zeroed, and the first turn of the loop finds the terminator. -/
theorem sparseZeros : Obligations.SparseZeros := by
  unfold Obligations.SparseZeros
  intro s b f h bs hb hok hheld hz hn hlen hin hlength hcap
  have hbytes : BytesAt (s.env b) s.port 0 ((h :: bs) ++ [0x00]) :=
    ⟨by rw [Nat.zero_add, List.length_append]; exact hin, hheld, (decoderRegionsOk_bounds hok).1⟩
  obtain ⟨hheader, hterm⟩ := hbytes.append
  obtain ⟨m, hopen, hzero, hframe⟩ := sparseOpen_eq_ok (v := s.env b) (w := headerWork h bs) s.port hok hlength hcap
  have hterm : BytesAt (s.env b) m (headerWork h bs).pos [0x00] := by
    rw [Nat.zero_add, List.length_cons, Nat.add_comm] at hterm
    exact hterm.of_unchangedOutside hok hframe le_rfl (Nat.add_le_add_left hcap _)
  obtain ⟨m', hdone, hpads⟩ := sparseDone_eq_ok (v := s.env b) (w := { headerWork h bs with pos := (headerWork h bs).pos + 1 })
    hok hcap fun k hk => Option.isSome_of_mem (hzero k hk)
  have hrun := (sparseRun_eq_from hok (sparseHeader_eq_ok hheader hz hn hlen) hopen).trans
    ((sparseFrom_terminator hterm).trans hdone)
  rw [show bs.length + 2 = 1 + bs.length + 1 by omega]
  exact ⟨_, (exec_scDecode_busy hb f).trans (congrArg (complete · s) hrun), rfl, fun k hk => hpads.zeros hzero hk,
    hframe.trans hpads.frame (fun _ h => h) fun _ h => h⟩

end Sys2Proof.Machine
end

section
/-! How HUF_DECODE fails (R193, R194, R196, R198, R199): at the code that ends it after some good ones, or at a table check; and why a
complete code has no BAD_CODE. -/

namespace Sys2Proof.Machine

/-! ### A code that fails (R194, R196, R198) -/

/-- How the code at the bits `rest` fails when `count` symbols are written (R198): no code ends before the bits do, none begins them,
or the symbol of the one that does has no room left. -/
def CodeFails (v : Env) (counts : List Nat) (width count : Nat) (rest : List Bool) (err : ErrCode) : Prop :=
  (err = .underflow ∧ rest ≠ [] ∧ rest.length < counts.length ∧ noCodeBegins counts rest rest.length) ∨
  (err = .badCode ∧ counts.length ≤ rest.length ∧ noCodeBegins counts rest counts.length) ∨
  (err = .capacity ∧ v.regs.dstCap.toNat < width * (count + 1) ∧
    ∃ (x : CodeAt) (after : List Bool), x.among counts ∧ rest = x.digits counts ++ after ∧
      (Cells.read v.hsym (x.position counts)).isSome = true)

section
variable {v : Env} {counts : List Nat} {send : Bool} {m : Port} {w : HufWork} {rest : List Bool}

/-- A failing code has a first bit, where there are lengths to try. -/
theorem CodeFails.ne_nil {width count : Nat} {err : ErrCode} (h : CodeFails v counts width count rest err)
    (hcounts : counts ≠ []) : rest ≠ [] := by
  obtain ⟨-, hne, -⟩ | ⟨-, hlen, -⟩ | ⟨-, -, x, after, -, rfl, -⟩ := h
  · exact hne
  · exact List.ne_nil_of_length_pos ((List.length_pos_of_ne_nil hcounts).trans_le hlen)
  · exact List.ne_nil_of_length_pos (by simp)

theorem decodeSymbol_underflow (hc : CountsRead v counts) (hd : BitsAt v send m w.pos rest)
    (hend : w.pos + rest.length = v.regs.srcLen.toNat) (hlen : rest.length < counts.length)
    (hno : noCodeBegins counts rest rest.length) :
    decodeSymbol v send v.params.hufMaxlen w.startCode m = codeError .underflow w.startCode m := by
  obtain ⟨n, hn⟩ := Nat.exists_eq_add_of_lt hlen
  rw [← hc.1, hn, Nat.add_assoc, decodeSymbol_noCodeBegins hc hd hlen.le le_rfl hno]
  exact if_pos hend.ge

theorem decodeSymbol_badCode (hc : CountsRead v counts) (hd : BitsAt v send m w.pos rest) (hlen : counts.length ≤ rest.length)
    (hno : noCodeBegins counts rest counts.length) :
    decodeSymbol v send v.params.hufMaxlen w.startCode m = codeError .badCode w.startCode m := by
  rw [← hc.1]
  exact decodeSymbol_noCodeBegins hc hd le_rfl hlen hno 0

/-- The loop ends at a code that fails, with the symbols before it and the place where it begins. -/
theorem CodeFails.huffmanLoop_eq {width : Nat} {err : ErrCode} (h : CodeFails v counts width w.count rest err)
    (hc : CountsRead v counts) (hk : codeSpace counts ≤ 2 ^ counts.length) (hd : BitsAt v send m w.pos rest)
    (hend : w.pos + rest.length = v.regs.srcLen.toNat) (hne : rest ≠ []) (n : Nat) :
    huffmanLoop v send width (n + 1) w m = codeError err w.startCode m := by
  have hlt : w.pos < v.regs.srcLen.toNat := hd.lt (k := 0) (List.length_pos_of_ne_nil hne)
  rw [huffmanLoop, if_pos hlt]
  obtain ⟨rfl, -, hlen, hno⟩ | ⟨rfl, hlen, hno⟩ | ⟨rfl, hcap, x, after, hx, rfl, hsym⟩ := h
  · rw [decodeSymbol_underflow hc hd hend hlen hno]; rfl
  · rw [decodeSymbol_badCode hc hd hlen hno]; rfl
  · obtain ⟨sym, hsym⟩ := Option.isSome_iff_exists.mp hsym
    obtain ⟨w', hdec, -, hcount, hstart⟩ := decodeSymbol_code hc hk hx hd.append.1 hsym
    rw [hdec, Act.bind_ok, emitSymbol, hcount, if_pos hcap, codeError, hcount, hstart]
    rfl

end

/-- Settles O55: the loop makes one turn for each complete code, and its next turn meets the failing one. -/
theorem huffmanErrors : Obligations.HuffmanErrors := by
  unfold Obligations.HuffmanErrors
  intro s b f counts width codes syms rest hb hwidth hok hc hg hx hsyms hlen hbits hcap err herr
  have hfails : CodeFails (s.env b) counts width codes.length rest err := herr
  have ⟨hnsym, _, _, hsum, hspace⟩ := hg
  have hc' := hc.countsRead b
  have hne : rest ≠ [] := hfails.ne_nil fun hnil => hnsym (by rw [← hsum, hnil]; rfl)
  have hd : BitsAt (s.env b) f.send s.port HufWork.initial.pos (codes.flatMap (CodeAt.digits counts) ++ rest) :=
    ⟨(Nat.zero_add _).trans_le hlen.le, hbits, (decoderRegionsOk_bounds hok).1⟩
  have hturns : codes.length < b.cmd.regs.srcLen.toNat := by
    rw [← hlen, List.length_append]
    exact (length_le_length_digits counts codes).trans_lt (Nat.lt_add_of_pos_right (List.length_pos_of_ne_nil hne))
  obtain ⟨n, hn⟩ := Nat.exists_eq_add_of_lt hturns
  obtain ⟨w, m, hloop, hp, hcount, hrest, hwr, hfr⟩ := huffmanLoop_codes hc' hspace hok (hsyms.names hx b) rest (n + 1)
    .initial s.port hd (by simpa [HufWork.initial] using hcap)
  simp only [HufWork.initial, Nat.zero_add, Nat.mul_zero, Nat.add_zero] at hp hcount hwr hfr
  have hend : w.pos + rest.length = b.cmd.regs.srcLen.toNat := by rw [hp, ← List.length_append, hlen]
  have hrun : huffmanRun f.send f.symw (s.env b) s.port = codeError err w.startCode m := by
    rw [huffmanRun_eq_loop (symbolWidth_eq hwidth) hok hc hg, hn, Nat.add_assoc, hloop]
    exact (hcount ▸ hfails).huffmanLoop_eq hc' hspace hrest hend hne n
  refine ⟨_, (exec_hufDecode_busy hb f).trans (congrArg (complete · s) hrun), ?_, hwr, hfr⟩
  simp [finishWith_eq_completion, Results.after, HufWork.startCode, hp, hcount]

/-! ### A complete code (R199) -/

/-- With a complete code the first code past the longest length is past every number of that many digits. -/
theorem firstCode_complete {counts : List Nat} (h : codeSpace counts = 2 ^ counts.length) :
    firstCode counts counts.length = 2 ^ (counts.length + 1) := by
  have hfirst := firstCode_mul_pow counts le_rfl
  rw [Nat.sub_self, pow_zero, Nat.mul_one] at hfirst
  rw [hfirst, pow_succ, ← h, Nat.mul_comm, codeSpace]

/-- The working state inside a code of which `l` bits are read and no code has ended: its bits spell a number of `l` digits, and
that number is past every code of length `l`. -/
structure HufWork.Inside (counts : List Nat) (l : Nat) (w : HufWork) : Prop where
  len : w.len = l + 1
  first : w.first = firstCode counts l
  past : w.first ≤ w.code
  digits : w.code + 2 ≤ 2 ^ (l + 1)

theorem HufWork.startCode_inside (counts : List Nat) (w : HufWork) : w.startCode.Inside counts 0 :=
  ⟨rfl, rfl, le_rfl, le_rfl⟩

section
variable {v : Env} {counts : List Nat} {cs : List ErrCode}

theorem getBit_raises (v : Env) (base : Nat) (big : Bool) (m : Port) (i : Nat) : (getBit v base big m i).Raises cs :=
  (memRead_raises v m _).bind fun _ => trivial

theorem readHsym_raises (v : Env) (m : Port) (j : Nat) : (readHsym v m j).Raises cs :=
  (readHsym_sat (T := fun _ => True) (R := fun _ => False) v j m).raises fun _ he => he.elim

/-- With a complete code some code ends before the lengths do: only the bits can run out. -/
theorem decodeSymbol_raises_of_complete (hc : CountsRead v counts) (hk : codeSpace counts = 2 ^ counts.length)
    (hu : ErrCode.underflow ∈ cs) (send : Bool) (m : Port) {n l : Nat} (hn : l + n = counts.length) {w : HufWork}
    (hw : w.Inside counts l) : (decodeSymbol v send n w m).Raises cs := by
  induction n generalizing l w with
  | zero =>
    obtain ⟨-, hfirst, hpast, hdigits⟩ := hw
    rw [show l = counts.length from hn, firstCode_complete hk] at hfirst
    rw [show l = counts.length from hn] at hdigits
    omega
  | succ n ih =>
    rw [decodeSymbol]
    split_ifs
    · exact hu
    · refine (getBit_raises v _ send m w.pos).bind fun bit => ?_
      rw [hw.len, hc.2 m l (by omega), Act.bind_ok]
      split_ifs with hmiss
      · exact (readHsym_raises v m _).bind fun _ => trivial
      · obtain ⟨-, hfirst, -, hdigits⟩ := hw
        have hbit := Bool.toNat_le bit
        refine ih (l := l + 1) (by omega) ⟨rfl, ?_, ?_, ?_⟩
        · rw [firstCode, ← hfirst]; exact Nat.mul_comm _ _
        · dsimp only; omega
        · rw [pow_succ]; dsimp only; omega

theorem emitSymbol_raises (v : Env) (hcap : ErrCode.capacity ∈ cs) (width : Nat) (sym : Word) (w : HufWork) (m : Port) :
    (emitSymbol v width sym w m).Raises cs := by
  unfold emitSymbol
  split_ifs
  · exact hcap
  · exact (memWriteBytes_raises v _ _ m).bind fun _ => trivial

theorem huffmanLoop_raises_of_complete (hc : CountsRead v counts) (hk : codeSpace counts = 2 ^ counts.length) (send : Bool)
    (width n : Nat) (w : HufWork) (m : Port) : (huffmanLoop v send width n w m).Raises [.underflow, .badTable, .capacity] := by
  induction n generalizing w m with
  | zero => exact trivial
  | succ n ih =>
    rw [huffmanLoop]
    split_ifs
    · have hsymbol := decodeSymbol_raises_of_complete (cs := [.underflow, .badTable, .capacity]) hc hk (by decide) send m
        (n := v.params.hufMaxlen) ((Nat.zero_add _).trans hc.1.symm) (w.startCode_inside counts)
      exact hsymbol.bind fun r => (emitSymbol_raises v (by decide) width r.1 r.2 m).bind fun r' => ih r'.1 r'.2
    · exact trivial

/-- Past the checks on SYMW and the regions HUF_DECODE checks its tables, and then decodes (R193, R194). -/
theorem huffmanRun_eq_checked {symw : BitVec 2} {width : Nat} (hw : symbolWidth symw = some width)
    (hok : decoderRegionsOk v.params v.regs.viewSource v.regs.destination = true) (send : Bool) (m : Port) :
    huffmanRun send symw v m = (checkTables v m).bind fun _ => huffmanFrom v send width .initial m := by
  simp only [huffmanRun, hw, hok, Bool.not_true, Bool.false_eq_true, if_false]

theorem checkTables_raises (v : Env) (hbad : ErrCode.badTable ∈ cs) (m : Port) : (checkTables v m).Raises cs :=
  (checkTables_sat (T := fun _ => True) v m).raises fun _ he => he ▸ hbad

theorem huffmanRun_raises_of_complete (hc : CountsRead v counts) (hk : codeSpace counts = 2 ^ counts.length) (send : Bool)
    {symw : BitVec 2} {width : Nat} (hw : symbolWidth symw = some width)
    (hok : decoderRegionsOk v.params v.regs.viewSource v.regs.destination = true) (m : Port) :
    (huffmanRun send symw v m).Raises [.underflow, .badTable, .capacity] := by
  rw [huffmanRun_eq_checked hw hok]
  exact (checkTables_raises v (by decide) m).bind fun _ => huffmanLoop_raises_of_complete hc hk send width _ _ m

/-- With a complete code HUF_DECODE ends with no BAD_CODE, whether or not it passes its checks. -/
theorem huffmanRun_endsWith_of_complete (hc : CountsRead v counts) (hk : codeSpace counts = 2 ^ counts.length) (send : Bool)
    (symw : BitVec 2) (m : Port) : ∃ cs, ErrCode.badCode ∉ cs ∧ (huffmanRun send symw v m).EndsWith cs := by
  by_cases hok : decoderRegionsOk v.params v.regs.viewSource v.regs.destination = true
  · cases hw : symbolWidth symw with
    | some width =>
      exact ⟨_, by decide, (huffmanRun_raises_of_complete hc hk send hw hok m).endsWith (huffmanRun_sat send symw v m hw hok)
        fun _ he => he.1⟩
    | none => exact ⟨[.badArg], by decide, by rw [huffmanRun, hw]; exact List.mem_cons_self⟩
  · exact ⟨[.badArg], by decide, by rw [huffmanRun_reject send symw hok]; exact List.mem_cons_self⟩

end

/-- Settles O56: however the command ends, its code is not BAD_CODE. -/
theorem completeCodeNoBadCode : Obligations.CompleteCodeNoBadCode := by
  unfold Obligations.CompleteCodeNoBadCode
  intro s t b f c0 counts hb hc hk ht herr
  rw [exec_hufDecode_busy hb] at ht
  obtain ⟨cs, hnot, hends⟩ := huffmanRun_endsWith_of_complete (hc.countsRead b) hk f.send f.symw s.port
  exact hnot (herr ▸ complete_err hends ht)

/-! ### The table checks (R193) -/

theorem countsHeld.readCounts {s : State} {c0 : Nat} {counts : List Nat} (h : countsHeld s c0 counts) (b : Busy) (m : Port) :
    readCounts (s.env b) m (s.env b).params.hufMaxlen 1 = .ok counts :=
  h.1 ▸ readCounts_eq_ok fun k hk => by rw [Nat.add_comm]; exact (h.countsRead b).2 m k hk

/-- Where the tables are written, tables that are not good fail a check. -/
theorem checkTables_eq_badTable {s : State} {b : Busy} {c0 : Nat} {counts : List Nat} (hc : countsHeld s c0 counts)
    (hbad : ¬ tablesGood s.params.hufMaxsym b.cmd.regs.hufNsym.toNat c0 counts) (m : Port) :
    checkTables (s.env b) m = badTable m := by
  unfold checkTables
  split_ifs with hnsym
  · rfl
  rw [readHcount_eq_ok (v := s.env b) hc.2.1, Act.bind_ok]
  split_ifs with hzero
  · rfl
  rw [hc.readCounts b m, Act.bind_ok]
  split_ifs with hsum hover
  · rfl
  · rfl
  · obtain ⟨hn0, hnmax⟩ := not_or.mp hnsym
    have hspace := (notOverSubscribed_iff 1 counts (by decide)).mp (by simpa using hover)
    rw [one_mul] at hspace
    exact absurd ⟨hn0, not_lt.mp hnmax, not_not.mp hzero, not_not.mp hsum, by exact_mod_cast hspace⟩ hbad

/-- Past the table checks no error is BAD_TABLE (R194 to R196). -/
theorem huffmanRun_endsWith_of_tablesGood {s : State} {b : Busy} {counts : List Nat} {symw : BitVec 2} {width : Nat}
    (hw : symbolWidth symw = some width)
    (hok : decoderRegionsOk s.params b.cmd.regs.viewSource b.cmd.regs.destination = true) (hc : countsHeld s 0 counts)
    (hg : tablesGood s.params.hufMaxsym b.cmd.regs.hufNsym.toNat 0 counts) (send : Bool) (m : Port) :
    (huffmanRun send symw (s.env b) m).EndsWith [.ok, .underflow, .badCode, .capacity] := by
  rw [huffmanRun_eq_loop hw hok hc hg]
  refine (huffmanLoop_sat (s.env b) send width _ .initial m (Nat.zero_le _) (Nat.le_add_left _ _)).mono (fun e he => ?_)
    (fun e he => ?_) fun _ _ => trivial
  · simp [he.1]
  · obtain ⟨hcode | hcode | hcode, -⟩ := he
    all_goals simp [hcode]

/-- Settles O53: bad tables end the command before its loop, and the loop raises no BAD_TABLE. -/
theorem huffmanTables : Obligations.HuffmanTables := by
  unfold Obligations.HuffmanTables
  intro s b f c0 counts hb hsymw hok hc
  obtain ⟨width, hwidth⟩ := symbolWidth_isSome hsymw
  rw [exec_hufDecode_busy hb]
  refine ⟨fun hbad => ?_, fun hg t ht herr => ?_⟩
  · rw [huffmanRun_eq_checked (v := s.env b) hwidth hok, checkTables_eq_badTable hc hbad]
    rfl
  · obtain rfl : c0 = 0 := hg.2.2.1
    exact absurd (herr ▸ complete_err (huffmanRun_endsWith_of_tablesGood hwidth hok hc hg f.send s.port) ht) (by decide)

end Sys2Proof.Machine
end

section
/-! VL_DECODE of a sequence byte by byte (R89 to R92, R220 to R226): the working state after each byte, the end of a well-formed
sequence, and the errors UNDERFLOW and CAPACITY. -/

namespace Sys2Proof.Machine

/-! ### The working state after some bytes -/

/-- The working state of VL_DECODE just after the bytes `first :: later` (R221, R222). -/
def VlWork.afterBytes (first : Byte) (later : List Byte) : VlWork :=
  { pos := later.length + 1, bits := varlenData first later, pad := varlenPad first,
    more := ((first :: later).getD later.length 0).getLsbD 7 }

/-- The decoding of VL_DECODE, from its first byte to its last, before it writes any output (R221 to R223). -/
def varlenRead (v : Env) (m : Port) : Act VlWork :=
  (varlenFirst v m).bind fun w => varlenLoop v (v.regs.srcLen.toNat - w.pos) w m

theorem Act.spoilOnError_bind {α β : Type} (v : Env) (x : Act α) (k : α → Act β) :
    Act.spoilOnError v (x.bind k) = (Act.spoilOnError v x).bind fun a => Act.spoilOnError v (k a) := by
  cases x <;> rfl

/-- Past the launch checks VL_DECODE is its decoding, whose errors leave the destination unspecified, then its output. -/
theorem varlenRun_passed {v : Env} (dend : Bool)
    (hok : decoderRegionsOk v.params v.regs.streamSource v.regs.destination = true) (m : Port) :
    varlenRun dend v m = (Act.spoilOnError v (varlenRead v m)).bind fun w => varlenOutput v dend w m := by
  simp only [varlenRun, hok, Bool.not_true, Bool.false_eq_true, if_false, varlenRead, Act.spoilOnError_bind, Act.bind_assoc]
  rfl

/-- An error in the decoding ends the command. -/
theorem exec_vlDecode_fails {s : State} {b : Busy} (f : CtrlBits) (hb : s.phase = .busy b)
    (hok : decoderRegionsOk s.params b.cmd.regs.streamSource b.cmd.regs.destination = true) {code : ErrCode} {pos : Nat} {p : Word}
    (hread : varlenRead (s.env b) s.port = .streamError code pos s.port) (hp : BitVec.ofNat 32 pos = p) :
    ∃ t, exec (.vlDecode f) s = .next t ∧ t = completion code { s.results with pos := p } t.mem s := by
  obtain ⟨t, hnext, ht, -⟩ := complete_streamError (s := s) (b := b) (m := s.port) code hp (.refl _ _ _)
  refine ⟨t, ?_, ht⟩
  rw [exec_vlDecode_busy hb, varlenRun_passed (v := s.env b) f.dend hok, hread, ← hnext]
  rfl

/-! ### The capacity check (R223) -/

section
variable {v : Env} {first : Byte} {later : List Byte}

theorem varlenCapacity_of_fits {w : VlWork} (h : VarlenFits v w) (m : Port) : varlenCapacity v w m = .ok w := by
  obtain ⟨hcap, hlen, -⟩ := h
  exact if_neg (by omega)

@[simp] theorem length_varlenData (first : Byte) (later : List Byte) :
    (varlenData first later).length = 4 + 7 * later.length := by
  induction later with
  | nil => rfl
  | cons x later ih =>
    simp only [varlenData, varlenLaterData, List.flatMap_cons, List.length_append, List.length_cons, List.length_nil] at ih ⊢
    omega

theorem varlenData_concat (first : Byte) (later : List Byte) (x : Byte) :
    varlenData first (later ++ [x]) = varlenData first later ++ dataBits x 7 := by
  simp [varlenData, dataBits, varlenLaterData, List.range_succ]

/-- Bytes that fit have fitted all along. -/
theorem VarlenFits.take (h : VarlenFits v (.afterBytes first later)) (k : Nat) :
    VarlenFits v (.afterBytes first (later.take k)) := by
  obtain ⟨hcap, hlen, hpos⟩ := h
  have hk : (later.take k).length ≤ later.length := List.length_take_le' k later
  simp only [VlWork.afterBytes, length_varlenData] at hcap hlen hpos
  simp only [VarlenFits, VlWork.afterBytes, length_varlenData]
  omega

end

/-! ### The bytes of a sequence, one after the other (R221, R222) -/

/-- The input begins with `first :: later`, and VL_DECODE comes to the capacity check after the last of them: the first byte is no
BAD_HEADER, each byte before the last asks for another, and the bits of each fit (R221 to R223). -/
structure VarlenBytes (v : Env) (m : Port) (first : Byte) (later : List Byte) : Prop where
  bytes : BytesAt v m 0 (first :: later)
  pad : varlenPad first ≠ 7
  single : first.getLsbD 7 = false → varlenPad first ≤ 4
  continued : ∀ k, k < later.length → ((first :: later).getD k 0).getLsbD 7 = true
  fits : ∀ k, k < later.length → VarlenFits v (.afterBytes first (later.take k))

section
variable {v : Env} {m : Port} {first x : Byte} {later : List Byte}

theorem VarlenBytes.init (h : VarlenBytes v m first (later ++ [x])) : VarlenBytes v m first later := by
  obtain ⟨hbytes, hpad, hsingle, hcont, hfits⟩ := h
  have hlt : ∀ k, k < later.length → k < (later ++ [x]).length := fun k hk => by simp; omega
  refine ⟨(BytesAt.append (xs := first :: later) hbytes).1, hpad, hsingle, fun k hk => ?_, fun k hk => ?_⟩
  · rw [← hcont k (hlt k hk), ← List.cons_append, List.getD_append _ _ _ _ (by simp; omega)]
  · have hfit := hfits k (hlt k hk)
    rwa [List.take_append_of_le_length hk.le] at hfit

/-- Before its last byte the sequence asks for another, and fits. -/
theorem VarlenBytes.init_more (h : VarlenBytes v m first (later ++ [x])) :
    (VlWork.afterBytes first later).more = true ∧ VarlenFits v (.afterBytes first later) := by
  have hlt : later.length < (later ++ [x]).length := by simp
  have hmore := h.continued _ hlt
  have hfit := h.fits _ hlt
  rw [← List.cons_append, List.getD_append _ _ _ _ (by simp)] at hmore
  rw [List.take_left] at hfit
  exact ⟨hmore, hfit⟩

theorem varlenFirst_eq (h : VarlenBytes v m first []) : varlenFirst v m = varlenCapacity v (.afterBytes first []) m := by
  rw [varlenFirst, h.bytes.readInput, Act.bind_ok]
  refine (if_neg (not_or.mpr ⟨h.pad, fun ⟨hbit, hpad⟩ => ?_⟩)).trans rfl
  exact absurd (h.single hbit) (not_le.mpr hpad)

theorem varlenNext_eq (h : BytesAt v m 0 (first :: (later ++ [x]))) :
    varlenNext v (.afterBytes first later) m = varlenCapacity v (.afterBytes first (later ++ [x])) m := by
  have hx := (BytesAt.append (xs := first :: later) h).2
  rw [Nat.zero_add, List.length_cons] at hx
  rw [varlenNext, VlWork.afterBytes, hx.readInput, Act.bind_ok]
  simp [VlWork.afterBytes, varlenData_concat]

/-- The decoding comes to the capacity check after those bytes, and goes on from there. -/
theorem varlenRead_eq (h : VarlenBytes v m first later) :
    varlenRead v m = (varlenCapacity v (.afterBytes first later) m).bind fun w =>
      varlenLoop v (v.regs.srcLen.toNat - (later.length + 1)) w m := by
  induction later using List.reverseRecOn with
  | nil =>
    rw [varlenRead, varlenFirst_eq h, varlenCapacity]
    split_ifs <;> rfl
  | append_singleton later x ih =>
    obtain ⟨hmore, hfits⟩ := h.init_more
    have hin := h.bytes.inInput
    rw [List.length_cons, List.length_append, List.length_singleton, Nat.zero_add] at hin
    obtain ⟨n, hn⟩ := Nat.exists_eq_add_of_le hin
    rw [ih h.init, varlenCapacity_of_fits hfits, Act.bind_ok, List.length_append, List.length_singleton,
      show v.regs.srcLen.toNat - (later.length + 1) = n + 1 by omega, varlenLoop, if_pos hmore, varlenNext_eq h.bytes,
      show v.regs.srcLen.toNat - (later.length + 1 + 1) = n by omega]

/-- Where the bytes after them are not wanted, they are not read (R224). -/
theorem varlenRead_eq_ok (h : VarlenBytes v m first later) (hfits : VarlenFits v (.afterBytes first later))
    (hlast : (VlWork.afterBytes first later).more = false) : varlenRead v m = .ok (.afterBytes first later) := by
  rw [varlenRead_eq h, varlenCapacity_of_fits hfits, Act.bind_ok]
  cases v.regs.srcLen.toNat - (later.length + 1) <;> simp [varlenLoop, hlast]

/-- The input ends where another byte is wanted (R222). -/
theorem varlenRead_eq_underflow (h : VarlenBytes v m first later) (hfits : VarlenFits v (.afterBytes first later))
    (hlast : (VlWork.afterBytes first later).more = true) (hend : later.length + 1 = v.regs.srcLen.toNat) :
    varlenRead v m = .streamError .underflow (later.length + 1) m := by
  rw [varlenRead_eq h, varlenCapacity_of_fits hfits, Act.bind_ok, hend, Nat.sub_self, varlenLoop, if_pos hlast,
    VlWork.afterBytes, hend]

end

/-! ### The output (R224) -/

/-- The output of data bits that fit: all but the last P, then pad bits 0 (R129). -/
theorem varlenOutput_eq_ok {v : Env} (dend : Bool) {w : VlWork} (m : Port)
    (hok : decoderRegionsOk v.params v.regs.streamSource v.regs.destination = true) {n : Nat} (hn : w.bits.length - w.pad = n)
    (hcap : bytesNeeded n ≤ v.regs.dstCap.toNat) :
    ∃ m', varlenOutput v dend w m = .ok { code := .ok, len := some n, pos := some w.pos, endian := some dend, port := m' } ∧
      holdsBits m'.mem v.regs.dstAddr.toNat dend 0 (w.bits.take n) ∧
      (∀ j, n ≤ j → j < 8 * bytesNeeded n → viewBit m'.mem v.regs.dstAddr.toNat dend j = some false) ∧
      unchangedOutside m.mem m'.mem v.regs.dstAddr.toNat (bytesNeeded n) := by
  have hdst := (decoderRegionsOk_bounds hok).2
  simp only [Regs.destination] at hdst
  have hzeros : (List.replicate (bytesNeeded n) (0 : Byte)).length = bytesNeeded n := List.length_replicate
  have hbits : (w.bits.take n).length = n := by rw [List.length_take]; omega
  obtain ⟨m1, hwrite⟩ := memWriteBytes_eq_ok v (List.replicate (bytesNeeded n) 0) v.regs.dstAddr.toNat m (by omega)
  have hread := memWriteBytes_read hwrite
  rw [hzeros] at hread
  have hzero : ∀ k, k < bytesNeeded n → Cells.read m1.mem (v.regs.dstAddr.toNat + k) = some 0 := fun k hk => by
    rw [hread, if_pos (by omega), List.getElem?_replicate, if_pos (by omega)]
  obtain ⟨m2, hset⟩ := setBits_eq_ok v v.regs.dstAddr.toNat dend (w.bits.take n) 0 m1 fun j _ hj => by
    have hbyte : j / 8 < bytesNeeded n := view_byte_lt (by omega)
    exact ⟨by omega, Option.isSome_of_mem (hzero _ hbyte)⟩
  obtain ⟨hview, hframe⟩ := setBits_read hset
  rw [hbits, Nat.zero_add] at hview
  refine ⟨m2, ?_, fun k hk => ?_, fun j hj1 hj2 => ?_, fun a ha => ?_⟩
  · simp only [varlenOutput, hn, hwrite, hset, Act.bind_ok]
  · rw [hview, if_pos (by omega), Nat.zero_add, Nat.sub_zero]
  · rw [hview, if_neg (by omega), viewBit, hzero _ (by omega), Option.map_some]
    exact congrArg some BitVec.getLsbD_zero
  · rw [hframe a fun j _ hj => ?_, hread, if_neg ha]
    have hbyte : j / 8 < bytesNeeded n := view_byte_lt (by omega)
    omega

/-! ### The command -/

/-- Bytes held from SRC_ADDR on, within SRC_LEN, stand at the start of the input. -/
theorem BytesAt.of_source {s : State} {b : Busy} {bs : List Byte}
    (hok : decoderRegionsOk s.params b.cmd.regs.streamSource b.cmd.regs.destination = true)
    (hheld : holdsBytes s.mem b.cmd.regs.srcAddr.toNat bs) (hin : bs.length ≤ b.cmd.regs.srcLen.toNat) :
    BytesAt (s.env b) s.port 0 bs :=
  ⟨(Nat.zero_add _).trans_le hin, hheld, (decoderRegionsOk_bounds hok).1⟩

/-- Settles O49: the last byte ends the decoding, and the output follows. -/
theorem varlenDecode : Obligations.VarlenDecode := by
  unfold Obligations.VarlenDecode
  intro s b f first later hb hok hheld hin hcont hpad hsingle hcap hlen
  have hbits : ∀ k, k < later.length + 1 → ((first :: later).getD k 0).getLsbD 7 = decide (k + 1 < later.length + 1) := hcont
  have hfits : VarlenFits (s.env b) (.afterBytes first later) := ⟨Nat.sub_le_iff_le_add.mp hcap, hlen, hin⟩
  have hbytes : VarlenBytes (s.env b) s.port first later := by
    refine ⟨.of_source hok hheld hin, hpad, fun hbit => hsingle ?_, fun k hk => ?_, fun k _ => hfits.take k⟩
    · have hfirst := (hbits 0 (Nat.succ_pos _)).symm.trans hbit
      exact List.eq_nil_of_length_eq_zero (by simpa using hfirst)
    · rw [hbits k (by omega)]
      exact decide_eq_true (by omega)
  have hlast : (VlWork.afterBytes first later).more = false := (hbits _ (Nat.lt_succ_self _)).trans (by simp)
  have hroom : bytesNeeded ((varlenData first later).length - varlenPad first) ≤ b.cmd.regs.dstCap.toNat := by
    unfold bytesNeeded; omega
  obtain ⟨m, hout, hwritten, hpads, hframe⟩ :=
    varlenOutput_eq_ok (v := s.env b) (w := .afterBytes first later) f.dend s.port hok rfl hroom
  have hrun := varlenRun_passed (v := s.env b) f.dend hok s.port
  rw [varlenRead_eq_ok hbytes hfits hlast] at hrun
  exact ⟨_, (exec_vlDecode_busy hb f).trans (congrArg (complete · s) (hrun.trans hout)), rfl, hwritten, hpads, hframe⟩

/-- Settles O51: the loop has read the whole input and wants another byte. -/
theorem varlenUnderflow : Obligations.VarlenUnderflow := by
  unfold Obligations.VarlenUnderflow
  intro s b f bs hb hok hheld hlen hcont hfit
  cases bs with
  | nil =>
    have hread : varlenRead (s.env b) s.port = .streamError .underflow 0 s.port := by
      rw [varlenRead, varlenFirst, readInput_end (v := s.env b) (pos := 0) hlen]
      rfl
    exact exec_vlDecode_fails f hb hok hread (ofNat_srcLen hlen)
  | cons first later =>
    obtain ⟨hpad, hcap, hmax⟩ := hfit first later rfl
    have hfits : VarlenFits (s.env b) (.afterBytes first later) := ⟨hcap, hmax, hlen.le⟩
    have hmore : ∀ k, k < later.length + 1 → ((first :: later).getD k 0).getLsbD 7 = true := fun k hk => by
      rw [List.getD_eq_getElem _ _ hk]
      exact hcont _ (List.getElem_mem hk)
    have hbytes : VarlenBytes (s.env b) s.port first later :=
      ⟨.of_source hok hheld hlen.le, hpad,
        fun hbit => absurd (hbit.symm.trans (hcont first List.mem_cons_self)) Bool.false_ne_true,
        fun k hk => hmore k (by omega), fun k _ => hfits.take k⟩
    have hread := varlenRead_eq_underflow hbytes hfits (hmore _ (Nat.lt_succ_self _)) hlen
    exact exec_vlDecode_fails f hb hok hread (ofNat_srcLen hlen)

/-- Settles O52: the decoding comes to the capacity check after those bytes, and the check fails. -/
theorem varlenCapacity_exceeded : Obligations.VarlenCapacity := by
  unfold Obligations.VarlenCapacity
  intro s b f first later hb hok hheld hin hcont hpad hsingle hfit hpast
  have hbytes : VarlenBytes (s.env b) s.port first later := by
    refine ⟨.of_source hok hheld hin, hpad, hsingle, hcont, fun k hk => ?_⟩
    obtain ⟨hcap, hmax⟩ := hfit k hk
    exact ⟨hcap, hmax, (Nat.succ_le_succ (List.length_take_le' k later)).trans hin⟩
  have hcheck : varlenCapacity (s.env b) (.afterBytes first later) s.port = .streamError .capacity (later.length + 1) s.port :=
    if_pos hpast
  refine exec_vlDecode_fails f hb hok ?_ rfl
  rw [varlenRead_eq hbytes, hcheck, Act.bind_streamError]

end Sys2Proof.Machine
end

section
/-! Which command raises which error code (R260, R261): each command's codes, its launch checks included. -/

namespace Sys2Proof.Machine

theorem Act.EndsWith.mono {cs cs' : List ErrCode} {x : Act Ending} (h : x.EndsWith cs) (hcs : cs ⊆ cs') : x.EndsWith cs' :=
  Act.Sat.mono h (fun _ he => hcs he) (fun _ he => hcs he) fun _ _ => trivial

/-- A command that BAD_ARG rejects unless its checks `p` pass ends with BAD_ARG or one of the codes it has past them (R123). -/
theorem Act.EndsWith.checked {p : Prop} {cs : List ErrCode} {x : Act Ending} {m : Port} (hpass : p → x.EndsWith cs)
    (hfail : ¬ p → x = .reject .badArg m) : x.EndsWith (.badArg :: cs) := by
  by_cases hp : p
  · exact (hpass hp).mono (List.subset_cons_self _ _)
  · rw [hfail hp]
    exact List.mem_cons_self

section
variable (v : Env) (m : Port)

theorem sparseRun_endsWith_checked : (sparseRun v m).EndsWith (.badArg :: .ok :: sparseCodes) :=
  .checked (sparseRun_endsWith m) fun hbad => sparseRun_reject hbad m

theorem varlenRun_endsWith_checked (dend : Bool) : (varlenRun dend v m).EndsWith (.badArg :: .ok :: varlenCodes) :=
  .checked (varlenRun_endsWith m dend) fun hbad => varlenRun_reject dend hbad m

/-- HUF_DECODE checks SYMW and its regions (R192). -/
theorem huffmanRun_endsWith_checked (send : Bool) (symw : BitVec 2) :
    (huffmanRun send symw v m).EndsWith [.badArg, .ok, .underflow, .badTable, .badCode, .capacity] := by
  by_cases hw : symw = 3
  · rw [hw, huffmanRun_reservedWidth]
    exact List.mem_cons_self
  · obtain ⟨width, hwidth⟩ := symbolWidth_isSome hw
    exact .checked (huffmanRun_endsWith m send hwidth) fun hbad => huffmanRun_reject send symw hbad m

theorem popcountRun_endsWith_checked (send : Bool) : (popcountRun send v m).EndsWith [.badArg, .ok] :=
  .checked (fun hok => popcountRun_endsWith m send hok.1 hok.2) fun hbad => popcountRun_reject send hbad m

theorem bitrevRun_endsWith_checked : (bitrevRun v m).EndsWith [.badArg, .ok] :=
  .checked (fun hok => bitrevRun_endsWith m hok.1 hok.2) fun hbad => bitrevRun_reject hbad m

end

/-- Settles O37: the codes of each command past its checks, and BAD_ARG for the checks. -/
theorem errorCodes : Obligations.ErrorCodes := by
  unfold Obligations.ErrorCodes
  intro s t b f hb
  have bound : ∀ {cs cs' : List ErrCode} {x : Act Ending}, x.EndsWith cs → cs ⊆ cs' → complete x s = .next t →
      t.status.err ∈ cs' := fun hx hcs ht => complete_err (hx.mono hcs) ht
  rw [exec_scDecode_busy hb, exec_vlDecode_busy hb, exec_hufDecode_busy hb, exec_popcount_busy hb, exec_bitrev_busy hb]
  exact ⟨bound (sparseRun_endsWith_checked _ _) (by decide), bound (varlenRun_endsWith_checked _ _ f.dend) (by decide),
    bound (huffmanRun_endsWith_checked _ _ f.send f.symw) (by decide),
    fun ht => ht.elim (bound (popcountRun_endsWith_checked _ _ f.send) (by decide))
      (bound (bitrevRun_endsWith_checked _ _) (by decide))⟩

end Sys2Proof.Machine
end

section
/-! Every launched command completes once everything has been written (R295, R300). A command faults only on a read of what was
never written (R274), and its MEM reads are in bounds (R125), so what is left is that its table reads stay inside the tables:
HUF_DECODE is the only command that reads them, and its checks (R193) keep every canonical position below HUF_NSYM. -/

namespace Sys2Proof.Machine

/-! ### Faults at a table entry -/

/-- The fault is no read of a table entry. -/
def Fault.OffTables (f : Fault) : Prop := (∀ l, f ≠ .unwrittenRead .hcount l) ∧ ∀ j, f ≠ .unwrittenRead .hsym j

/-- The action does not fault at a table entry. -/
def Act.OffTables {α : Type} (x : Act α) : Prop := x.Sat (fun _ => True) (fun _ => True) Fault.OffTables

theorem Act.OffTables.bind {α β : Type} {x : Act α} {k : α → Act β} (hx : x.OffTables) (hk : ∀ a, (k a).OffTables) :
    (x.bind k).OffTables :=
  Act.Sat.bind hx fun a _ => hk a

/-- The same operands with other tables. -/
def Env.withTables (v : Env) (hcount : List (Nat × BitVec 16)) (hsym : List (Nat × Word)) : Env :=
  { v with hcount := hcount, hsym := hsym }

theorem FaultFrom.hcount_eq_none {v : Env} {T : Nat → Prop} {m : Port} {l : Nat}
    (h : FaultFrom v T m (.unwrittenRead .hcount l)) : Cells.read v.hcount l = none := by
  obtain ⟨_, hf, -⟩ | ⟨_, hf, hread⟩ | ⟨_, hf, -⟩ | ⟨_, hf, -⟩ := h <;> cases hf
  exact hread

theorem FaultFrom.hsym_eq_none {v : Env} {T : Nat → Prop} {m : Port} {j : Nat}
    (h : FaultFrom v T m (.unwrittenRead .hsym j)) : Cells.read v.hsym j = none := by
  obtain ⟨_, hf, -⟩ | ⟨_, hf, -⟩ | ⟨_, hf, hread⟩ | ⟨_, hf, -⟩ := h <;> cases hf
  exact hread

/-- A run that does not depend on the tables faults at none of their entries: the entry could have been written. -/
theorem Act.offTables_of_withTables {α : Type} {run : Env → Act α} {v : Env} {W T : Nat → Prop} {m : Port} {q : α → Port}
    {A : α → Prop} {G : Ending → Prop} (hrun : ∀ hcount hsym, run (v.withTables hcount hsym) = run v)
    (h : ∀ hcount hsym, (run (v.withTables hcount hsym)).Within (v.withTables hcount hsym) W T m q A G) :
    (run v).OffTables := by
  simp only [hrun] at h
  cases hx : run v with
  | ok a => trivial
  | raise e => trivial
  | fault f p =>
    rw [hx] at h
    refine ⟨fun l hl => ?_, fun j hj => ?_⟩
    · have hread := FaultFrom.hcount_eq_none (hl ▸ h [(l, 0)] [])
      simp [Env.withTables, Cells.read] at hread
    · have hread := FaultFrom.hsym_eq_none (hj ▸ h [] [(j, 0)])
      simp [Env.withTables, Cells.read] at hread

/-! ### The commands that read no table -/

section
variable (v : Env) (hcount : List (Nat × BitVec 16)) (hsym : List (Nat × Word))

@[simp] theorem Env.withTables_params : (v.withTables hcount hsym).params = v.params := rfl
@[simp] theorem Env.withTables_regs : (v.withTables hcount hsym).regs = v.regs := rfl
@[simp] theorem memRead_withTables : memRead (v.withTables hcount hsym) = memRead v := rfl
@[simp] theorem memWrite_withTables : memWrite (v.withTables hcount hsym) = memWrite v := rfl
@[simp] theorem getBit_withTables : getBit (v.withTables hcount hsym) = getBit v := rfl
@[simp] theorem setBit_withTables : setBit (v.withTables hcount hsym) = setBit v := rfl
@[simp] theorem readInput_withTables : readInput (v.withTables hcount hsym) = readInput v := rfl
@[simp] theorem spoilOnError_withTables {α : Type} (x : Act α) :
    Act.spoilOnError (v.withTables hcount hsym) x = Act.spoilOnError v x := rfl
@[simp] theorem ofAct_withTables : BlockNext.ofAct (v.withTables hcount hsym) = BlockNext.ofAct v := rfl
@[simp] theorem varlenCapacity_withTables : varlenCapacity (v.withTables hcount hsym) = varlenCapacity v := rfl

@[simp] theorem memWriteBytes_withTables (a : Nat) (bs : List Byte) (m : Port) :
    memWriteBytes (v.withTables hcount hsym) a bs m = memWriteBytes v a bs m := by
  induction bs generalizing a m with
  | nil => rfl
  | cons b bs ih => simp [memWriteBytes, ih]

@[simp] theorem setBits_withTables (base : Nat) (big : Bool) (i : Nat) (bs : List Bool) (m : Port) :
    setBits (v.withTables hcount hsym) base big i bs m = setBits v base big i bs m := by
  induction bs generalizing i m with
  | nil => rfl
  | cons b bs ih => simp [setBits, ih]

@[simp] theorem readLittleEndian_withTables (eos : ErrCode) (n pos : Nat) (m : Port) :
    readLittleEndian (v.withTables hcount hsym) eos n pos m = readLittleEndian v eos n pos m := by
  induction n generalizing pos with
  | zero => rfl
  | succ n ih => simp [readLittleEndian, ih]

@[simp] theorem copyRaw_withTables (n pos k : Nat) (m : Port) :
    copyRaw (v.withTables hcount hsym) n pos k m = copyRaw v n pos k m := by
  induction n generalizing pos k m with
  | zero => rfl
  | succ n ih => simp [copyRaw, ih]

@[simp] theorem setIndices_withTables (k n : Nat) (w : ScWork) (m : Port) :
    setIndices (v.withTables hcount hsym) k n w m = setIndices v k n w m := by
  induction n generalizing w m with
  | zero => rfl
  | succ n ih => simp [setIndices, ih]

@[simp] theorem indexCount_withTables : indexCount (v.withTables hcount hsym) = indexCount v := rfl

@[simp] theorem sparseDone_withTables (w : ScWork) (m : Port) :
    sparseDone (v.withTables hcount hsym) w m = sparseDone v w m := by
  simp [sparseDone]

@[simp] theorem sparseHead_withTables (w : ScWork) (m : Port) :
    sparseHead (v.withTables hcount hsym) w m = sparseHead v w m := by
  simp [sparseHead, sparseCovered]

@[simp] theorem sparseBlock_withTables (c : BlockClass) (w : ScWork) (m : Port) :
    sparseBlock (v.withTables hcount hsym) c w m = sparseBlock v c w m := by
  cases c <;> simp [sparseBlock, rawBlock, indexBlock]

@[simp] theorem sparseLoop_withTables (n : Nat) (w : ScWork) (m : Port) :
    sparseLoop (v.withTables hcount hsym) n w m = sparseLoop v n w m := by
  induction n generalizing w m with
  | zero => simp [sparseLoop]
  | succ n ih => simp [sparseLoop, sparseTurn, ih]

@[simp] theorem varlenLoop_withTables (n : Nat) (w : VlWork) (m : Port) :
    varlenLoop (v.withTables hcount hsym) n w m = varlenLoop v n w m := by
  induction n generalizing w with
  | zero => rfl
  | succ n ih => simp [varlenLoop, varlenNext, ih]

@[simp] theorem popcountLoop_withTables (send : Bool) (n : Nat) (w : PopWork) (m : Port) :
    popcountLoop (v.withTables hcount hsym) send n w m = popcountLoop v send n w m := by
  induction n generalizing w with
  | zero => rfl
  | succ n ih => simp [popcountLoop, ih]

@[simp] theorem bitrevLoop_withTables (n k : Nat) (m : Port) :
    bitrevLoop (v.withTables hcount hsym) n k m = bitrevLoop v n k m := by
  induction n generalizing k m with
  | zero => rfl
  | succ n ih => simp [bitrevLoop, ih]

/-- R121's function of a command other than HUF_DECODE does not depend on the tables. -/
theorem latchedRun_withTables {c : Latched} (hc : c.op ≠ 3) (m : Port) :
    latchedRun c (v.withTables hcount hsym) m = latchedRun c v m := by
  obtain ⟨op, send, dend, symw, regs⟩ := c
  rcases latched_op_cases op with rfl | rfl | rfl | rfl | rfl | hreserved
  · change sparseRun _ m = sparseRun v m
    simp [sparseRun, sparseStart, sparseHeader, sparseOpen, sparseFrom]
  · change varlenRun dend _ m = varlenRun dend v m
    simp [varlenRun, varlenFirst, varlenFrom, varlenOutput]
  · exact absurd rfl hc
  · change popcountRun send _ m = popcountRun send v m
    simp [popcountRun, popcountFrom]
  · change bitrevRun _ m = bitrevRun v m
    simp [bitrevRun, bitrevFrom]
  · rw [latchedRun_reserved hreserved]
    rfl

end

theorem latchedRun_offTables_of_ne {c : Latched} (hc : c.op ≠ 3) {v : Env} (hr : v.regs = c.regs) (m : Port) :
    (latchedRun c v m).OffTables :=
  Act.offTables_of_withTables (run := (latchedRun c · m)) (W := inWriteSet v c) (T := inUse v c)
    (fun hcount hsym => latchedRun_withTables v hcount hsym hc m)
    fun hcount hsym => latchedRun_within c (v.withTables hcount hsym) m hr

/-! ### HUF_DECODE's table reads (R193, R194) -/

/-- Every entry of both tables has been written (R295). -/
def TablesWritten (v : Env) : Prop :=
  (∀ l ≤ v.params.hufMaxlen, (Cells.read v.hcount l).isSome = true) ∧
    ∀ j < v.params.hufMaxsym, (Cells.read v.hsym j).isSome = true

section
variable {v : Env}

theorem TablesWritten.readHcount_eq_ok (h : TablesWritten v) (m : Port) {l : Nat} (hl : l ≤ v.params.hufMaxlen) :
    ∃ c, readHcount v m l = .ok c := by
  obtain ⟨x, hx⟩ := Option.isSome_iff_exists.mp (h.1 l hl)
  exact ⟨x.toNat, by rw [readHcount, hx]⟩

theorem TablesWritten.readCounts_eq_ok (h : TablesWritten v) (m : Port) {n l : Nat} (hl : l + n ≤ v.params.hufMaxlen + 1) :
    ∃ cs, readCounts v m n l = .ok cs := by
  induction n generalizing l with
  | zero => exact ⟨[], rfl⟩
  | succ n ih =>
    obtain ⟨c, hc⟩ := h.readHcount_eq_ok m (l := l) (by omega)
    obtain ⟨cs, hcs⟩ := ih (l := l + 1) (by omega)
    exact ⟨c :: cs, by rw [readCounts, hc, Act.bind_ok, hcs, Act.bind_ok]⟩

/-- The table checks read entries 0 to HUF_MAXLEN only: with those written they pass good tables or raise BAD_TABLE. -/
theorem TablesWritten.checkTables_sat (h : TablesWritten v) (m : Port) :
    (checkTables v m).Sat (fun _ => GoodTables v) (fun _ => True) Fault.OffTables := by
  obtain ⟨c0, hc0⟩ := h.readHcount_eq_ok m (Nat.zero_le _)
  obtain ⟨cs, hcs⟩ := h.readCounts_eq_ok m (n := v.params.hufMaxlen) (l := 1) (Nat.add_comm _ _).le
  unfold checkTables
  rw [hc0, Act.bind_ok, hcs, Act.bind_ok]
  split_ifs with hnsym hzero hsum hover
  · trivial
  · trivial
  · trivial
  · trivial
  · obtain ⟨hn0, hnmax⟩ := not_or.mp hnsym
    exact ⟨hn0, not_lt.mp hnmax, m, cs, hcs, not_not.mp hsum, by simpa using hover⟩

/-- Good tables name no position at or above HUF_MAXSYM. -/
theorem GoodTables.countsRead (h : GoodTables v) : ∃ counts, CountsRead v counts ∧ counts.sum ≤ v.params.hufMaxsym := by
  obtain ⟨-, hnmax, m, cs, hcs, hsum, -⟩ := h
  have hread := readCounts_sat (T := fun _ => True) (R := fun _ => True) v v.params.hufMaxlen 1 m
  rw [hcs] at hread
  obtain ⟨hlen, hread⟩ := hread
  refine ⟨cs, ⟨hlen, fun m' l hl => ?_⟩, hsum.le.trans hnmax⟩
  obtain ⟨x, hx, hget⟩ := hread l (hlen ▸ hl)
  rw [readHcount, Nat.add_comm, hx, List.getD_eq_getElem?_getD, hget]
  rfl

theorem getBit_offTables (v : Env) (base : Nat) (big : Bool) (m : Port) (i : Nat) : (getBit v base big m i).OffTables :=
  Act.offTables_of_withTables (run := (getBit · base big m i)) (W := fun _ => True) (T := fun _ => True) (G := fun _ => True)
    (fun _ _ => rfl) fun hcount hsym => .of_read (getBit_sat (v.withTables hcount hsym) base big m i trivial)

theorem memWriteBytes_offTables (v : Env) (a : Nat) (bs : List Byte) (m : Port) : (memWriteBytes v a bs m).OffTables :=
  Act.offTables_of_withTables (run := (memWriteBytes · a bs m)) (W := fun _ => True) (T := fun _ => True) (G := fun _ => True)
    (fun hcount hsym => memWriteBytes_withTables v hcount hsym a bs m) fun hcount hsym =>
      memWriteBytes_within (v.withTables hcount hsym) bs a m (fun _ _ _ => trivial) fun _ _ _ => trivial

theorem TablesWritten.readHsym_offTables (h : TablesWritten v) (m : Port) {j : Nat} (hj : j < v.params.hufMaxsym) :
    (readHsym v m j).OffTables := by
  obtain ⟨x, hx⟩ := Option.isSome_iff_exists.mp (h.2 j hj)
  rw [readHsym_eq_ok hx]
  trivial

theorem emitSymbol_offTables (v : Env) (width : Nat) (sym : Word) (w : HufWork) (m : Port) :
    (emitSymbol v width sym w m).OffTables := by
  unfold emitSymbol
  split_ifs
  · trivial
  · exact (memWriteBytes_offTables v _ _ m).bind fun _ => trivial

/-- The working state inside a code of which `l` bits are read and no code has ended (R194): the bits spell a number past every
code of length `l`, and `index` is the first canonical position of the next length. -/
structure HufWork.Searching (counts : List Nat) (l : Nat) (w : HufWork) : Prop where
  len : w.len = l + 1
  index : w.index = (counts.take l).sum
  past : w.first ≤ w.code

theorem HufWork.startCode_searching (counts : List Nat) (w : HufWork) : w.startCode.Searching counts 0 := ⟨rfl, rfl, le_rfl⟩

section
variable {counts : List Nat} (ht : TablesWritten v) (hc : CountsRead v counts) (hsum : counts.sum ≤ v.params.hufMaxsym)
include ht hc hsum

/-- The lengths tried stay within HUF_MAXLEN, and the position of the code found is below the sum of the counts. -/
theorem decodeSymbol_offTables (send : Bool) (m : Port) {n l : Nat} (hn : l + n = counts.length) {w : HufWork}
    (hw : w.Searching counts l) : (decodeSymbol v send n w m).OffTables := by
  induction n generalizing l w with
  | zero => trivial
  | succ n ih =>
    obtain ⟨hlen, hindex, hpast⟩ := hw
    have hl : l < counts.length := by omega
    have htake : (counts.take (l + 1)).sum = (counts.take l).sum + counts.getD l 0 := by
      rw [List.sum_take_succ counts l hl, List.getD_eq_getElem _ _ hl]
    rw [decodeSymbol]
    split_ifs
    · trivial
    · refine (getBit_offTables v _ send m w.pos).bind fun bit => ?_
      rw [hlen, hc.2 m l hl, Act.bind_ok]
      split_ifs with hhit
      · have htotal : (counts.take (l + 1)).sum ≤ counts.sum := (counts.take_sublist _).sum_le_sum fun _ _ => Nat.zero_le _
        exact (ht.readHsym_offTables m (by omega)).bind fun _ => trivial
      · exact ih (l := l + 1) (by omega) ⟨rfl, by dsimp only; omega, by dsimp only; omega⟩

theorem huffmanLoop_offTables (send : Bool) (width n : Nat) (w : HufWork) (m : Port) :
    (huffmanLoop v send width n w m).OffTables := by
  induction n generalizing w m with
  | zero => trivial
  | succ n ih =>
    rw [huffmanLoop]
    split_ifs
    · have hsymbol := decodeSymbol_offTables ht hc hsum send m (n := v.params.hufMaxlen) ((Nat.zero_add _).trans hc.1.symm)
        (w.startCode_searching counts)
      exact hsymbol.bind fun r => (emitSymbol_offTables v width r.1 r.2 m).bind fun r' => ih r'.1 r'.2
    · trivial

end

/-- With both tables written HUF_DECODE reads no table entry that does not exist (R193). -/
theorem TablesWritten.huffmanRun_offTables (h : TablesWritten v) (send : Bool) (symw : BitVec 2) (m : Port) :
    (huffmanRun send symw v m).OffTables := by
  cases hwidth : symbolWidth symw with
  | none =>
    rw [huffmanRun, hwidth]
    trivial
  | some width =>
    by_cases hok : decoderRegionsOk v.params v.regs.viewSource v.regs.destination = true
    · rw [huffmanRun_eq_checked hwidth hok]
      refine Act.Sat.bind (h.checkTables_sat m) fun _ hgood => ?_
      obtain ⟨counts, hc, hsum⟩ := hgood.countsRead
      exact huffmanLoop_offTables h hc hsum send width _ _ m
    · rw [huffmanRun_reject send symw hok]
      trivial

/-! ### Every command (R300) -/

/-- Once the tables are written no command faults at one of their entries. -/
theorem TablesWritten.latchedRun_offTables (h : TablesWritten v) {c : Latched} (hr : v.regs = c.regs) (m : Port) :
    (latchedRun c v m).OffTables := by
  by_cases hc : c.op = 3
  · obtain ⟨op, send, dend, symw, regs⟩ := c
    obtain rfl : op = 3 := hc
    exact h.huffmanRun_offTables send symw m
  · exact latchedRun_offTables_of_ne hc hr m

end

theorem State.allWritten.tablesWritten {s : State} (h : s.allWritten) (b : Busy) : TablesWritten (s.env b) := h.2

/-- With everything written R121's function of a command does not fault. -/
theorem State.allWritten.latchedRun_ne_fault {s : State} (h : s.allWritten) {b : Busy} {c : Latched} (hr : c.regs = b.cmd.regs)
    (f : Fault) (p : Port) : latchedRun c (s.env b) s.port ≠ .fault f p := fun hx => by
  have htables := (h.tablesWritten b).latchedRun_offTables hr.symm s.port
  rw [hx] at htables
  obtain ⟨a, -, ha, hread⟩ | ⟨l, hl, -⟩ | ⟨j, hj, -⟩ := latchedRun_fault (v := s.env b) hr.symm hx
  · exact absurd (h.1 a ha) (Option.not_isSome_iff_eq_none.mpr hread)
  · exact htables.1 l hl
  · exact htables.2 j hj

/-- Settles O29: the completion is `finishWith` of an ending, since the only other thing a command can come to is a fault. -/
theorem everyCommandCompletes : Obligations.EveryCommandCompletes := by
  unfold Obligations.EveryCommandCompletes
  intro i s b hf hn hb hall
  obtain ⟨c, hr, hexec⟩ := exec_busy hf hn hb
  obtain ⟨e, -, hdone⟩ | ⟨f, p, hx, -⟩ := complete_cases (latchedRun c (s.env b) s.port) s
  · exact ⟨_, hexec.trans hdone, rfl, rfl⟩
  · exact absurd hx (hall.latchedRun_ne_fault hr f p)

end Sys2Proof.Machine
end

section
/-! The two kinds of step of a BUSY block (R121, R265), by whether the engine's turn has come. -/

namespace Sys2Proof.Machine

/-- The engine's turn has come (R121). -/
theorem step_engine {s : State} {b : Busy} (hb : s.phase = .busy b) (hn : engineNext b s.host = true) :
    step s = engineStep b s := by
  cases hh : s.host with
  | nil => simp only [step, hb, hh]
  | cons op rest =>
    rw [hh] at hn
    simp only [step, hb, hh, hn, if_true]

/-- The host's event comes first (R265). -/
theorem step_host_busy {s : State} {b : Busy} {op : HostOp} {rest : List HostOp} (hb : s.phase = .busy b)
    (hh : s.host = op :: rest) (hn : engineNext b s.host = false) : step s = hostStep op (takeEvent rest s) := by
  rw [hh] at hn
  simp only [step, hb, hh, hn, Bool.false_eq_true, if_false]

/-- The host comes first when it has an event other than a WAIT and the delay has not run out. -/
theorem engineNext_eq_false_iff {b : Busy} {host : List HostOp} :
    engineNext b host = false ↔ b.delay ≠ 0 ∧ ∃ op rest, host = op :: rest ∧ op ≠ .wait := by
  cases host with
  | nil => simp [engineNext]
  | cons op rest => cases op <;> simp [engineNext]

end Sys2Proof.Machine
end

section
/-! SC_DECODE's completion as a run of block steps (R160 to R163): each step of the block loop is a turn of the completion's own
loop, and the log a step starts anew is all that tells the two apart. -/

namespace Sys2Proof.Machine

theorem run_one (s : State) : core.run 1 s = step s := by
  cases h : step s <;> simp only [Host.Core.run, core, h]

/-- A completion overwrites MEM and the phase. -/
theorem complete_with_mem_phase (x : Act Ending) (s : State) (mem : List Host.Cell) (p : Phase) :
    complete x { s with mem := mem, phase := p } = complete x s := by
  cases x <;> rfl

/-! ### One block step (R163) -/

section
variable {s : State} {b : Busy} {w : ScWork} {m : Port} (hb : s.phase = .busy b) (hw : b.work = .sc w) (hh : s.host = [])
include hb hw hh

/-- With a silent host every step in the block loop is a turn of it. -/
theorem step_blockLoop : step s = blockStep b w s := by
  rw [step_engine hb (by rw [hh]; rfl), engineStep, hw]

variable (hm : s.port.Like m)
include hm

/-- A turn that ends the command from a port with the same MEM ends it in this step. -/
theorem step_of_turn_ended {x : Act Ending} (ht : sparseTurn (s.env b) w m = .ended x) : step s = complete x s := by
  have hlike := sparseTurn_like (s.env b) w hm
  rw [step_blockLoop hb hw hh, blockStep_eq]
  cases hs : sparseTurn (s.env b) w s.port with
  | loop w' m' => rw [hs, ht] at hlike; exact hlike.elim
  | ended y => rw [hs, ht] at hlike; exact complete_like hlike s

/-- A turn that comes back to the head from a port with the same MEM comes back in this step, its MEM the same. -/
theorem step_of_turn_loop {w' : ScWork} {m' : Port} (ht : sparseTurn (s.env b) w m = .loop w' m') :
    step s = .next { s with mem := m'.mem, phase := .busy { b with work := .sc w' } } := by
  have hlike := sparseTurn_like (s.env b) w hm
  rw [step_blockLoop hb hw hh, blockStep_eq]
  cases hs : sparseTurn (s.env b) w s.port with
  | ended y => rw [hs, ht] at hlike; exact hlike.elim
  | loop w'' m'' =>
    rw [hs, ht] at hlike
    obtain ⟨rfl, hmem⟩ := hlike
    rw [← show m''.mem = m'.mem from hmem]

end

/-! ### The run of them -/

/-- From the loop's head, block steps come to what the completion's loop does from any port with the same MEM. -/
theorem run_blockLoop {s : State} {b : Busy} {w : ScWork} {m : Port} (n : Nat) (hb : s.phase = .busy b) (hw : b.work = .sc w)
    (hh : s.host = []) (hm : s.port.Like m) (hp : w.pos ≤ b.cmd.regs.srcLen.toNat) (hn : b.cmd.regs.srcLen.toNat ≤ w.pos + n) :
    ∃ k, core.run k s = complete (sparseLoop (s.env b) n w m) s := by
  induction n generalizing s b w m with
  | zero =>
    obtain ⟨h, -, -, hlt, -⟩ | ⟨x, hx, -⟩ := sparseHead_cases (T := fun _ => True) (s.env b) w m (fun _ _ => trivial) hp
      fun _ _ => trivial
    · exact absurd hlt (not_lt.mpr hn)
    · have ht : sparseTurn (s.env b) w m = .ended x := by rw [sparseTurn, hx]
      exact ⟨1, by rw [run_one, step_of_turn_ended hb hw hh hm ht, sparseLoop, hx]⟩
  | succ n ih =>
    have hturn := sparseTurn_sat (T := fun _ => True) (s.env b) w m (fun _ _ => trivial) hp fun _ _ => trivial
    rw [sparseLoop]
    cases ht : sparseTurn (s.env b) w m with
    | ended x => exact ⟨1, (run_one s).trans (step_of_turn_ended hb hw hh hm ht)⟩
    | loop w' m' =>
      rw [ht] at hturn
      obtain ⟨-, hpos, hpos', -⟩ := hturn
      obtain ⟨k, hk⟩ := ih (s := { s with mem := m'.mem, phase := .busy { b with work := .sc w' } })
        (b := { b with work := .sc w' }) (m := m') rfl rfl hh rfl hpos' (by dsimp only; omega)
      exact ⟨k + 1, (run_succ (step_of_turn_loop hb hw hh hm ht) k).trans (hk.trans (complete_with_mem_phase _ s _ _))⟩

/-- Settles O39: past the header and the zeroed buffer the completion is R163's loop, which the block steps follow turn by turn. -/
theorem sparseDecodeIsBlockSteps : Obligations.SparseDecodeIsBlockSteps := by
  unfold Obligations.SparseDecodeIsBlockSteps
  intro s b f h bs hb hh hok hheld hz hn hlen hin hlength hcap
  have hbytes : BytesAt (s.env b) s.port 0 (h :: bs) :=
    ⟨by rw [Nat.zero_add]; exact hin, hheld, (decoderRegionsOk_bounds hok).1⟩
  obtain ⟨m, hopen, hzero, hframe⟩ := sparseOpen_eq_ok (v := s.env b) (w := headerWork h bs) s.port hok hlength hcap
  have hpos : (headerWork h bs).pos ≤ b.cmd.regs.srcLen.toNat := by simp only [headerWork]; omega
  obtain ⟨n, hrun⟩ := run_blockLoop (s := { s with mem := m.mem, phase := .busy { b with work := .sc (headerWork h bs) } })
    (m := m) (b.cmd.regs.srcLen.toNat - (headerWork h bs).pos) rfl rfl hh rfl hpos (Nat.add_sub_cancel' hpos).ge
  refine ⟨m.mem, n, fun a => ?_, hrun.trans ?_⟩
  · split_ifs with ha
    · obtain ⟨k, rfl⟩ := Nat.exists_eq_add_of_le ha.1
      exact hzero k (Nat.add_lt_add_iff_left.mp ha.2)
    · exact hframe a ha
  · rw [complete_with_mem_phase, exec_scDecode_busy hb, sparseRun_eq_from hok (sparseHeader_eq_ok hbytes hz hn hlen) hopen]
    rfl

end Sys2Proof.Machine
end

section
/-! Each kind of step tied to what it runs (R25, R43, R121, R163, R265), that none is refused, and what a step from BUSY keeps. -/

namespace Sys2Proof.Machine

/-! ### What a step runs -/

theorem engineStep_of_fresh {s : State} {b : Busy} (hf : b.work = .fresh) : engineStep b s = exec (latchedInstr b s) s := by
  rw [engineStep, hf]
  rfl

/-- Inside the declared length the head of the block loop is the header byte at the cursor (R163). -/
theorem sparseHead_eq_header {v : Env} {w : ScWork} {m : Port} {h : Byte} (hopen : w.offset < bytesNeeded w.length)
    (hin : w.pos < v.regs.srcLen.toNat) (hmem : v.regs.srcAddr.toNat + w.pos < v.params.memBytes)
    (hread : Cells.read m.mem (v.regs.srcAddr.toNat + w.pos) = some h) : sparseHead v w m = .header h := by
  rw [sparseHead, ScWork.covered, if_neg (by simpa using hopen), readInput_eq_ok hin hmem hread]

/-- Settles O5, by whose turn it is and by what the engine has done so far. -/
theorem stepRunsInstruction : Obligations.StepRunsInstruction := by
  refine ⟨fun s w rest hi hh => ?_, fun s b hb hf hn => ?_, fun s b w h hb hw hn hopen hin hmem hread => ?_,
    fun s op rest hh => ⟨fun hi => step_host hi hh, fun hi hop => ?_, fun b hb => ⟨?_, fun hn => ?_⟩⟩,
    fun s hh => ⟨fun hi => ?_, fun b _ => by rw [hh]; rfl⟩⟩
  · rw [step_host hi hh, hostStep_regWrite, show regAt 4 = .ctrl from rfl]
    simp only [writeReg, hi]
  · rw [step_engine hb hn, engineStep_of_fresh hf]
  · have hhead : sparseHead (s.env b) w s.port = .header h := sparseHead_eq_header hopen hin hmem hread
    rw [step_engine hb hn, engineStep, hw]
    simp only [blockStep, hhead]
  · rw [step_host hi hh, hop]
    rfl
  · rw [engineNext_eq_false_iff, hh]
    simp [and_comm]
  · rw [step_host_busy hb hh hn, takeEvent, hb, Phase.countDown_busy]
  · simp only [step, hi, hh]

/-! ### No step is refused -/

theorem complete_ne_refused (x : Act Ending) (s : State) (r : Refusal) : complete x s ≠ .refused r := by
  cases x <;> nofun

theorem whenIdle_ne_refused (s t : State) (r : Refusal) : whenIdle s t ≠ .refused r := by
  unfold whenIdle
  split <;> nofun

theorem unlessBusy_ne_refused (s t : State) (r : Refusal) : unlessBusy s t ≠ .refused r := by
  unfold unlessBusy
  split <;> nofun

/-- A CTRL write is a command word, never a block header. -/
theorem writeCtrl_ne_refused (s : State) (w : Word) (r : Refusal) : writeReg s w .ctrl ≠ .refused r := by
  cases hp : s.phase with
  | busy b => simp only [writeReg, hp]; nofun
  | idle =>
    simp only [writeReg, hp]
    cases hw : w.getLsbD 31 with
    | true => rw [exec_start hp hw]; nofun
    | false => rw [decodeWord_store hw, exec_ctrlStore_idle hp]; nofun

theorem writeReg_ne_refused (s : State) (w : Word) (name : RegName) (r : Refusal) : writeReg s w name ≠ .refused r := by
  cases name with
  | ctrl => exact writeCtrl_ne_refused s w r
  | srcAddr | srcLen | dstAddr | dstCap | arg0 | arg1 | arg2 | hufNsym | hcount | hsym => exact whenIdle_ne_refused s _ r
  | status | id | resLen | resPos | resInfo | param0 | param1 | reserved => nofun

theorem hostMemWrite_ne_refused (s : State) (a : Nat) (x : Byte) (r : Refusal) : hostMemWrite s a x ≠ .refused r := by
  unfold hostMemWrite
  split
  · split
    · nofun
    · split <;> nofun
  · nofun

theorem hostStep_ne_refused (op : HostOp) (s : State) (r : Refusal) : hostStep op s ≠ .refused r := by
  cases op with
  | regWrite o w => exact writeReg_ne_refused s w _ r
  | memWrite a x => exact hostMemWrite_ne_refused s a x r
  | reset | powerOn => exact unlessBusy_ne_refused s _ r
  | regRead | memRead | wait => nofun

/-- The engine reads a header only in the block loop. -/
theorem engineStep_ne_refused {b : Busy} {s : State} (hb : s.phase = .busy b) (r : Refusal) : engineStep b s ≠ .refused r := by
  obtain ⟨-, he⟩ | ⟨w, -, he⟩ | ⟨w, -, he⟩ | ⟨w, -, he⟩ | ⟨w, -, he⟩ | ⟨w, -, he⟩ := engineStep_cases b s hb <;> rw [he]
  case inr.inl =>
    rw [blockStep_eq]
    split
    · nofun
    · exact complete_ne_refused _ s r
  all_goals exact complete_ne_refused _ s r

/-- Outside SC_DECODE's block loop a block has no meaning (log entry 9). -/
theorem runBlock_refused {s : State} (h : s.phase = .idle ∨ ∃ b, s.phase = .busy b ∧ ∀ w, b.work ≠ .sc w) (c : BlockClass) :
    runBlock c s = .refused .noBlockLoop := by
  unfold runBlock
  obtain hi | ⟨b, hb, hw⟩ := h
  · rw [hi]
  · cases hwork : b.work with
    | sc w => exact absurd hwork (hw w)
    | fresh | vl | huf | pop | rev => simp only [hb, hwork]

/-- Settles O48, by the three kinds of step. -/
theorem noRefusedStep : Obligations.NoRefusedStep := by
  refine ⟨fun s h hs => by rw [exec_decodeHeader, runBlock_refused hs], fun s r => ?_⟩
  obtain ⟨-, -, hs⟩ | ⟨op, rest, -, hs⟩ | ⟨b, hb, hs⟩ := step_cases s <;> rw [hs]
  · nofun
  · exact hostStep_ne_refused op _ r
  · exact engineStep_ne_refused hb r

/-! ### What a step from BUSY keeps -/

/-- While BUSY no host event changes CTRL, an operand register or what the engine holds (R21c, R43, R74). -/
theorem hostEffect_busy {op : HostOp} {s t : State} {b : Busy} (hb : s.phase = .busy b) (he : HostEffect s op t) :
    t.ctrl = s.ctrl ∧ t.regs = s.regs ∧ t.phase = s.phase := by
  cases he with
  | ignored | statusWritten | byteWritten | replied | unchanged => exact ⟨rfl, rfl, rfl⟩
  | launched hi | ctrlStored hi | operandWritten hi | countWritten hi | symbolWritten hi | registersReset hi | poweredUp hi =>
    cases hb.symm.trans hi

/-- Settles O60: the engine's turn completes the command or goes on in its block loop, and a host event only shortens the delay. -/
theorem latchedCommandHolds : Obligations.LatchedCommandHolds := by
  unfold Obligations.LatchedCommandHolds
  intro s t b hb ht
  cases hn : engineNext b s.host with
  | true =>
    rw [step_engine hb hn] at ht
    obtain ⟨e, rfl⟩ | ⟨w, w', m, -, -, rfl⟩ := engineStep_next hb ht
    · exact ⟨rfl, rfl, .inl ⟨rfl, rfl⟩⟩
    · exact ⟨rfl, rfl, .inr ⟨_, rfl, rfl, rfl, rfl, nofun⟩⟩
  | false =>
    obtain ⟨hdelay, op, rest, hh, -⟩ := engineNext_eq_false_iff.mp hn
    rw [step_host_busy hb hh hn] at ht
    have hphase : (takeEvent rest s).phase = .busy { b with delay := b.delay - 1 } := by
      rw [takeEvent_phase, hb, Phase.countDown_busy]
    obtain ⟨hctrl, hregs, hkept⟩ := hostEffect_busy hphase (hostStep_effect ht)
    exact ⟨hctrl, hregs, .inr ⟨_, hkept.trans hphase, rfl, rfl, rfl, fun _ => ⟨Nat.sub_one_lt hdelay, rfl⟩⟩⟩

end Sys2Proof.Machine
end

section
/-! Host reads (R21d, R67, R70e to R70g), and the reset events (R290 to R292). -/

namespace Sys2Proof.Machine

/-! ### Reads -/

/-- A host read of MEM replies, and may take a draw (R67). -/
theorem hostMemRead_eq (s : State) (a : Nat) : ∃ w d, hostMemRead s a = { s with replies := w :: s.replies, draws := d } := by
  unfold hostMemRead
  split
  · split
    · exact ⟨_, _, rfl⟩
    · split <;> exact ⟨_, _, rfl⟩
  · exact ⟨_, _, rfl⟩

/-- Settles O15: either read is a reply. -/
theorem readsHaveNoSideEffect : Obligations.ReadsHaveNoSideEffect := by
  unfold Obligations.ReadsHaveNoSideEffect
  intro s n
  obtain ⟨w, d, h⟩ := hostMemRead_eq s n
  exact ⟨rfl, w, d, congrArg _ h⟩

theorem pick_mem (n : Nat) (default x : Byte) (xs : List Byte) : pick n default (x :: xs) ∈ x :: xs := by
  have hlt : n % (x :: xs).length < (x :: xs).length := Nat.mod_lt n (Nat.succ_pos _)
  rw [pick, List.getD_eq_getElem _ _ hlt]
  exact List.getElem_mem hlt

/-- A host read of a write-set byte while BUSY replies with one of R70(e)'s values. -/
theorem hostStep_memRead_writeSet {s : State} {b : Busy} {a : Nat} (hb : s.phase = .busy b) (ha : a < s.params.memBytes)
    (hw : (writeSet s.params b.cmd).holds a = true) : ∃ y ∈ busyReadValues b s a,
      hostStep (.memRead a) s = .next { s with replies := y.zeroExtend 32 :: s.replies, draws := s.draws + 1 } :=
  ⟨pick (Config.busyReadChoice s.draws) 0 (busyReadValues b s a), pick_mem _ _ _ _, by
    simp only [hostStep, hostMemRead, if_pos ha, hb, hw, if_true]
    rfl⟩

/-- Any other byte reads as it stands (R70f, R70g). -/
theorem hostStep_memRead_other {s : State} {b : Busy} {a : Nat} (hb : s.phase = .busy b) (ha : a < s.params.memBytes)
    (hw : (writeSet s.params b.cmd).holds a = false) :
    hostStep (.memRead a) s = .next (reply ((shownByte s.mem s.powerCycles a).zeroExtend 32) s) := by
  simp only [hostStep, hostMemRead, if_pos ha, hb, hw, Bool.false_eq_true, if_false]

/-- Settles O22: the reads by the byte's place, and the written values by the latched command's run from MEM at launch. -/
theorem busyReads : Obligations.BusyReads := by
  refine ⟨fun s b a hb ha => ⟨fun hw => ?_, hostStep_memRead_other hb ha⟩, fun s b hb => ?_⟩
  · obtain ⟨y, hy, hstep⟩ := hostStep_memRead_writeSet hb ha hw
    exact ⟨_, y, hstep, rfl, List.mem_cons.mp hy⟩
  · have hb' : ({ s with mem := b.atLaunch } : State).phase = .busy b := hb
    exact ⟨exec_latchedInstr hb', fun t a x ht hx => latchedRun_final ht hb' hx⟩

/-! ### Reset and power-on -/

theorem unlessBusy_idle {s : State} (hi : s.phase = .idle) (t : State) : unlessBusy s t = .next t := by
  simp only [unlessBusy, hi]

theorem unlessBusy_busy {s : State} {b : Busy} (hb : s.phase = .busy b) (t : State) :
    unlessBusy s t = .fault .resetDuringBusy := by
  simp only [unlessBusy, hb]

/-- Settles O18: both events depend on the phase alone, and a reset clears every register from CTRL to RES_INFO. -/
theorem resetEvents : Obligations.ResetEvents :=
  ⟨fun s hi => ⟨resetRegisters s, unlessBusy_idle hi _, rfl, rfl,
      fun _ h1 h2 => readReg_cleared rfl rfl rfl rfl rfl h1 h2, rfl, rfl, rfl, rfl⟩,
    fun s hi => ⟨powerUp s, unlessBusy_idle hi _, rfl⟩,
    fun _ _ hb => ⟨unlessBusy_busy hb _, unlessBusy_busy hb _⟩⟩

end Sys2Proof.Machine
end

section
/-! How SC_DECODE and VL_DECODE fail (R127, R170, R225): every stream error is raised with the destination region unspecified, and
BAD_HEADER only at the first byte. -/

namespace Sys2Proof.Machine

/-! ### The bytes an error leaves (R127) -/

/-- After writing cells whose values are given by their addresses, each address written holds its value. -/
theorem read_foldl_write {g : Nat → Byte} {a : Nat} (cs : List Host.Cell) (hcs : ∀ c ∈ cs, c.2 = g c.1) (m : Port)
    (h : (∃ c ∈ cs, c.1 = a) ∨ Cells.read m.mem a = some (g a)) :
    Cells.read (cs.foldl (fun m c => { mem := Cells.write m.mem c.1 c.2, log := c :: m.log }) m).mem a = some (g a) := by
  induction cs generalizing m with
  | nil => simpa using h
  | cons c cs ih =>
    refine ih (fun c' hc' => hcs c' (List.mem_cons_of_mem _ hc')) _ ?_
    simp only [List.mem_cons, exists_eq_or_imp] at h
    by_cases hca : c.1 = a
    · right; rw [← hca, Cells.read_write_self, hcs c List.mem_cons_self]
    · rw [Cells.read_write_of_ne _ _ (Ne.symm hca)]
      exact h.imp_left fun hmem => hmem.resolve_left hca

theorem spoil_read {v : Env} {a : Nat} (h : v.regs.destination.holds a = true) (ha : a < v.params.memBytes) (m : Port) :
    Cells.read (m.spoil v).mem a = some (Config.errorByte v.id a) := by
  obtain ⟨hlow, hhigh⟩ := (Region.holds_iff _ a).mp h
  obtain ⟨k, rfl⟩ := Nat.exists_eq_add_of_le hlow
  refine read_foldl_write (g := Config.errorByte v.id) _ (fun c hc => ?_) m (.inl ⟨_, List.mem_map.mpr ⟨k, ?_, rfl⟩, rfl⟩)
  · obtain ⟨j, -, rfl⟩ := List.mem_map.mp hc
    rfl
  · simpa using ⟨by omega, ha⟩

/-! ### BAD_HEADER at the first byte (R161, R221) -/

/-- RES_POS of a BAD_HEADER (R170, R225). -/
def HeaderErrorAtOne (e : Ending) : Prop := e.code = .badHeader → e.pos = some 1

/-- Every BAD_HEADER the action raises is at the first byte. -/
def Act.HeaderErrorsAtOne {α : Type} (x : Act α) : Prop := x.Sat (fun _ => True) HeaderErrorAtOne fun _ => True

/-- An ending by a stream error, its destination unspecified (R127). -/
def SpoiledErr (v : Env) (e : Ending) : Prop := HeaderErrorAtOne e ∧ ∃ m : Port, e.port = m.spoil v

/-- Every error the action raises is such an ending. -/
def Act.RaisesSpoiled {α : Type} (v : Env) (x : Act α) : Prop := x.Sat (fun _ => True) (SpoiledErr v) fun _ => True

section
variable {α β : Type} {v : Env} {cs : List ErrCode} {x : Act α} {k : α → Act β}

theorem Act.HeaderErrorsAtOne.bind (hx : x.HeaderErrorsAtOne) (hk : ∀ a, (k a).HeaderErrorsAtOne) :
    (x.bind k).HeaderErrorsAtOne :=
  Act.Sat.bind hx fun a _ => hk a

theorem Act.RaisesSpoiled.bind (hx : x.RaisesSpoiled v) (hk : ∀ a, (k a).RaisesSpoiled v) : (x.bind k).RaisesSpoiled v :=
  Act.Sat.bind hx fun a _ => hk a

theorem Act.Raises.headerErrorsAtOne (h : x.Raises cs) (hcs : ErrCode.badHeader ∉ cs) : x.HeaderErrorsAtOne :=
  h.mono (fun _ hq => hq) (fun _ he hcode => absurd (hcode ▸ he) hcs) fun _ hf => hf

theorem Act.HeaderErrorsAtOne.spoil (v : Env) (h : x.HeaderErrorsAtOne) : (Act.spoilOnError v x).RaisesSpoiled v :=
  Act.Sat.spoil h fun e he => ⟨he, e.port, rfl⟩

/-- An action that raises nothing. -/
theorem Act.Raises.raisesSpoiled (v : Env) (h : x.Raises []) : x.RaisesSpoiled v :=
  h.mono (fun _ hq => hq) (fun _ he => absurd he List.not_mem_nil) fun _ hf => hf

end

/-! ### SC_DECODE -/

/-- The codes a block raises (R164 to R168). -/
def blockCodes : List ErrCode := [.truncated, .badBlock]

theorem copyRaw_raises_blockCodes (v : Env) (n pos k : Nat) (m : Port) : (copyRaw v n pos k m).Raises blockCodes := by
  induction n generalizing pos k m with
  | zero => exact trivial
  | succ n ih => exact (readInput_raises v (by decide) pos m).bind fun _ => (memWrite_raises v m _ _).bind fun _ => ih _ _ _

theorem setIndices_raises_blockCodes (v : Env) (k n : Nat) (w : ScWork) (m : Port) :
    (setIndices v k n w m).Raises blockCodes := by
  induction n generalizing w m with
  | zero => exact trivial
  | succ n ih =>
    refine (readLittleEndian_raises v (by decide) k w.pos m).bind fun i => ?_
    split_ifs
    · exact streamError_raises (by decide) _ m
    · exact (setBit_raises v _ _ _ _ m).bind fun _ => ih _ _

theorem rawBlock_raises_blockCodes (v : Env) (size : Nat) (w : ScWork) (m : Port) :
    (rawBlock v size w m).Raises blockCodes := by
  unfold rawBlock
  split_ifs
  · exact streamError_raises (by decide) _ m
  · exact (copyRaw_raises_blockCodes v _ _ _ m).bind fun _ => trivial

theorem indexBlock_raises_blockCodes (v : Env) (k : Nat) (count : Option Nat) (w : ScWork) (m : Port) :
    (indexBlock v k count w m).Raises blockCodes := by
  have counted : (indexCount v count w m).Raises blockCodes := by
    cases count with
    | some c => exact trivial
    | none => exact (readInput_raises v (by decide) w.pos m).bind fun _ => trivial
  exact counted.bind fun cw => (setIndices_raises_blockCodes v k cw.1 cw.2 m).bind fun _ => trivial

theorem sparseDone_raisesSpoiled (v : Env) (w : ScWork) (m : Port) : (sparseDone v w m).RaisesSpoiled v :=
  Act.Raises.raisesSpoiled v ((setBits_raises v _ _ _ _ m).bind fun _ => trivial)

/-- A turn of the block loop that comes back, or ends the command with no error but such endings. -/
def BlockNext.RaisesSpoiled (v : Env) : BlockNext → Prop
  | .loop _ _ => True
  | .ended x => x.RaisesSpoiled v

theorem BlockNext.ofAct_raisesSpoiled (v : Env) {x : Act (ScWork × Port)} (h : x.Raises blockCodes) :
    (BlockNext.ofAct v x).RaisesSpoiled v := by
  cases x with
  | ok r => exact trivial
  | raise e => exact (h.headerErrorsAtOne (by decide)).spoil v
  | fault f p => exact trivial

theorem sparseBlock_raisesSpoiled (v : Env) (c : BlockClass) (w : ScWork) (m : Port) :
    (sparseBlock v c w m).RaisesSpoiled v := by
  cases c with
  | term => exact sparseDone_raisesSpoiled v w m
  | raw size => exact BlockNext.ofAct_raisesSpoiled v (rawBlock_raises_blockCodes v size w m)
  | sparse k count => exact BlockNext.ofAct_raisesSpoiled v (indexBlock_raises_blockCodes v k count w m)
  | reserved => exact BlockNext.ofAct_raisesSpoiled v (streamError_raises (by decide) w.pos m)

theorem sparseHead_raisesSpoiled {v : Env} {w : ScWork} {m : Port} {x : Act Ending} (h : sparseHead v w m = .ended x) :
    x.RaisesSpoiled v := by
  unfold sparseHead at h
  split_ifs at h
  · cases h
    unfold sparseCovered
    split_ifs
    · exact sparseDone_raisesSpoiled v w m
    · exact ((memRead_raises v m _).raisesSpoiled v).bind fun _ => sparseDone_raisesSpoiled v _ m
  · have hr := (readInput_raises (cs := blockCodes) v (eos := .truncated) (by decide) w.pos m).headerErrorsAtOne (by decide)
    cases hx : readInput v .truncated w.pos m with
    | ok b => rw [hx] at h; cases h
    | raise e => rw [hx] at h hr; cases h; exact Act.HeaderErrorsAtOne.spoil v hr
    | fault f p => rw [hx] at h; cases h; exact trivial

theorem sparseTurn_raisesSpoiled (v : Env) (w : ScWork) (m : Port) : (sparseTurn v w m).RaisesSpoiled v := by
  unfold sparseTurn
  cases hh : sparseHead v w m with
  | header h => exact sparseBlock_raisesSpoiled v _ _ m
  | ended x => exact sparseHead_raisesSpoiled hh

theorem sparseLoop_raisesSpoiled (v : Env) (n : Nat) (w : ScWork) (m : Port) : (sparseLoop v n w m).RaisesSpoiled v := by
  induction n generalizing w m with
  | zero =>
    unfold sparseLoop
    cases hh : sparseHead v w m with
    | header h =>
      have hend : (Act.streamError .truncated w.pos m : Act Ending).Raises blockCodes := streamError_raises (by decide) _ m
      exact (hend.headerErrorsAtOne (by decide)).spoil v
    | ended x => exact sparseHead_raisesSpoiled hh
  | succ n ih =>
    have ht := sparseTurn_raisesSpoiled v w m
    unfold sparseLoop
    cases hx : sparseTurn v w m with
    | loop w' m' => exact ih w' m'
    | ended x => rw [hx] at ht; exact ht

theorem sparseHeader_headerErrorsAtOne (v : Env) (m : Port) : (sparseHeader v m).HeaderErrorsAtOne := by
  have first : (readInput v .truncated 0 m).Raises blockCodes := readInput_raises v (by decide) 0 m
  refine (first.headerErrorsAtOne (by decide)).bind fun h => ?_
  split_ifs
  · exact fun _ => rfl
  · have length : (readLittleEndian v .truncated (h.extractLsb' 0 4).toNat 1 m).Raises blockCodes :=
      readLittleEndian_raises v (by decide) _ 1 m
    exact (length.headerErrorsAtOne (by decide)).bind fun _ => trivial

theorem sparseOpen_headerErrorsAtOne (v : Env) (w : ScWork) (m : Port) : (sparseOpen v w m).HeaderErrorsAtOne := by
  unfold sparseOpen
  split_ifs
  · exact nofun
  · exact (memWriteBytes_raises (cs := []) v _ _ m).headerErrorsAtOne List.not_mem_nil

theorem sparseRun_raisesSpoiled {v : Env} (hok : decoderRegionsOk v.params v.regs.streamSource v.regs.destination = true)
    (m : Port) : (sparseRun v m).RaisesSpoiled v := by
  rw [sparseRun_passed hok]
  refine Act.RaisesSpoiled.bind (Act.HeaderErrorsAtOne.spoil v ?_) fun r => sparseLoop_raisesSpoiled v _ r.1 r.2
  exact (sparseHeader_headerErrorsAtOne v m).bind fun w => (sparseOpen_headerErrorsAtOne v w m).bind fun _ => trivial

/-! ### VL_DECODE -/

theorem varlenCapacity_headerErrorsAtOne (v : Env) (w : VlWork) (m : Port) : (varlenCapacity v w m).HeaderErrorsAtOne := by
  unfold varlenCapacity
  split_ifs
  · exact nofun
  · exact trivial

theorem readInput_underflow_headerErrorsAtOne (v : Env) (pos : Nat) (m : Port) :
    (readInput v .underflow pos m).HeaderErrorsAtOne :=
  (readInput_raises (cs := [.underflow]) v (by decide) pos m).headerErrorsAtOne (by decide)

theorem varlenRead_headerErrorsAtOne (v : Env) (m : Port) : (varlenRead v m).HeaderErrorsAtOne := by
  have loop : ∀ n w, (varlenLoop v n w m).HeaderErrorsAtOne := fun n => by
    induction n with
    | zero =>
      intro w
      unfold varlenLoop
      split_ifs
      · exact nofun
      · exact trivial
    | succ n ih =>
      intro w
      unfold varlenLoop
      split_ifs
      · exact ((readInput_underflow_headerErrorsAtOne v w.pos m).bind fun _ => varlenCapacity_headerErrorsAtOne v _ m).bind ih
      · exact trivial
  refine Act.HeaderErrorsAtOne.bind ((readInput_underflow_headerErrorsAtOne v 0 m).bind fun b => ?_) fun w => loop _ w
  dsimp only
  split_ifs
  · exact fun _ => rfl
  · exact varlenCapacity_headerErrorsAtOne v _ m

theorem varlenRun_raisesSpoiled {v : Env} (dend : Bool)
    (hok : decoderRegionsOk v.params v.regs.streamSource v.regs.destination = true) (m : Port) :
    (varlenRun dend v m).RaisesSpoiled v := by
  rw [varlenRun_passed dend hok]
  refine ((varlenRead_headerErrorsAtOne v m).spoil v).bind fun w => Act.Raises.raisesSpoiled v ?_
  exact (memWriteBytes_raises v _ _ m).bind fun m1 => (setBits_raises v _ dend _ 0 m1).bind fun _ => trivial

/-! ### The completion of a stream error -/

/-- A decoder that ends neither well nor with BAD_ARG has passed its checks and raised a stream error. -/
theorem complete_decodeErr {v : Env} {x : Act Ending} {s t : State}
    (hpass : decoderRegionsOk v.params v.regs.streamSource v.regs.destination = true →
      x.Sat (DecodeEnd v s.port) (DecodeErr v s.port) (FaultFrom v (decoderTouches v) s.port) ∧ x.RaisesSpoiled v)
    (hfail : ¬ decoderRegionsOk v.params v.regs.streamSource v.regs.destination = true → x = .reject .badArg s.port)
    (ht : complete x s = .next t) (hok : t.status.err ≠ .ok) (harg : t.status.err ≠ .badArg) :
    decoderRegionsOk v.params v.regs.streamSource v.regs.destination = true ∧
      ∃ e, DecodeErr v s.port e ∧ SpoiledErr v e ∧ t = finishWith e s := by
  by_cases hregions : decoderRegionsOk v.params v.regs.streamSource v.regs.destination = true
  · obtain ⟨hsat, hspoiled⟩ := hpass hregions
    refine ⟨hregions, ?_⟩
    cases x with
    | ok e => cases ht; exact absurd hsat.1 hok
    | raise e => cases ht; exact ⟨e, hsat, hspoiled, rfl⟩
    | fault f p => cases ht
  · rw [hfail hregions] at ht
    cases ht
    exact absurd rfl harg

/-- Settles O36: past its checks either command raises stream errors only, each with the destination unspecified. -/
theorem decoderErrors : Obligations.DecoderErrors := by
  unfold Obligations.DecoderErrors
  intro s t b f hb ht hok harg
  rw [exec_scDecode_busy hb, exec_vlDecode_busy hb] at ht
  have failure : decoderRegionsOk s.params b.cmd.regs.streamSource b.cmd.regs.destination = true ∧
      ∃ e, DecodeErr (s.env b) s.port e ∧ SpoiledErr (s.env b) e ∧ t = finishWith e s := by
    rcases ht with ht | ht
    · exact complete_decodeErr (fun h => ⟨sparseRun_sat _ _ h, sparseRun_raisesSpoiled h _⟩) (fun h => sparseRun_reject h _) ht
        hok harg
    · exact complete_decodeErr (fun h => ⟨varlenRun_sat _ _ _ h, varlenRun_raisesSpoiled _ h _⟩)
        (fun h => varlenRun_reject _ h _) ht hok harg
  obtain ⟨hregions, e, ⟨⟨hlen, hendian, -, p, hpos, hp, hend⟩, hwrote⟩, ⟨hheader, m, hport⟩, rfl⟩ := failure
  have hres : (finishWith e s).results = { s.results with pos := BitVec.ofNat 32 p } := by
    simp only [finishWith_results, Results.after, hlen, hpos, hendian, Option.map_none, Option.map_some, Option.getD_none,
      Option.getD_some]
  have hdst := (decoderRegionsOk_bounds hregions).2
  simp only [State.env_regs] at hp hend hdst
  refine ⟨?_, ?_, fun hcode => ?_, fun hcode => ?_, fun a ha => ?_, fun k hk => ?_⟩
  · rw [hres, finishWith_eq_completion, ← finishWith_results, hres]
    rfl
  · rw [hres, BitVec.toNat_ofNat, Nat.mod_eq_of_lt (hp.trans_lt b.cmd.regs.srcLen.isLt)]
    exact hp
  · rw [hres]
    exact ofNat_srcLen (hend hcode)
  · cases hpos.symm.trans (hheader hcode)
    rw [hres]
    rfl
  · exact hwrote.frame a fun hin => ha ((Region.holds_iff _ a).mp hin)
  · rw [finishWith_mem, hport]
    refine spoil_read (v := s.env b) ((Region.holds_iff _ _).mpr ⟨Nat.le_add_right _ _, Nat.add_lt_add_left hk _⟩) ?_ m
    exact (Nat.add_lt_add_left hk _).trans_le hdst

end Sys2Proof.Machine
end

section
/-! The launch checks and the in-use regions of each command (R70, R123), and that the checks fail just where the command completes
with BAD_CMD or BAD_ARG. -/

namespace Sys2Proof.Machine

section
variable {p : Params} {c : Latched}

/-! ### The launch checks by OP (R123) -/

theorem toNat_ne_of_reserved {op : BitVec 4} (h : op = 0 ∨ 6 ≤ op.toNat) :
    op.toNat ≠ 1 ∧ op.toNat ≠ 2 ∧ op.toNat ≠ 3 ∧ op.toNat ≠ 4 ∧ op.toNat ≠ 5 := by
  revert op
  decide

theorem passesLaunchChecks_decoder (h : c.op = 1 ∨ c.op = 2) :
    passesLaunchChecks p c = decoderRegionsOk p c.regs.streamSource c.regs.destination := by
  rcases h with h | h <;> rw [passesLaunchChecks, h] <;> rfl

theorem passesLaunchChecks_huffman (h : c.op = 3) : passesLaunchChecks p c =
    ((symbolWidth c.symw).isSome && decoderRegionsOk p c.regs.viewSource c.regs.destination) := by
  rw [passesLaunchChecks, h]
  rfl

theorem passesLaunchChecks_popcount (h : c.op = 4) :
    passesLaunchChecks p c = (c.regs.viewSource.inBounds p && popcountArgsOk c.regs) := by
  rw [passesLaunchChecks, h]
  rfl

theorem passesLaunchChecks_bitrev (h : c.op = 5) :
    passesLaunchChecks p c = (c.regs.viewSource.inBounds p && bitrevArgsOk c.regs) := by
  rw [passesLaunchChecks, h]
  rfl

theorem passesLaunchChecks_reserved (h : c.op = 0 ∨ 6 ≤ c.op.toNat) : passesLaunchChecks p c = false := by
  obtain ⟨h1, h2, h3, h4, h5⟩ := toNat_ne_of_reserved h
  unfold passesLaunchChecks
  split
  · exact absurd ‹_› h1
  · exact absurd ‹_› h2
  · exact absurd ‹_› h3
  · exact absurd ‹_› h4
  · exact absurd ‹_› h5
  · rfl

end

theorem symbolWidth_isSome_iff {symw : BitVec 2} : (symbolWidth symw).isSome = true ↔ symw ≠ 3 := by
  revert symw
  decide

/-- A decoder's region checks, in bytes (R125, R126). -/
theorem decoderRegionsOk_iff_bytes {p : Params} {src dst : Region} : decoderRegionsOk p src dst = true ↔
    src.base + src.size ≤ p.memBytes ∧ dst.base + dst.size ≤ p.memBytes ∧
      ∀ a, ¬ (src.base ≤ a ∧ a < src.base + src.size ∧ dst.base ≤ a ∧ a < dst.base + dst.size) := by
  simp only [decoderRegionsOk_iff, Region.inBounds_iff, Region.holds_iff, and_assoc]

theorem Region.empty_holds (a : Nat) : Region.empty.holds a = false := by
  simp [Region.holds, Region.empty]

/-! ### A command that fails its checks, and one that passes them -/

theorem latchedRun_of_checks_fail {c : Latched} {v : Env} (hr : v.regs = c.regs) (h : passesLaunchChecks v.params c = false) :
    ∃ code, (code = .badCmd ∨ code = .badArg) ∧ ∀ m, latchedRun c v m = .reject code m := by
  obtain ⟨op, send, dend, symw, regs⟩ := c
  obtain rfl : v.regs = regs := hr
  rcases latched_op_cases op with rfl | rfl | rfl | rfl | rfl | hop
  · rw [passesLaunchChecks_decoder (.inl rfl)] at h
    exact ⟨.badArg, .inr rfl, sparseRun_reject (by simp [h])⟩
  · rw [passesLaunchChecks_decoder (.inr rfl)] at h
    exact ⟨.badArg, .inr rfl, varlenRun_reject dend (by simp [h])⟩
  · rw [passesLaunchChecks_huffman rfl, Bool.and_eq_false_iff] at h
    refine ⟨.badArg, .inr rfl, ?_⟩
    rcases h with h | h
    · obtain rfl : symw = 3 := not_not.mp (mt symbolWidth_isSome_iff.mpr (by simp [h]))
      exact huffmanRun_reservedWidth send v
    · exact huffmanRun_reject send symw (by simp [h])
  · rw [passesLaunchChecks_popcount rfl, ← Bool.not_eq_true, Bool.and_eq_true] at h
    exact ⟨.badArg, .inr rfl, popcountRun_reject send h⟩
  · rw [passesLaunchChecks_bitrev rfl, ← Bool.not_eq_true, Bool.and_eq_true] at h
    exact ⟨.badArg, .inr rfl, bitrevRun_reject h⟩
  · exact ⟨.badCmd, .inl rfl, fun m => by rw [latchedRun_reserved hop]; rfl⟩

theorem latchedRun_of_checks_pass {c : Latched} {v : Env} (hr : v.regs = c.regs) (h : passesLaunchChecks v.params c = true) :
    ∃ cs, ErrCode.badCmd ∉ cs ∧ ErrCode.badArg ∉ cs ∧ ∀ m, (latchedRun c v m).EndsWith cs := by
  obtain ⟨op, send, dend, symw, regs⟩ := c
  obtain rfl : v.regs = regs := hr
  rcases latched_op_cases op with rfl | rfl | rfl | rfl | rfl | hop
  · rw [passesLaunchChecks_decoder (.inl rfl)] at h
    exact ⟨_, by decide, by decide, fun m => sparseRun_endsWith m h⟩
  · rw [passesLaunchChecks_decoder (.inr rfl)] at h
    exact ⟨_, by decide, by decide, fun m => varlenRun_endsWith m dend h⟩
  · rw [passesLaunchChecks_huffman rfl, Bool.and_eq_true, Option.isSome_iff_exists] at h
    obtain ⟨⟨width, hw⟩, hok⟩ := h
    exact ⟨_, by decide, by decide, fun m => huffmanRun_endsWith m send hw hok⟩
  · rw [passesLaunchChecks_popcount rfl, Bool.and_eq_true] at h
    exact ⟨_, by decide, by decide, fun m => popcountRun_endsWith m send h.1 h.2⟩
  · rw [passesLaunchChecks_bitrev rfl, Bool.and_eq_true] at h
    exact ⟨_, by decide, by decide, fun m => bitrevRun_endsWith m h.1 h.2⟩
  · rw [passesLaunchChecks_reserved hop] at h
    cases h

/-- The launch checks fail just where the command completes with BAD_CMD or BAD_ARG (R70, R124). -/
theorem checks_fail_iff {s : State} {b : Busy} (hb : s.phase = .busy b) : passesLaunchChecks s.params b.cmd = false ↔
    ∃ t, exec (latchedInstr b s) s = .next t ∧ (t.status.err = .badCmd ∨ t.status.err = .badArg) := by
  rw [exec_latchedInstr hb]
  refine ⟨fun h => ?_, fun ⟨t, ht, herr⟩ => Bool.eq_false_iff.mpr fun h => ?_⟩
  · obtain ⟨code, hcode, hreject⟩ := latchedRun_of_checks_fail (v := s.env b) rfl h
    exact ⟨_, by rw [hreject, complete_reject], hcode⟩
  · obtain ⟨cs, hcmd, harg, hends⟩ := latchedRun_of_checks_pass (v := s.env b) rfl h
    have hmem := complete_err (hends s.port) ht
    rcases herr with herr | herr <;> rw [herr] at hmem
    · exact hcmd hmem
    · exact harg hmem

/-! ### The checks written out, and the regions (R70, R123) -/

section
variable {p : Params} {c : Latched}

/-- The launch checks, command by command. -/
theorem passesLaunchChecks_iff : passesLaunchChecks p c = true ↔
    ((c.op = 1 ∨ c.op = 2) ∧ decoderRegionsOk p c.regs.streamSource c.regs.destination = true) ∨
    (c.op = 3 ∧ c.symw ≠ 3 ∧ decoderRegionsOk p c.regs.viewSource c.regs.destination = true) ∨
    (c.op = 4 ∧ c.regs.viewSource.inBounds p = true ∧ popcountArgsOk c.regs = true) ∨
    (c.op = 5 ∧ c.regs.viewSource.inBounds p = true ∧ bitrevArgsOk c.regs = true) := by
  rcases latched_op_cases c.op with h | h | h | h | h | h
  · rw [passesLaunchChecks_decoder (.inl h)]; simp [h]
  · rw [passesLaunchChecks_decoder (.inr h)]; simp [h]
  · rw [passesLaunchChecks_huffman h, Bool.and_eq_true, symbolWidth_isSome_iff]; simp [h]
  · rw [passesLaunchChecks_popcount h, Bool.and_eq_true]; simp [h]
  · rw [passesLaunchChecks_bitrev h, Bool.and_eq_true]; simp [h]
  · rw [passesLaunchChecks_reserved h]
    obtain ⟨h1, h2, h3, h4, h5⟩ := toNat_ne_of_reserved h
    refine iff_of_false Bool.false_ne_true ?_
    rintro (⟨hop | hop, -⟩ | ⟨hop, -⟩ | ⟨hop, -⟩ | ⟨hop, -⟩) <;> replace hop := congrArg BitVec.toNat hop
    exacts [h1 hop, h2 hop, h3 hop, h4 hop, h5 hop]

theorem regions_of_checks_fail (h : passesLaunchChecks p c = false) : readSet p c = .empty ∧ writeSet p c = .empty := by
  simp [readSet, writeSet, h]

theorem readSet_holds_iff (h : passesLaunchChecks p c = true) (a : Nat) : (readSet p c).holds a = true ↔
    ((c.op = 1 ∨ c.op = 2) ∧ c.regs.streamSource.holds a = true) ∨
    ((c.op = 3 ∨ c.op = 4) ∧ c.regs.viewSource.holds a = true) ∨ (c.op = 5 ∧ c.regs.bitrevRange.holds a = true) := by
  rw [readSet, if_pos h]
  obtain ⟨hop | hop, -⟩ | ⟨hop, -⟩ | ⟨hop, -⟩ | ⟨hop, -⟩ := passesLaunchChecks_iff.mp h <;> simp [hop]

theorem writeSet_holds_iff (h : passesLaunchChecks p c = true) (a : Nat) : (writeSet p c).holds a = true ↔
    ((c.op = 1 ∨ c.op = 2 ∨ c.op = 3) ∧ c.regs.destination.holds a = true) ∨
    (c.op = 5 ∧ c.regs.bitrevRange.holds a = true) := by
  rw [writeSet, if_pos h]
  obtain ⟨hop | hop, -⟩ | ⟨hop, -⟩ | ⟨hop, -⟩ | ⟨hop, -⟩ := passesLaunchChecks_iff.mp h <;> simp [hop, Region.empty_holds]

/-- BITREV's range, by its first and its last byte (R145). -/
theorem bitrevRange_holds_iff (r : Regs) (a : Nat) : r.bitrevRange.holds a = true ↔
    r.srcAddr.toNat + r.arg0.toNat ≤ a ∧ a < r.srcAddr.toNat + r.arg1.toNat := by
  simp only [Region.holds_iff, Regs.bitrevRange]
  omega

end

/-- Settles O21, by the launch checks and the regions of each command. -/
theorem inUseRegions : Obligations.InUseRegions := by
  refine ⟨fun p c => ?_, fun s b hb => checks_fail_iff hb, fun p c a => ⟨fun h => ?_, fun h => ⟨?_, ?_⟩⟩⟩
  · rw [passesLaunchChecks_iff]
    simp only [decoderRegionsOk_iff_bytes, Region.inBounds_iff, popcountArgsOk_iff, bitrevArgsOk_iff, Regs.streamSource,
      Regs.viewSource, Regs.destination]
  · obtain ⟨hread, hwrite⟩ := regions_of_checks_fail h
    rw [hread, hwrite]
    exact ⟨Region.empty_holds a, Region.empty_holds a⟩
  · rw [readSet_holds_iff h, bitrevRange_holds_iff]
    simp only [Region.holds_iff, Regs.streamSource, Regs.viewSource]
  · rw [writeSet_holds_iff h, bitrevRange_holds_iff]
    simp only [Region.holds_iff, Regs.destination]

end Sys2Proof.Machine
end
